-- ==== Sys2Proof/Word.lean ====
section
/-! DEFINITION. The widths of WXB and the small records of its data formats (R10, R22, R32, R33, R112). -/

namespace Sys2Proof

/-- A byte is 8 bits (R10). -/
abbrev Byte := BitVec 8

/-- A 16-bit item: a Huffman table entry (R32), an LZSS token (R105), WIDTH and HEIGHT (R22). -/
abbrev Half := BitVec 16

/-- A control register and a command word are 32 bits (R21, R90). -/
abbrev Word := BitVec 32

/-- A pixel is the list of its bytes in ascending address order; two pixels are equal when all bytes are (R13). -/
abbrev Pixel := List Byte

/-- One node of the Huffman table: two 16-bit entries (R32). -/
structure Node where
  bit0 : Half
  bit1 : Half
deriving DecidableEq, Repr, Inhabited

/-- One palette entry: the bytes R, G, B (R33). -/
structure Rgb where
  r : Byte
  g : Byte
  b : Byte
deriving DecidableEq, Repr, Inhabited

/-- The nine pixels around a source pixel `e`, named as R221 names them. -/
structure Nbhd where
  a : Pixel
  b : Pixel
  c : Pixel
  d : Pixel
  e : Pixel
  f : Pixel
  g : Pixel
  h : Pixel
  i : Pixel
deriving DecidableEq, Repr

end Sys2Proof
end

