-- ==== Sys2Proof/Config.lean ====
section
/-! DEFINITION. What an implementation of WXB fixes (R8, R46), as plain data, and the free values: constants with no
body, about which nothing can be proved. -/

namespace Sys2Proof

/-- Which LZS_STOP_PRED the implementation has (R8, D22): the default of R106, or some other predicate (log 6). -/
inductive StopPred where
  /-- The default `t[15:12] = 1` (R106, R183). -/
  | lenFieldIsOne
  /-- Any other predicate: the `n`-th of an unknown family, `Config.otherStopPred n`. -/
  | other (n : Nat)
deriving DecidableEq, Repr

/-- Which scaler kernel the implementation has (R8, D25): the default of R228 or R229, or some other one (log 7). -/
inductive Kernel where
  /-- The published rule: R228 for SCL.2X, R229 for SCL.2X3. -/
  | published
  /-- Any other kernel that R225 allows: the `n`-th of an unknown family. -/
  | other (n : Nat)
deriving DecidableEq, Repr

/-- A sub-pixel is the source pixel or one of its four direct neighbours (R225, item 2). -/
inductive Pick where
  | e
  | b
  | d
  | f
  | h
deriving DecidableEq, Repr, Inhabited

/-- The parameters of the step relation (R46). No transition changes them. -/
structure Platform where
  /-- MEM_BYTES, the size of buffer memory in bytes (R8, R34). -/
  memBytes : Nat
  /-- LZS_STOP_PRED. -/
  stopPred : StopPred
  /-- SCL_K2X. -/
  k2x : Kernel
  /-- SCL_K2X3. -/
  k2x3 : Kernel
deriving DecidableEq, Repr

/-- MEM_BYTES lies in its domain: 1 to 2^32 (R8, D10). -/
def Platform.wf (p : Platform) : Bool := decide (1 ≤ p.memBytes) && decide (p.memBytes ≤ 2 ^ 32)

/-- DESIGN CHOICE (log 5): the parameters `State.reset` holds: MEM_BYTES as the programs of spec/95_test_vectors.md
section 8 take it, and the defaults of R8 for the others. -/
def Platform.default : Platform :=
  { memBytes := 0x100000, stopPred := .lenFieldIsOne, k2x := .published, k2x3 := .published }

namespace Config

/-- Free value: an LZS_STOP_PRED other than the default (D22: "any predicate on a 16-bit token"; log 6). -/
opaque otherStopPred : Nat → Half → Bool

/-- Free value: which pixel a kernel other than the published one gives sub-pixel `j` of SCL.2X (R225; log 7). -/
opaque otherK2x : Nat → Nbhd → Nat → Pick

/-- Free value: which pixel a kernel other than the published one gives sub-pixel `j` of SCL.2X3 (R225; log 7). -/
opaque otherK2x3 : Nat → Nbhd → Nat → Pick

/-- Free value: the unspecified contents of the Huffman table RAM after the `n`-th reset (R48, U1; log 12). -/
opaque unspecTbl : Nat → Vector Node 255

/-- Free value: the unspecified contents of the palette RAM after the `n`-th reset (R48, U2; log 12). -/
opaque unspecPal : Nat → Vector Rgb 256

/-- Free value: the byte that buffer memory holds at an address nothing has written since the `n`-th hardware reset
(R48, U3; log 9). -/
opaque unspecByte : Nat → Nat → Byte

end Config

end Sys2Proof
end

