-- ==== Sys2Proof/Syntax.lean ====
section
/-! DEFINITION. The instructions of WXB: the ten command words of R92 and the soft reset of R96, one constructor
per row of spec/opcode_table.json. -/

namespace Sys2Proof

/-- The instructions (R92, R96). A BPP operand is the plain number of the three bits 10:8 of the word (R90), so
that a term can hold an illegal one: `Instr.wf` is the check. -/
inductive Instr where
  /-- HUF.LDT, load the Huffman table (R160). -/
  | hufLdt
  /-- HUF.EXP, Huffman expand (R161, R162). -/
  | hufExp
  /-- LZS.DEC, LZSS decode; `stopv` is bit 17 of the word (R180, R183). -/
  | lzsDec (stopv : Bool)
  /-- BPC.LDP, load the palette (R200). -/
  | bpcLdp
  /-- BPC.RGB24, planar chunk to RGB24 (R202). -/
  | bpcRgb24
  /-- BPC.RGB32, planar chunk to RGB32 (R203). -/
  | bpcRgb32
  /-- SCL.2X, scale by 2 and 2 (R222). -/
  | scl2x (bpp : BitVec 3)
  /-- SCL.2X3, scale by 2 and 3 (R223). -/
  | scl2x3 (bpp : BitVec 3)
  /-- RLE.LINE, encode one scanline (R253). -/
  | rleLine (bpp : BitVec 3)
  /-- RLE.IMG, encode HEIGHT scanlines; `topdown` is bit 16 of the word (R254). -/
  | rleImg (bpp : BitVec 3) (topdown : Bool)
  /-- SRST, a write of a value with bit 0 set to CTRL; `ign` is bits 31:1 of the value, which are ignored (R26, R96). -/
  | srst (ign : BitVec 31)
deriving DecidableEq, Repr

end Sys2Proof
end

