-- ==== Sys2Proof/WellFormed.lean ====
section
/-! DEFINITION. Which instruction terms are legal: the BPP sets of R91. -/

namespace Sys2Proof

/-- The BPP values the scaler takes: 1, 2 or 4 (R91, R220). -/
def sclBpps : List (BitVec 3) := [1#3, 2#3, 4#3]

/-- The BPP values the RLE encoder takes: 1, 3 or 4 (R91, R250). -/
def rleBpps : List (BitVec 3) := [1#3, 3#3, 4#3]

/-- A term is well-formed when its fields have values R91 lists for its opcode. -/
def Instr.wf : Instr → Bool
  | .hufLdt | .hufExp | .lzsDec _ | .bpcLdp | .bpcRgb24 | .bpcRgb32 | .srst _ => true
  | .scl2x bpp => sclBpps.contains bpp
  | .scl2x3 bpp => sclBpps.contains bpp
  | .rleLine bpp => rleBpps.contains bpp
  | .rleImg bpp _ => rleBpps.contains bpp

end Sys2Proof
end

