-- ==== Sys2Proof/Decode.lean ====
section
/-! DEFINITION. Decoding of a control-port write to an instruction, total and rejecting by name (R90 to R96, R131),
the encoder written from the same tables, and the reading of a word of spec/opcode_table.json. -/

namespace Sys2Proof

/-- The byte offset of register CMD (R21). -/
def cmdOffset : Nat := 0x04

/-- The byte offset of register CTRL (R21). -/
def ctrlOffset : Nat := 0x34

/-- Why a control-port write is no instruction. -/
inductive DecodeError where
  /-- The offset is neither CMD nor CTRL: the write launches nothing and resets nothing (R131). -/
  | otherRegister
  /-- A write to CTRL with bit 0 clear: nothing happens (R145). -/
  | resetBitClear
  /-- A command word with a bit of 15:11 or 31:18 set (R94). -/
  | zeroBitSet
  /-- A command word whose OPC is none of the ten of R92 (R94). -/
  | unknownOpcode
  /-- A command word whose BPP is not legal for its OPC (R91, R94). -/
  | illegalBpp
  /-- A command word with TOPDOWN set on an opcode other than RLE.IMG (R91, R94). -/
  | illegalTopdown
  /-- A command word with STOPV set on an opcode other than LZS.DEC (R91, R94). -/
  | illegalStopv
deriving DecidableEq, Repr

/-- OPC, bits 7:0 of a command word (R90). -/
def opcOf (v : Word) : Byte := v.extractLsb' 0 8

/-- BPP, bits 10:8 (R90). -/
def bppOf (v : Word) : BitVec 3 := v.extractLsb' 8 3

/-- TOPDOWN, bit 16 (R90). -/
def topdownOf (v : Word) : Bool := v.getLsbD 16

/-- STOPV, bit 17 (R90). -/
def stopvOf (v : Word) : Bool := v.getLsbD 17

/-- The two fields 15:11 and 31:18 that must be 0 (R90) are 0. -/
def zeroFieldsClear (v : Word) : Bool := v.extractLsb' 11 5 == 0#5 && v.extractLsb' 18 14 == 0#14

/-- One row of R91: the word's BPP is one of `bpps`, and a mode bit is set only where the row allows it. -/
def legalRow (v : Word) (bpps : List (BitVec 3)) (topdownOk stopvOk : Bool) (i : Instr) : Except DecodeError Instr :=
  if !bpps.contains (bppOf v) then .error .illegalBpp
  else if topdownOf v && !topdownOk then .error .illegalTopdown
  else if stopvOf v && !stopvOk then .error .illegalStopv
  else .ok i

/-- The command a 32-bit word stands for, or why it is illegal (R91, R92, R94, R95). -/
def decodeCmd (v : Word) : Except DecodeError Instr :=
  if !zeroFieldsClear v then .error .zeroBitSet
  else match (opcOf v).toNat with
    | 0x10 => legalRow v [0#3] false false .hufLdt
    | 0x11 => legalRow v [0#3] false false .hufExp
    | 0x20 => legalRow v [0#3] false true (.lzsDec (stopvOf v))
    | 0x30 => legalRow v [0#3] false false .bpcLdp
    | 0x31 => legalRow v [0#3] false false .bpcRgb24
    | 0x32 => legalRow v [0#3] false false .bpcRgb32
    | 0x40 => legalRow v sclBpps false false (.scl2x (bppOf v))
    | 0x41 => legalRow v sclBpps false false (.scl2x3 (bppOf v))
    | 0x50 => legalRow v rleBpps false false (.rleLine (bppOf v))
    | 0x51 => legalRow v rleBpps true false (.rleImg (bppOf v) (topdownOf v))
    | _ => .error .unknownOpcode

/-- The instruction a control-port write of `v` at byte offset `o` is: a command word at CMD, the soft reset at CTRL
with bit 0 set, none elsewhere (R96, R131, R145). -/
def decode (o : Nat) (v : Word) : Except DecodeError Instr :=
  if o = cmdOffset then decodeCmd v
  else if o = ctrlOffset then
    if v.getLsbD 0 then .ok (.srst (v.extractLsb' 1 31)) else .error .resetBitClear
  else .error .otherRegister

/-- A command word put together from its fields (R90). -/
def commandWord (opc : Byte) (bpp : BitVec 3) (topdown stopv : Bool) : Word :=
  0#14 ++ BitVec.ofBool stopv ++ BitVec.ofBool topdown ++ 0#5 ++ bpp ++ opc

/-- The 32-bit value that stands for an instruction: the command word (R90, R92), or for SRST the value written to
CTRL (R96). -/
def Instr.word : Instr → Word
  | .hufLdt => commandWord 0x10#8 0#3 false false
  | .hufExp => commandWord 0x11#8 0#3 false false
  | .lzsDec stopv => commandWord 0x20#8 0#3 false stopv
  | .bpcLdp => commandWord 0x30#8 0#3 false false
  | .bpcRgb24 => commandWord 0x31#8 0#3 false false
  | .bpcRgb32 => commandWord 0x32#8 0#3 false false
  | .scl2x bpp => commandWord 0x40#8 bpp false false
  | .scl2x3 bpp => commandWord 0x41#8 bpp false false
  | .rleLine bpp => commandWord 0x50#8 bpp false false
  | .rleImg bpp topdown => commandWord 0x51#8 bpp topdown false
  | .srst ign => ign ++ 1#1

/-- The register an instruction is written to: CMD for a command, CTRL for the soft reset (R96, R131). -/
def Instr.offset : Instr → Nat
  | .hufLdt | .hufExp | .lzsDec _ | .bpcLdp | .bpcRgb24 | .bpcRgb32 => cmdOffset
  | .scl2x _ | .scl2x3 _ | .rleLine _ | .rleImg _ _ => cmdOffset
  | .srst _ => ctrlOffset

/-- The control-port write that is the instruction: the pair (offset, value) of R120. -/
def encode (i : Instr) : Nat × Word := (i.offset, i.word)

/-- A row of spec/opcode_table.json: a value belongs to the row when it agrees with `pattern` on the bits of `mask`. -/
structure Row where
  pattern : Word
  mask : Word
deriving DecidableEq, Repr

/-- The value agrees with the row's pattern on the row's mask (R95). -/
def Row.admits (r : Row) (v : Word) : Bool := v &&& r.mask == r.pattern

/-- The row of an instruction in spec/opcode_table.json. -/
def Instr.row : Instr → Row
  | .hufLdt => ⟨0x00000010#32, 0xFFFFFFFF#32⟩
  | .hufExp => ⟨0x00000011#32, 0xFFFFFFFF#32⟩
  | .lzsDec _ => ⟨0x00000020#32, 0xFFFDFFFF#32⟩
  | .bpcLdp => ⟨0x00000030#32, 0xFFFFFFFF#32⟩
  | .bpcRgb24 => ⟨0x00000031#32, 0xFFFFFFFF#32⟩
  | .bpcRgb32 => ⟨0x00000032#32, 0xFFFFFFFF#32⟩
  | .scl2x _ => ⟨0x00000040#32, 0xFFFFF8FF#32⟩
  | .scl2x3 _ => ⟨0x00000041#32, 0xFFFFF8FF#32⟩
  | .rleLine _ => ⟨0x00000050#32, 0xFFFFF8FF#32⟩
  | .rleImg _ _ => ⟨0x00000051#32, 0xFFFEF8FF#32⟩
  | .srst _ => ⟨0x00000001#32, 0x00000001#32⟩

/-- The ten rows of format "cmd" of spec/opcode_table.json. -/
def commandRows : List Row :=
  [Instr.row .hufLdt, Instr.row .hufExp, Instr.row (.lzsDec false), Instr.row .bpcLdp, Instr.row .bpcRgb24,
   Instr.row .bpcRgb32, Instr.row (.scl2x 0#3), Instr.row (.scl2x3 0#3), Instr.row (.rleLine 0#3),
   Instr.row (.rleImg 0#3 false)]

/-- DESIGN CHOICE (log 2). The table gives a value and not the register it is written to. The value is taken as
written to CMD if one of the ten command rows admits it, else to CTRL if the soft-reset row does, else to CMD. -/
def tableOffset (v : Word) : Nat :=
  if commandRows.any (fun r => r.admits v) then cmdOffset
  else if (Instr.row (.srst 0#31)).admits v then ctrlOffset
  else cmdOffset

/-- The value whose low `nbits` bits are those of `w`, every higher bit 0. -/
def tableValue (nbits w : Nat) : Word := BitVec.ofNat 32 (w % 2 ^ nbits)

/-- The instruction the decoder reads from a value of spec/opcode_table.json; none where it refuses. -/
def decodeTableWord (nbits w : Nat) : Option Instr :=
  let v := tableValue nbits w
  (decode (tableOffset v) v).toOption

end Sys2Proof
end

