-- ==== Sys2Proof/Machine/State.lean ====
section
/-! DEFINITION. The state of WXB as plain data (R20 to R48), the reasons a step can stop, and the state after
reset. -/

namespace Sys2Proof.Machine

/-- The cause codes of register CAUSE (R301). Codes 9 to 255 are never produced, so there is no constructor for
them. -/
inductive Cause where
  | none
  | illegalCmd
  | badParam
  | badRegion
  | notLoaded
  | srcOverrun
  | dstOverrun
  | tableIndex
  | windowUnderrun
deriving DecidableEq, Repr

/-- The nine operand registers x[0] to x[8] (R22); WIDTH and HEIGHT keep 16 bits. -/
structure Operands where
  srcBase : Word
  srcLen : Word
  dstBase : Word
  dstCap : Word
  outLen : Word
  width : Half
  height : Half
  srcStride : Word
  dstStride : Word
deriving DecidableEq, Repr

/-- The hidden state of HUF.EXP (R41). -/
structure HufState where
  node : Fin 255
  bitcnt : BitVec 35
  remaining : Word
deriving DecidableEq, Repr

/-- The hidden state of LZS.DEC (R42). -/
structure LzsState where
  bucket : BitVec 9
  srcpos : Word
  remaining : Word
  stop : Bool
deriving DecidableEq, Repr

/-- The hidden state of RLE.LINE and RLE.IMG (R45). RLE.LINE's `row` is 0 at every work step and 1 once its row is
finished (R142, R252; log 25). -/
structure RleState where
  row : Half
  p : Half
  outpos : Word
deriving DecidableEq, Repr

/-- The operation in progress: the decoded command word (`op` of R40, opcode and mode fields) with the hidden state
of its command (R41 to R45). For the two table loads the hidden state is whether the one work step has been taken
(R142). -/
inductive Operation where
  | hufLdt (loaded : Bool)
  | hufExp (h : HufState)
  | lzsDec (stopv : Bool) (h : LzsState)
  | bpcLdp (loaded : Bool)
  | bpcRgb24 (i : Word)
  | bpcRgb32 (i : Word)
  | scl2x (bpp : BitVec 3) (k : Word)
  | scl2x3 (bpp : BitVec 3) (k : Word)
  | rleLine (bpp : BitVec 3) (h : RleState)
  | rleImg (bpp : BitVec 3) (topdown : Bool) (h : RleState)
deriving DecidableEq, Repr

/-- One thing the host or the platform does between two engine steps (R9, R130, R131, R47, R340), or the host's
leaving the engine to step. DESIGN CHOICE (log 1). -/
inductive Access where
  /-- A control-port read at a byte offset (R130). -/
  | read (offset : Nat)
  /-- A control-port write of a 32-bit value at a byte offset (R131). -/
  | write (offset : Nat) (value : Word)
  /-- A memory-port read of `n` bytes from an address up (R34, R47). -/
  | memRead (addr n : Nat)
  /-- A memory-port write of bytes from an address up (R34, R47). -/
  | memWrite (addr : Nat) (bytes : List Byte)
  /-- The platform asserts the hardware reset input (R340). -/
  | hardReset
  /-- The host does nothing: the engine may take one step (R140). -/
  | pass
deriving DecidableEq, Repr

/-- Buffer memory: the bytes written since hardware reset, addresses strictly rising. An address that is not listed
has no value that a rule names (R71; log 8, log 9). -/
abbrev Memory := List Host.Cell

/-- The state of the block (R20), the parameters of its step relation (R46) and the model's own fields, each named
as such. -/
structure State where
  /-- CMD, the last accepted command word (R23). -/
  cmd : Word
  /-- STATUS.DONE (R24). -/
  done : Bool
  /-- STATUS.FAULT (R24). -/
  fault : Bool
  /-- STATUS.OVR (R24). -/
  ovr : Bool
  /-- STATUS.TBL_VALID (R24). -/
  tblValid : Bool
  /-- STATUS.PAL_VALID (R24). -/
  palValid : Bool
  /-- STATUS.EARLY (R24). -/
  early : Bool
  /-- IE.IE_DONE (R25). -/
  ieDone : Bool
  /-- IE.IE_FAULT (R25). -/
  ieFault : Bool
  /-- The operand registers (R22). -/
  x : Operands
  /-- CAUSE (R28, R301). -/
  cause : Cause
  /-- FINFO (R28, R306). -/
  finfo : Word
  /-- SRC_POS (R28). -/
  srcPos : Word
  /-- OUT_CNT (R28). -/
  outCnt : Word
  /-- The Huffman table RAM (R32). -/
  tbl : Vector Node 255
  /-- The palette RAM (R33). -/
  pal : Vector Rgb 256
  /-- The operation in progress with its hidden state (R40); present exactly while STATUS.BUSY is 1 (log 4). -/
  engine : Option Operation
  /-- Buffer memory (R34). -/
  mem : Memory
  /-- The parameters of the step relation (R46); no transition changes them (log 5). -/
  platform : Platform
  /-- MODEL's own: what the host does next, oldest first (log 1). -/
  inbox : List Access
  /-- MODEL's own: the value the last control-port read answered (log 14). -/
  portOut : Word
  /-- MODEL's own: the bytes the last memory-port read answered (log 14). -/
  memOut : List Byte
  /-- MODEL's own: which unspecified table and palette contents are the present ones (log 12). -/
  ramEpoch : Nat
  /-- MODEL's own: which unspecified buffer-memory contents are the present ones (log 9). -/
  memEpoch : Nat
deriving DecidableEq, Repr

/-- Why the model stops. None of these is a fault of the hardware: hardware faults are next states (R304). -/
inductive Fault where
  /-- An engine step reads a byte of buffer memory that nothing has written since hardware reset. Raised by every work
  step that reads memory. Safe: the hardware goes on with some value (R71, D35; log 8). -/
  | unwrittenRead (addr : Nat)
  /-- An access to an address at or above MEM_BYTES, which does not exist (R61, R62, R63). Raised by a host access to
  memory; the launch checks keep an operation from it (R139). Safe (log 10). -/
  | noSuchAddress (addr : Nat)
  /-- The host writes a byte of a region of the running operation, after which the spec gives the operation's result no
  meaning (R352, U5). Raised by the memory port. Safe (log 11). -/
  | liveRegionWrite (addr : Nat)
deriving DecidableEq, Repr

/-- Why the model refuses an instruction. -/
inductive Refusal where
  /-- The instruction has no meaning in the model yet. Raised by an arm of `exec` only. Safe. -/
  | notModelled (mnemonic : String)
deriving DecidableEq, Repr

/-- The operand registers after reset (R48). -/
def Operands.reset : Operands :=
  { srcBase := 0, srcLen := 0, dstBase := 0, dstCap := 0, outLen := 0, width := 0, height := 0, srcStride := 0,
    dstStride := 0 }

/-- The machine right after hardware reset (R48, R341): every register 0, idle, no table, no palette; the table
memories hold unspecified contents (log 12); nothing is written in buffer memory. The last six fields are the
parameters (log 5) and the model's own (log 1, log 9, log 12, log 14). -/
def State.reset : State :=
  { cmd := 0, done := false, fault := false, ovr := false, tblValid := false, palValid := false, early := false,
    ieDone := false, ieFault := false, x := Operands.reset, cause := .none, finfo := 0, srcPos := 0, outCnt := 0,
    tbl := Config.unspecTbl 0, pal := Config.unspecPal 0, engine := none, mem := [],
    platform := Platform.default, inbox := [], portOut := 0, memOut := [], ramEpoch := 0, memEpoch := 0 }

end Sys2Proof.Machine
end

