-- ==== Sys2Proof/Machine/Flags.lean ====
section
/-! DEFINITION. The flags: the STATUS and IE words, write-one-to-clear, and the irq line (R24, R25, R31, R35, R143). -/

namespace Sys2Proof.Machine

/-- STATUS.BUSY: an operation is in progress (R24, R40; log 4). -/
def State.busy (s : State) : Bool := s.engine.isSome

/-- The value a read of STATUS returns: BUSY 0, DONE 1, FAULT 2, OVR 3, TBL_VALID 4, PAL_VALID 5, EARLY 6, the other
bits 0 (R24). -/
def State.statusWord (s : State) : Word :=
  0#25 ++ BitVec.ofBool s.early ++ BitVec.ofBool s.palValid ++ BitVec.ofBool s.tblValid ++ BitVec.ofBool s.ovr ++
    BitVec.ofBool s.fault ++ BitVec.ofBool s.done ++ BitVec.ofBool s.busy

/-- The value a read of IE returns: IE_DONE 0, IE_FAULT 1, the other bits 0 (R25). -/
def State.ieWord (s : State) : Word := 0#30 ++ BitVec.ofBool s.ieFault ++ BitVec.ofBool s.ieDone

/-- The code of a cause (R301). -/
def Cause.code : Cause → Byte
  | .none => 0
  | .illegalCmd => 1
  | .badParam => 2
  | .badRegion => 3
  | .notLoaded => 4
  | .srcOverrun => 5
  | .dstOverrun => 6
  | .tableIndex => 7
  | .windowUnderrun => 8

/-- The value a read of CAUSE returns: the code in bits 7:0, bits 31:8 zero (R28). -/
def State.causeWord (s : State) : Word := s.cause.code.setWidth 32

/-- The irq output (R35, R309). -/
def State.irq (s : State) : Bool := (s.done && s.ieDone) || (s.fault && s.ieFault)

/-- A host write of `v` to STATUS clears DONE, FAULT and OVR where bits 1, 2 and 3 of `v` are 1, and nothing else
(R143). Clearing FAULT is how the faulted state is left (R310). -/
def writeStatus (v : Word) (s : State) : State :=
  { s with
    done := s.done && !v.getLsbD 1
    fault := s.fault && !v.getLsbD 2
    ovr := s.ovr && !v.getLsbD 3 }

/-- A host write of `v` to IE (R144). -/
def writeIe (v : Word) (s : State) : State := { s with ieDone := v.getLsbD 0, ieFault := v.getLsbD 1 }

end Sys2Proof.Machine
end

