-- ==== Sys2Proof/Machine/Operands.lean ====
section
/-! DEFINITION. The operand registers by index (R22), the regions they name (R64) and the pixel sizes (R90, R112). -/

namespace Sys2Proof.Machine

/-- The operand registers x[0] to x[8] by their names (R22). -/
inductive OperandReg where
  | srcBase
  | srcLen
  | dstBase
  | dstCap
  | outLen
  | width
  | height
  | srcStride
  | dstStride
deriving DecidableEq, Repr

/-- The index of an operand register (R22); FINFO of BAD_PARAM holds it (R306). -/
def OperandReg.index : OperandReg → Nat
  | .srcBase => 0
  | .srcLen => 1
  | .dstBase => 2
  | .dstCap => 3
  | .outLen => 4
  | .width => 5
  | .height => 6
  | .srcStride => 7
  | .dstStride => 8

/-- The value a host read of an operand register returns: bits 31:16 of WIDTH and HEIGHT read as 0 (R22). -/
def Operands.get (x : Operands) : OperandReg → Word
  | .srcBase => x.srcBase
  | .srcLen => x.srcLen
  | .dstBase => x.dstBase
  | .dstCap => x.dstCap
  | .outLen => x.outLen
  | .width => x.width.setWidth 32
  | .height => x.height.setWidth 32
  | .srcStride => x.srcStride
  | .dstStride => x.dstStride

/-- `x[j] <- v`; WIDTH and HEIGHT keep `v[15:0]` only (R146). -/
def Operands.set (x : Operands) (v : Word) : OperandReg → Operands
  | .srcBase => { x with srcBase := v }
  | .srcLen => { x with srcLen := v }
  | .dstBase => { x with dstBase := v }
  | .dstCap => { x with dstCap := v }
  | .outLen => { x with outLen := v }
  | .width => { x with width := v.setWidth 16 }
  | .height => { x with height := v.setWidth 16 }
  | .srcStride => { x with srcStride := v }
  | .dstStride => { x with dstStride := v }

/-- Address `a` lies in the source region (R64). -/
def Operands.inSrc (x : Operands) (a : Nat) : Bool :=
  decide (x.srcBase.toNat ≤ a) && decide (a < x.srcBase.toNat + x.srcLen.toNat)

/-- Address `a` lies in the destination region (R64). -/
def Operands.inDst (x : Operands) (a : Nat) : Bool :=
  decide (x.dstBase.toNat ≤ a) && decide (a < x.dstBase.toNat + x.dstCap.toNat)

/-- The decoded command word of an operation (`op` of R40). -/
def Operation.instr : Operation → Instr
  | .hufLdt _ => .hufLdt
  | .hufExp _ => .hufExp
  | .lzsDec stopv _ => .lzsDec stopv
  | .bpcLdp _ => .bpcLdp
  | .bpcRgb24 _ => .bpcRgb24
  | .bpcRgb32 _ => .bpcRgb32
  | .scl2x bpp _ => .scl2x bpp
  | .scl2x3 bpp _ => .scl2x3 bpp
  | .rleLine bpp _ => .rleLine bpp
  | .rleImg bpp topdown _ => .rleImg bpp topdown

/-- The command uses the destination region: all but the two table loads (R137). -/
def usesDst : Instr → Bool
  | .hufLdt | .bpcLdp | .srst _ => false
  | .hufExp | .lzsDec _ | .bpcRgb24 | .bpcRgb32 | .scl2x _ | .scl2x3 _ | .rleLine _ | .rleImg _ _ => true

/-- A 16-bit item stored low byte first (R65, R100, R105). -/
def le16 (lo hi : Byte) : Half := hi ++ lo

end Sys2Proof.Machine
end

