-- ==== Sys2Proof/Machine/Ops.lean ====
section
/-! DEFINITION. The shared operations: buffer memory (R62, R63), the inbox, fault entry (R304) and its
acknowledgement (R310), completion (R142), the acceptance and launch of a command (R132, R133), the engine step
(R140) and the soft reset (R340, R341). -/

namespace Sys2Proof.Machine

/-! ### Buffer memory -/

/-- The byte at an address, if something has written it since hardware reset. -/
def Memory.read : Memory → Nat → Option Byte
  | [], _ => none
  | (a', b) :: m, a => if a = a' then some b else Memory.read m a

/-- Store one byte, keeping the addresses rising. -/
def Memory.write : Memory → Nat → Byte → Memory
  | [], a, b => [(a, b)]
  | (a', b') :: m, a, b =>
    if a < a' then (a, b) :: (a', b') :: m
    else if a = a' then (a, b) :: m
    else (a', b') :: Memory.write m a b

/-- Store a list of bytes at an address, the next address, and so on, in ascending order (R63). -/
def Memory.writeAll (m : Memory) (a : Nat) : List Byte → Memory
  | [] => m
  | b :: bs => Memory.writeAll (m.write a b) (a + 1) bs

/-- The canonical form: addresses strictly rising (no entry repeats an address; an unlisted address has no value, so
no entry is redundant). -/
def Memory.wf : Memory → Bool
  | [] => true
  | [_] => true
  | (a, _) :: (a', b') :: m => decide (a < a') && Memory.wf ((a', b') :: m)

/-- The `n` bytes from `a` up, in ascending order; stops at the first byte nothing has written (R71; log 8). -/
def Memory.readAll (m : Memory) (a : Nat) : Nat → Except Fault (List Byte)
  | 0 => .ok []
  | n + 1 =>
    match m.read a with
    | none => .error (.unwrittenRead a)
    | some b =>
      match Memory.readAll m (a + 1) n with
      | .error f => .error f
      | .ok bs => .ok (b :: bs)

/-- `MemRead(a, n)`: defined when `a + n ≤ MEM_BYTES` (R62). -/
def memRead (s : State) (a n : Nat) : Except Fault (List Byte) :=
  if a + n ≤ s.platform.memBytes then s.mem.readAll a n else .error (.noSuchAddress (max a s.platform.memBytes))

/-- `MemRead(a, 1)` as one byte (R12). -/
def byteRead (s : State) (a : Nat) : Except Fault Byte :=
  if a < s.platform.memBytes then
    match s.mem.read a with
    | some b => .ok b
    | none => .error (.unwrittenRead a)
  else .error (.noSuchAddress a)

/-- `MemWrite(a, n, v)`: defined when `a + n ≤ MEM_BYTES` (R63). -/
def memWrite (s : State) (a : Nat) (bs : List Byte) : Except Fault State :=
  if a + bs.length ≤ s.platform.memBytes then .ok { s with mem := s.mem.writeAll a bs }
  else .error (.noSuchAddress (max a s.platform.memBytes))

/-- `SRC(i)`: byte `i` of the source region (R12). -/
def srcByte (s : State) (i : Nat) : Except Fault Byte := byteRead s (s.x.srcBase.toNat + i)

/-- `DST(i) <- b0, DST(i+1) <- b1, …`: bytes of the destination region from `i` up (R12). -/
def dstWrite (s : State) (i : Nat) (bs : List Byte) : Except Fault State := memWrite s (s.x.dstBase.toNat + i) bs

/-! ### The inbox -/

/-- The next thing the host does is a control-port write: a command that runs now is being written by the host. Else
it is the engine's turn (log 1, log 3). -/
def State.hostTurn (s : State) : Bool :=
  match s.inbox with
  | .write _ _ :: _ => true
  | _ => false

/-- The head of the inbox has acted. -/
def State.pop (s : State) : State := { s with inbox := s.inbox.tail }

/-! ### Faults and completion -/

/-- A natural as a 32-bit register value, 0xFFFFFFFF if it does not fit (R138, R304, R306). -/
def clampWord (n : Nat) : Word := BitVec.ofNat 32 (min n 0xFFFFFFFF)

/-- Fault entry with a cause and an information value: BUSY 0, FAULT 1, CAUSE, FINFO, and nothing else (R304). -/
def takeFault (c : Cause) (info : Nat) (s : State) : State :=
  { s with engine := none, fault := true, cause := c, finfo := clampWord info }

/-- Leaving the faulted state, the analogue of trap return: `STATUS.FAULT <- 0` and nothing else (R310). It is the
write of STATUS with bit 2 set and bits 1 and 3 clear. -/
def ackFault (s : State) : State := writeStatus 0x4#32 s

/-- The completing step: BUSY 0, DONE 1 (R142). -/
def complete (s : State) : State := { s with engine := none, done := true }

/-- How a work step ends when the memory it touches is there: it updates the state, or it raises a fault (R140). -/
inductive Work where
  | to (s : State)
  | raise (c : Cause) (info : Nat)
deriving DecidableEq, Repr

/-- One engine step from `s`: the completing step if the done condition holds, else the work step, whose fault has no
effect on `s` but fault entry (R140, R305). -/
def engineStep (isDone : Bool) (work : Except Fault Work) (s : State) : Host.Outcome State Fault Refusal :=
  if isDone then .next (complete s)
  else
    match work with
    | .error f => .fault f
    | .ok (.to s') => .next s'
    | .ok (.raise c info) => .next (takeFault c info s)

/-! ### Launch -/

/-- A cause with its information value. -/
abbrev Raise := Cause × Nat

/-- What an accepted write of `v` to CMD does before the launch checks (R133). -/
def acceptCmd (v : Word) (s : State) : State :=
  { s with cmd := v, done := false, early := false, cause := .none, finfo := 0, srcPos := 0, outCnt := 0 }

/-- A host write of `v` to CMD: dropped with OVR set while BUSY or FAULT is 1 (R132); else accepted, and a launch fault
if a check fails, or the operation `start` with BUSY set (R133). -/
def writeCmd (v : Word) (check : State → Option Raise) (start : State → Operation) (s : State) : State :=
  if s.busy || s.fault then { s with ovr := true }
  else
    match check (acceptCmd v s) with
    | some (c, info) => takeFault c info (acceptCmd v s)
    | none => { acceptCmd v s with engine := some (start (acceptCmd v s)) }

/-- A host write of an illegal word to CMD: dropped like any other (R132), else ILLEGAL_CMD with FINFO the word
(R134). -/
def writeIllegal (v : Word) (s : State) : State :=
  if s.busy || s.fault then { s with ovr := true } else takeFault .illegalCmd v.toNat (acceptCmd v s)

/-- One atomic transition of a command: at the host's turn the host's write of its word to CMD, at the engine's turn
what `engine` does (R132, R133, R140; log 3). -/
def command (v : Word) (check : State → Option Raise) (start : State → Operation)
    (engine : State → Host.Outcome State Fault Refusal) (s : State) : Host.Outcome State Fault Refusal :=
  if s.hostTurn then .next (writeCmd v check start s.pop) else engine s.pop

/-- The engine's turn while the operation in progress is not the one asked for: the engine takes no step of it
(R140). `step` never asks this (log 15). -/
def noStep (s : State) : Host.Outcome State Fault Refusal := .next s

/-! ### Reset -/

/-- Soft reset (R145, R340 to R342): every register takes its reset value, the valid flags are cleared, the table
memories hold unspecified contents again (log 12), an operation in progress is abandoned; buffer memory, the
parameters and the model's own fields stay. -/
def softReset (s : State) : State :=
  { State.reset with
    tbl := Config.unspecTbl (s.ramEpoch + 1), pal := Config.unspecPal (s.ramEpoch + 1), mem := s.mem,
    platform := s.platform, inbox := s.inbox, portOut := s.portOut, memOut := s.memOut,
    ramEpoch := s.ramEpoch + 1, memEpoch := s.memEpoch }

/-- Hardware reset: as soft reset, and every byte of buffer memory is unspecified (R341). -/
def hardReset (s : State) : State := { softReset s with mem := [], memEpoch := s.memEpoch + 1 }

end Sys2Proof.Machine
end

