-- ==== Sys2Proof/Machine/Launch.lean ====
section
/-! DEFINITION. The five launch checks, written once from the tables of R134 to R138. -/

namespace Sys2Proof.Machine

/-- The first test of a list that fails gives the fault; a test is (it fails, the fault it gives) (R136, R139). -/
def firstFail : List (Bool × Raise) → Option Raise
  | [] => none
  | (fails, r) :: rest => if fails then some r else firstFail rest

/-- Check 1, legality: an illegal word gives ILLEGAL_CMD with the word as information (R134). -/
def legalCheck (i : Instr) : Option Raise := if i.wf then none else some (.illegalCmd, i.word.toNat)

/-- Check 2, tables (R135). -/
def tableCheck (s : State) : Instr → Option Raise
  | .hufExp => if s.tblValid then none else some (.notLoaded, 0)
  | .bpcRgb24 | .bpcRgb32 => if s.palValid then none else some (.notLoaded, 1)
  | .hufLdt | .lzsDec _ | .bpcLdp | .scl2x _ | .scl2x3 _ | .rleLine _ | .rleImg _ _ | .srst _ => none

/-- The operand ranges of BPC.RGB24 and BPC.RGB32 (R136). -/
def bpcParams (x : Operands) : Option Raise :=
  firstFail [
    (decide (x.width.toNat < 4) || decide (x.width.toNat % 4 ≠ 0), .badParam, OperandReg.width.index),
    (decide (x.height.toNat < 1), .badParam, OperandReg.height.index)]

/-- The operand ranges of SCL.2X and SCL.2X3 (R136). -/
def sclParams (x : Operands) (bpp : BitVec 3) : Option Raise :=
  firstFail [
    (decide (x.width.toNat < 2), .badParam, OperandReg.width.index),
    (decide (x.height.toNat < 2), .badParam, OperandReg.height.index),
    (decide (x.srcStride.toNat < x.width.toNat * bpp.toNat), .badParam, OperandReg.srcStride.index),
    (decide (x.dstStride.toNat < 2 * x.width.toNat * bpp.toNat), .badParam, OperandReg.dstStride.index)]

/-- Check 3, operand ranges (R136). -/
def paramCheck (x : Operands) : Instr → Option Raise
  | .bpcRgb24 | .bpcRgb32 => bpcParams x
  | .scl2x bpp | .scl2x3 bpp => sclParams x bpp
  | .hufLdt | .hufExp | .lzsDec _ | .bpcLdp | .rleLine _ | .rleImg _ _ | .srst _ => none

/-- The two regions overlap: neither is empty, and each begins before the other ends (R137 c). -/
def overlap (x : Operands) : Bool :=
  decide (0 < x.srcLen.toNat) && decide (0 < x.dstCap.toNat) &&
    decide (x.srcBase.toNat < x.dstBase.toNat + x.dstCap.toNat) &&
    decide (x.dstBase.toNat < x.srcBase.toNat + x.srcLen.toNat)

/-- Check 4, regions: tests (a), (b), (c) in this order; test (a) alone for a command that uses the source region
only (R137). The sums are over the naturals. -/
def regionCheck (memBytes : Nat) (x : Operands) (i : Instr) : Option Raise :=
  firstFail [
    (decide (memBytes < x.srcBase.toNat + x.srcLen.toNat), .badRegion, 0),
    (usesDst i && decide (memBytes < x.dstBase.toNat + x.dstCap.toNat), .badRegion, 1),
    (usesDst i && overlap x, .badRegion, 2)]

/-- need_src of R138; none where there is no need at launch. -/
def needSrc (x : Operands) : Instr → Option Nat
  | .hufLdt => some 1020
  | .bpcLdp => some 768
  | .bpcRgb24 | .bpcRgb32 => some (x.width.toNat * x.height.toNat)
  | .scl2x bpp | .scl2x3 bpp =>
    some ((x.height.toNat - 1) * x.srcStride.toNat + x.width.toNat * bpp.toNat)
  | .rleLine bpp => some (x.width.toNat * bpp.toNat)
  | .rleImg bpp _ => some (x.width.toNat * x.height.toNat * bpp.toNat)
  | .hufExp | .lzsDec _ | .srst _ => none

/-- need_dst of R138; none where there is no need at launch. -/
def needDst (x : Operands) : Instr → Option Nat
  | .hufExp | .lzsDec _ => some x.outLen.toNat
  | .bpcRgb24 => some (x.width.toNat * x.height.toNat * 3)
  | .bpcRgb32 => some (x.width.toNat * x.height.toNat * 4)
  | .scl2x bpp => some ((2 * x.height.toNat - 1) * x.dstStride.toNat + 2 * x.width.toNat * bpp.toNat)
  | .scl2x3 bpp => some ((3 * x.height.toNat - 1) * x.dstStride.toNat + 2 * x.width.toNat * bpp.toNat)
  | .hufLdt | .bpcLdp | .rleLine _ | .rleImg _ _ | .srst _ => none

/-- A need that exceeds a length gives the cause with the need as information (R138). -/
def overrun (need : Option Nat) (len : Nat) (c : Cause) : Option Raise :=
  match need with
  | none => none
  | some n => if len < n then some (c, n) else none

/-- Check 5, fixed needs: the source before the destination (R138). -/
def needCheck (x : Operands) (i : Instr) : Option Raise :=
  (overrun (needSrc x i) x.srcLen.toNat .srcOverrun).or (overrun (needDst x i) x.dstCap.toNat .dstOverrun)

/-- The five launch checks in the order 1 to 5; the first failure is the one reported (R133, R139, R307). -/
def launchCheck (i : Instr) (s : State) : Option Raise :=
  (legalCheck i).or <| (tableCheck s i).or <| (paramCheck s.x i).or <|
    (regionCheck s.platform.memBytes s.x i).or (needCheck s.x i)

end Sys2Proof.Machine
end

