-- ==== Sys2Proof/Machine/Bpc.lean ====
section
/-! DEFINITION. Unit BPC: BPC.LDP, BPC.RGB24 and BPC.RGB32 (R200 to R204). -/

namespace Sys2Proof.Machine

/-- The 256 entries of a palette image: entry c at bytes 3c, 3c+1, 3c+2 (R108). -/
def imagePalette (img : List Byte) : Vector Rgb 256 :=
  Vector.ofFn fun c =>
    { r := img.getD (3 * c.val) 0, g := img.getD (3 * c.val + 1) 0, b := img.getD (3 * c.val + 2) 0 }

/-- BPC.LDP's one work step: the whole image into the palette RAM (R200). -/
def bpcLoadWork (s : State) : Except Fault Work :=
  match memRead s s.x.srcBase.toNat 768 with
  | .error f => .error f
  | .ok img =>
    .ok (.to { s with
      pal := imagePalette img, palValid := true, srcPos := 768, outCnt := 0, engine := some (.bpcLdp true) })

/-- BPC.LDP's engine step: done when the one work step has been taken (R142, R200). -/
def bpcLoadStep (s : State) : Host.Outcome State Fault Refusal :=
  match s.engine with
  | some (.bpcLdp loaded) => engineStep loaded (bpcLoadWork s) s
  | _ => noStep s

/-- BPC.LDP (R200). -/
def execBpcLdp (s : State) : Host.Outcome State Fault Refusal :=
  command (Instr.word .bpcLdp) (launchCheck .bpcLdp) (fun _ => .bpcLdp false) bpcLoadStep s

/-- The column of source index `i` in an image of `w` by `h` pixels (R201). -/
def planeX (w h i : Nat) : Nat := i % (w / 4) * 4 + i / (w * h / 4)

/-- The row of source index `i` in an image of `w` by `h` pixels (R201). -/
def planeY (w h i : Nat) : Nat := i / (w / 4) % h

/-- The destination offset of the pixel that source index `i` gives (R77, R202, R203). -/
def planeOffset (w h bpp i : Nat) : Nat := (planeY w h i * w + planeX w h i) * bpp

/-- The palette entry of an 8-bit index; every index is legal (R33, R202). -/
def palEntry (s : State) (c : Byte) : Rgb := s.pal[c.toFin]

/-- The work step of both conversions: source byte `i` through the palette, written as the bytes `pixel` gives; `next`
is the operation after it (R202, R203). -/
def bpcWork (pixel : Rgb → List Byte) (bpp : Nat) (next : Word → Operation) (i : Word) (s : State) :
    Except Fault Work :=
  match srcByte s i.toNat with
  | .error f => .error f
  | .ok c =>
    match dstWrite s (planeOffset s.x.width.toNat s.x.height.toNat bpp i.toNat) (pixel (palEntry s c)) with
    | .error f => .error f
    | .ok s' =>
      .ok (.to { s' with
        srcPos := BitVec.ofNat 32 (i.toNat + 1), outCnt := BitVec.ofNat 32 (bpp * (i.toNat + 1)),
        engine := some (next (BitVec.ofNat 32 (i.toNat + 1))) })

/-- The bytes of an RGB24 pixel: R, G, B (R112, R202). -/
def rgb24Bytes (p : Rgb) : List Byte := [p.r, p.g, p.b]

/-- The bytes of an RGB32 pixel: R, G, B and alpha 255 (R112, R203). -/
def rgb32Bytes (p : Rgb) : List Byte := [p.r, p.g, p.b, 0xFF#8]

/-- The number of pixels of the image: W*H. -/
def pixelCount (x : Operands) : Nat := x.width.toNat * x.height.toNat

/-- BPC.RGB24's engine step: done when i = W*H (R142, R202). -/
def bpcRgb24Step (s : State) : Host.Outcome State Fault Refusal :=
  match s.engine with
  | some (.bpcRgb24 i) => engineStep (i.toNat == pixelCount s.x) (bpcWork rgb24Bytes 3 .bpcRgb24 i s) s
  | _ => noStep s

/-- BPC.RGB24 (R202). -/
def execBpcRgb24 (s : State) : Host.Outcome State Fault Refusal :=
  command (Instr.word .bpcRgb24) (launchCheck .bpcRgb24) (fun _ => .bpcRgb24 0) bpcRgb24Step s

/-- BPC.RGB32's engine step: done when i = W*H (R142, R203). -/
def bpcRgb32Step (s : State) : Host.Outcome State Fault Refusal :=
  match s.engine with
  | some (.bpcRgb32 i) => engineStep (i.toNat == pixelCount s.x) (bpcWork rgb32Bytes 4 .bpcRgb32 i s) s
  | _ => noStep s

/-- BPC.RGB32 (R203). -/
def execBpcRgb32 (s : State) : Host.Outcome State Fault Refusal :=
  command (Instr.word .bpcRgb32) (launchCheck .bpcRgb32) (fun _ => .bpcRgb32 0) bpcRgb32Step s

end Sys2Proof.Machine
end

