-- ==== Sys2Proof/Machine/Huf.lean ====
section
/-! DEFINITION. Unit HUF: HUF.LDT and HUF.EXP (R160 to R165). -/

namespace Sys2Proof.Machine

/-- Node `n` of a table image: `bit0` at bytes 4n and 4n+1, `bit1` at 4n+2 and 4n+3, low byte first (R100). -/
def imageNode (img : List Byte) (n : Nat) : Node :=
  { bit0 := le16 (img.getD (4 * n) 0) (img.getD (4 * n + 1) 0)
    bit1 := le16 (img.getD (4 * n + 2) 0) (img.getD (4 * n + 3) 0) }

/-- The 255 nodes of a table image (R100). -/
def imageTable (img : List Byte) : Vector Node 255 := Vector.ofFn fun n => imageNode img n.val

/-- HUF.LDT's one work step: the whole image into the table RAM (R160). -/
def hufLoadWork (s : State) : Except Fault Work :=
  match memRead s s.x.srcBase.toNat 1020 with
  | .error f => .error f
  | .ok img =>
    .ok (.to { s with
      tbl := imageTable img, tblValid := true, srcPos := 1020, outCnt := 0, engine := some (.hufLdt true) })

/-- HUF.LDT's engine step: done when the one work step has been taken (R142, R160). -/
def hufLoadStep (s : State) : Host.Outcome State Fault Refusal :=
  match s.engine with
  | some (.hufLdt loaded) => engineStep loaded (hufLoadWork s) s
  | _ => noStep s

/-- HUF.LDT (R160). -/
def execHufLdt (s : State) : Host.Outcome State Fault Refusal :=
  command (Instr.word .hufLdt) (launchCheck .hufLdt) (fun _ => .hufLdt false) hufLoadStep s

/-- The entry of a node that a stream bit selects (R103, R162). -/
def followEntry (n : Node) (bit : Bool) : Half := if bit then n.bit1 else n.bit0

/-- The hidden state after a successful HUF.EXP step: one stream bit more consumed (R162). -/
def HufState.advance (h : HufState) (node : Fin 255) (remaining : Word) : HufState :=
  { node := node, bitcnt := BitVec.ofNat 35 (h.bitcnt.toNat + 1), remaining := remaining }

/-- SRC_POS after a successful HUF.EXP step: the bytes of which at least one bit has been taken (R41, R162). -/
def HufState.nextSrcPos (h : HufState) : Word := BitVec.ofNat 32 ((h.bitcnt.toNat + 1 + 7) / 8)

/-- HUF.EXP's work step follows entry `v`: a literal is written and the walk restarts at the root; a reference to one
of the 255 nodes moves there; any other entry faults (R101, R162). -/
def hufFollow (h : HufState) (v : Half) (s : State) : Except Fault Work :=
  if v.toNat < 256 then
    match dstWrite s s.outCnt.toNat [v.setWidth 8] with
    | .error f => .error f
    | .ok s' =>
      .ok (.to { s' with
        outCnt := BitVec.ofNat 32 (s.outCnt.toNat + 1), srcPos := h.nextSrcPos,
        engine := some (.hufExp (h.advance 254 (BitVec.ofNat 32 (h.remaining.toNat - 1)))) })
  else if hn : v.toNat - 256 < 255 then
    .ok (.to { s with
      srcPos := h.nextSrcPos, engine := some (.hufExp (h.advance ⟨v.toNat - 256, hn⟩ h.remaining)) })
  else .ok (.raise .tableIndex v.toNat)

/-- HUF.EXP's work step: one stream bit (R162). -/
def hufWork (h : HufState) (s : State) : Except Fault Work :=
  if s.x.srcLen.toNat ≤ h.bitcnt.toNat / 8 then .ok (.raise .srcOverrun (h.bitcnt.toNat / 8 + 1))
  else
    match srcByte s (h.bitcnt.toNat / 8) with
    | .error f => .error f
    | .ok byte => hufFollow h (followEntry s.tbl[h.node] (byte.getLsbD (h.bitcnt.toNat % 8))) s

/-- HUF.EXP's engine step: done when nothing remains to be produced (R142, R161, R162). -/
def hufExpStep (s : State) : Host.Outcome State Fault Refusal :=
  match s.engine with
  | some (.hufExp h) => engineStep (h.remaining.toNat == 0) (hufWork h s) s
  | _ => noStep s

/-- HUF.EXP (R161, R162). -/
def execHufExp (s : State) : Host.Outcome State Fault Refusal :=
  command (Instr.word .hufExp) (launchCheck .hufExp)
    (fun a => .hufExp { node := 254, bitcnt := 0, remaining := a.x.outLen }) hufExpStep s

end Sys2Proof.Machine
end

