-- ==== Sys2Proof/Machine/Lzs.lean ====
section
/-! DEFINITION. Unit LZS: LZS.DEC (R180 to R185). -/

namespace Sys2Proof.Machine

/-- LZS_STOP_PRED: the default `((t >> 12) & 0xF) = 1`, or the implementation's own (R106, R183; log 6). -/
def lzsStop : StopPred → Half → Bool
  | .lenFieldIsOne, t => t.extractLsb' 12 4 == 1#4
  | .other n, t => Config.otherStopPred n t

/-- The back-distance of a token: `0x1000 - OFS`, 1 to 4096 (R105). -/
def tokenDist (t : Half) : Nat := 0x1000 - (t.extractLsb' 0 12).toNat

/-- The run length of a token: `LEN + 3`, 3 to 18 (R105). -/
def tokenLen (t : Half) : Nat := (t.extractLsb' 12 4).toNat + 3

/-- The copy of a back-reference: byte by byte in ascending order, each byte read after the earlier ones of the same
run are written (R181, R182). `o` is the offset of the next destination byte. -/
def copyRun (s : State) (dist o : Nat) : Nat → Except Fault State
  | 0 => .ok s
  | n + 1 =>
    match byteRead s (s.x.dstBase.toNat + o - dist) with
    | .error f => .error f
    | .ok b =>
      match dstWrite s o [b] with
      | .error f => .error f
      | .ok s' => copyRun s' dist (o + 1) n

/-- A step that consumed its token: the source position, the bucket, the bytes still to produce (R181). -/
def lzsAdvance (stopv stop : Bool) (bucket : BitVec 9) (pos remaining : Nat) (s : State) : State :=
  { s with
    srcPos := BitVec.ofNat 32 pos
    engine := some (.lzsDec stopv
      { bucket := bucket, srcpos := BitVec.ofNat 32 pos, remaining := BitVec.ofNat 32 remaining, stop := stop }) }

/-- A literal token at source index `pos` (R181). -/
def lzsLiteral (stopv : Bool) (h : LzsState) (bucket : BitVec 9) (pos : Nat) (s : State) : Except Fault Work :=
  if s.x.srcLen.toNat ≤ pos then .ok (.raise .srcOverrun (pos + 1))
  else
    match srcByte s pos with
    | .error f => .error f
    | .ok b =>
      match dstWrite s s.outCnt.toNat [b] with
      | .error f => .error f
      | .ok s' =>
        .ok (.to (lzsAdvance stopv h.stop bucket (pos + 1) (h.remaining.toNat - 1)
          { s' with outCnt := BitVec.ofNat 32 (s.outCnt.toNat + 1) }))

/-- A back-reference token `t` whose bytes end before source index `pos`: the stop sentinel, then the window test, then
the length test, then the copy (R181, R183). -/
def lzsToken (stopv : Bool) (h : LzsState) (bucket : BitVec 9) (pos : Nat) (t : Half) (s : State) :
    Except Fault Work :=
  if stopv && lzsStop s.platform.stopPred t then
    .ok (.to (lzsAdvance stopv true bucket pos h.remaining.toNat { s with early := true }))
  else if s.outCnt.toNat < tokenDist t then .ok (.raise .windowUnderrun t.toNat)
  else if h.remaining.toNat < tokenLen t then .ok (.raise .dstOverrun (s.outCnt.toNat + tokenLen t))
  else
    match copyRun s (tokenDist t) s.outCnt.toNat (tokenLen t) with
    | .error f => .error f
    | .ok s' =>
      .ok (.to (lzsAdvance stopv h.stop bucket pos (h.remaining.toNat - tokenLen t)
        { s' with outCnt := BitVec.ofNat 32 (s.outCnt.toNat + tokenLen t) }))

/-- A back-reference at source index `pos`: two token bytes, low byte first (R105, R181). -/
def lzsBackref (stopv : Bool) (h : LzsState) (bucket : BitVec 9) (pos : Nat) (s : State) : Except Fault Work :=
  if s.x.srcLen.toNat ≤ pos + 1 then .ok (.raise .srcOverrun (pos + 2))
  else
    match srcByte s pos with
    | .error f => .error f
    | .ok b0 =>
      match srcByte s (pos + 1) with
      | .error f => .error f
      | .ok b1 => lzsToken stopv h bucket (pos + 2) (le16 b0 b1) s

/-- One control bit and its token, the bucket not empty (R181). -/
def lzsItem (stopv : Bool) (h : LzsState) (bucket : BitVec 9) (pos : Nat) (s : State) : Except Fault Work :=
  if bucket.getLsbD 0 then lzsLiteral stopv h (bucket >>> 1) pos s else lzsBackref stopv h (bucket >>> 1) pos s

/-- LZS.DEC's work step: a refill where the bucket is empty, then one token (R181). -/
def lzsWork (stopv : Bool) (h : LzsState) (s : State) : Except Fault Work :=
  if h.bucket = 1#9 then
    if s.x.srcLen.toNat ≤ h.srcpos.toNat then .ok (.raise .srcOverrun (h.srcpos.toNat + 1))
    else
      match srcByte s h.srcpos.toNat with
      | .error f => .error f
      | .ok ctl => lzsItem stopv h (1#1 ++ ctl) (h.srcpos.toNat + 1) s
  else lzsItem stopv h h.bucket h.srcpos.toNat s

/-- LZS.DEC's engine step: done when nothing remains to be produced or the stop sentinel has been met (R142, R180). -/
def lzsStep (stopv : Bool) (s : State) : Host.Outcome State Fault Refusal :=
  match s.engine with
  | some (.lzsDec sv h) =>
    if sv = stopv then engineStep (h.remaining.toNat == 0 || h.stop) (lzsWork stopv h s) s else noStep s
  | _ => noStep s

/-- LZS.DEC (R180 to R183). -/
def execLzsDec (stopv : Bool) (s : State) : Host.Outcome State Fault Refusal :=
  command (Instr.word (.lzsDec stopv)) (launchCheck (.lzsDec stopv))
    (fun a => .lzsDec stopv { bucket := 1, srcpos := 0, remaining := a.x.outLen, stop := false }) (lzsStep stopv) s

end Sys2Proof.Machine
end

