-- ==== Sys2Proof/Machine/Rle.lean ====
section
/-! DEFINITION. Unit RLE: RLE.LINE and RLE.IMG (R250 to R257). -/

namespace Sys2Proof.Machine

/-- The byte swap: bytes 0 and 2 of a pixel of 3 or 4 bytes change places, a 1-byte pixel stays (R251). -/
def swapPixel : Pixel → Pixel
  | b0 :: b1 :: b2 :: rest => b2 :: b1 :: b0 :: rest
  | p => p

/-- `PIX(q)`: pixel `q` of row `y` of the packed source image (R250, R252). -/
def rowPixel (s : State) (bpp y q : Nat) : Except Fault Pixel :=
  memRead s (s.x.srcBase.toNat + (y * s.x.width.toNat + q) * bpp) bpp

/-- How many of the at most `n` pixels `px q`, `px (q+1)`, … in a row equal `e`. -/
def sameCount (px : Nat → Except Fault Pixel) (e : Pixel) (q : Nat) : Nat → Except Fault Nat
  | 0 => .ok 0
  | n + 1 =>
    match px q with
    | .error f => .error f
    | .ok e' =>
      if e' = e then
        match sameCount px e (q + 1) n with
        | .error f => .error f
        | .ok k => .ok (k + 1)
      else .ok 0

/-- r of R252: the largest n, 1 ≤ n ≤ min(128, W - p), such that pixels p to p+n-1 are all equal. -/
def runCount (px : Nat → Except Fault Pixel) (w p : Nat) : Except Fault Nat :=
  match px p with
  | .error f => .error f
  | .ok e =>
    match sameCount px e (p + 1) (min 128 (w - p) - 1) with
    | .error f => .error f
    | .ok k => .ok (k + 1)

/-- How many more pixels, at most `n`, a raw packet takes from pixel `q` on: while the row has a next pixel that does
not start a run of two (R252, R255). -/
def rawMore (px : Nat → Except Fault Pixel) (w q : Nat) : Nat → Except Fault Nat
  | 0 => .ok 0
  | n + 1 =>
    if w ≤ q then .ok 0
    else if w ≤ q + 1 then .ok 1
    else
      match px q with
      | .error f => .error f
      | .ok e =>
        match px (q + 1) with
        | .error f => .error f
        | .ok e' =>
          if e = e' then .ok 0
          else
            match rawMore px w (q + 1) n with
            | .error f => .error f
            | .ok k => .ok (k + 1)

/-- The bytes of pixels `q` to `q+n-1`, each swapped, in order (R252). -/
def rawBytes (px : Nat → Except Fault Pixel) (q : Nat) : Nat → Except Fault (List Byte)
  | 0 => .ok []
  | n + 1 =>
    match px q with
    | .error f => .error f
    | .ok e =>
      match rawBytes px (q + 1) n with
      | .error f => .error f
      | .ok bs => .ok (swapPixel e ++ bs)

/-- A packet: how many pixels it covers, its size in bytes, and its bytes, or the model's stop in reading them. The size
is known before the pixels are read (R252). -/
structure Packet where
  count : Nat
  size : Nat
  bytes : Except Fault (List Byte)

/-- The repeat packet of `n` pixels equal to pixel `p` (R113, R252). -/
def repeatPacket (px : Nat → Except Fault Pixel) (bpp p n : Nat) : Packet :=
  { count := n, size := 1 + bpp
    bytes :=
      match px p with
      | .error f => .error f
      | .ok e => .ok (BitVec.ofNat 8 (127 + n) :: swapPixel e) }

/-- The raw packet of pixels `p` to `p+n-1` (R113, R252). -/
def rawPacket (px : Nat → Except Fault Pixel) (bpp p n : Nat) : Packet :=
  { count := n, size := 1 + n * bpp
    bytes :=
      match rawBytes px p n with
      | .error f => .error f
      | .ok bs => .ok (BitVec.ofNat 8 (n - 1) :: bs) }

/-- The packet that starts at pixel `p` of a row of `w` pixels: a run of two or more is a repeat packet, anything else a
raw packet (R252, R255). -/
def choosePacket (px : Nat → Except Fault Pixel) (bpp w p : Nat) : Except Fault Packet :=
  match runCount px w p with
  | .error f => .error f
  | .ok r =>
    if 2 ≤ r then .ok (repeatPacket px bpp p r)
    else
      match rawMore px w (p + 1) 127 with
      | .error f => .error f
      | .ok k => .ok (rawPacket px bpp p (k + 1))

/-- Pixel after a packet of `n` pixels: back to 0 at the end of the row (R252). -/
def rleNextP (w : Nat) (h : RleState) (n : Nat) : Nat := if h.p.toNat + n = w then 0 else h.p.toNat + n

/-- Row after a packet of `n` pixels: the next one at the end of the row, for RLE.LINE too (R252; log 25). -/
def rleNextRow (w : Nat) (h : RleState) (n : Nat) : Nat := if h.p.toNat + n = w then h.row.toNat + 1 else h.row.toNat

/-- The hidden state after packet `k` was written (R252). -/
def RleState.advance (h : RleState) (w : Nat) (k : Packet) : RleState :=
  { row := BitVec.ofNat 16 (rleNextRow w h k.count)
    p := BitVec.ofNat 16 (rleNextP w h k.count)
    outpos := BitVec.ofNat 32 (h.outpos.toNat + k.size) }

/-- The state after packet `k` was written (R252). -/
def rleNext (bpp : Nat) (next : RleState → Operation) (h : RleState) (k : Packet) (s : State) : State :=
  { s with
    srcPos := BitVec.ofNat 32
      ((rleNextRow s.x.width.toNat h k.count * s.x.width.toNat + rleNextP s.x.width.toNat h k.count) * bpp)
    outCnt := BitVec.ofNat 32 (h.outpos.toNat + k.size)
    engine := some (next (h.advance s.x.width.toNat k)) }

/-- The work step of both commands: emit one packet of row `y` (R252). -/
def rleWork (bpp y : Nat) (next : RleState → Operation) (h : RleState) (s : State) : Except Fault Work :=
  match choosePacket (rowPixel s bpp y) bpp s.x.width.toNat h.p.toNat with
  | .error f => .error f
  | .ok k =>
    if s.x.dstCap.toNat < h.outpos.toNat + k.size then .ok (.raise .dstOverrun (h.outpos.toNat + k.size))
    else
      match k.bytes with
      | .error f => .error f
      | .ok bs =>
        match dstWrite s h.outpos.toNat bs with
        | .error f => .error f
        | .ok s' => .ok (.to (rleNext bpp next h k s'))

/-- The done condition: W = 0, or all rows are finished (R142, R250). -/
def rleDone (rows : Nat) (h : RleState) (x : Operands) : Bool := x.width.toNat == 0 || h.row.toNat == rows

/-- The launch values of both commands (R45, R250). -/
def RleState.start : RleState := { row := 0, p := 0, outpos := 0 }

/-- RLE.LINE's engine step: one row, row 0 (R252, R253). -/
def rleLineStep (bpp : BitVec 3) (s : State) : Host.Outcome State Fault Refusal :=
  match s.engine with
  | some (.rleLine b h) =>
    if b = bpp then engineStep (rleDone 1 h s.x) (rleWork bpp.toNat 0 (.rleLine bpp) h s) s else noStep s
  | _ => noStep s

/-- RLE.LINE (R253). -/
def execRleLine (bpp : BitVec 3) (s : State) : Host.Outcome State Fault Refusal :=
  command (Instr.word (.rleLine bpp)) (launchCheck (.rleLine bpp)) (fun _ => .rleLine bpp .start) (rleLineStep bpp) s

/-- The source row that RLE.IMG encodes as its row number `row`: from the top with TOPDOWN, else from the bottom
(R252, R254). -/
def imgRow (topdown : Bool) (height row : Nat) : Nat := if topdown then row else height - 1 - row

/-- RLE.IMG's engine step: HEIGHT rows (R252, R254). -/
def rleImgStep (bpp : BitVec 3) (topdown : Bool) (s : State) : Host.Outcome State Fault Refusal :=
  match s.engine with
  | some (.rleImg b td h) =>
    if b = bpp ∧ td = topdown then
      engineStep (rleDone s.x.height.toNat h s.x)
        (rleWork bpp.toNat (imgRow topdown s.x.height.toNat h.row.toNat) (.rleImg bpp topdown) h s) s
    else noStep s
  | _ => noStep s

/-- RLE.IMG (R254). -/
def execRleImg (bpp : BitVec 3) (topdown : Bool) (s : State) : Host.Outcome State Fault Refusal :=
  command (Instr.word (.rleImg bpp topdown)) (launchCheck (.rleImg bpp topdown))
    (fun _ => .rleImg bpp topdown .start) (rleImgStep bpp topdown) s

end Sys2Proof.Machine
end

