-- ==== Sys2Proof/Machine/Scl.lean ====
section
/-! DEFINITION. Unit SCL: SCL.2X and SCL.2X3 (R220 to R230). -/

namespace Sys2Proof.Machine

/-- `clamp(a, 0, m)` (R148, R221): the only place a value below zero is formed. -/
def clamp (a : Int) (m : Nat) : Nat := if a < 0 then 0 else min a.toNat m

/-- The source offset of `P(u, v)`: row `clamp(v, 0, HT-1)`, column `clamp(u, 0, W-1)` (R77, R221). -/
def pixelOffset (x : Operands) (bpp : Nat) (u v : Int) : Nat :=
  clamp v (x.height.toNat - 1) * x.srcStride.toNat + clamp u (x.width.toNat - 1) * bpp

/-- `P(u, v)`: the clamped source pixel (R221). -/
def pixelAt (s : State) (bpp : Nat) (u v : Int) : Except Fault Pixel :=
  memRead s (s.x.srcBase.toNat + pixelOffset s.x bpp u v) bpp

/-- The nine pixels around source pixel (x, y) (R221). -/
def neighbours (s : State) (bpp x y : Nat) : Except Fault Nbhd := do
  let a ← pixelAt s bpp (x - 1 : Int) (y - 1 : Int)
  let b ← pixelAt s bpp x (y - 1 : Int)
  let c ← pixelAt s bpp (x + 1 : Int) (y - 1 : Int)
  let d ← pixelAt s bpp (x - 1 : Int) y
  let e ← pixelAt s bpp x y
  let f ← pixelAt s bpp (x + 1 : Int) y
  let g ← pixelAt s bpp (x - 1 : Int) (y + 1 : Int)
  let h ← pixelAt s bpp x (y + 1 : Int)
  let i ← pixelAt s bpp (x + 1 : Int) (y + 1 : Int)
  return { a, b, c, d, e, f, g, h, i }

/-- The edge test of both published kernels: `(B != H) and (D != F)` (R228, R229). -/
def edge (n : Nbhd) : Bool := n.b != n.h && n.d != n.f

/-- The pixel of a neighbourhood that a sub-pixel takes (R225, item 2). -/
def pickPixel (n : Nbhd) : Pick → Pixel
  | .e => n.e
  | .b => n.b
  | .d => n.d
  | .f => n.f
  | .h => n.h

/-- PRESUMED (log 7): the published Scale2x rule, the default SCL_K2X: E0 to E3 (R228). -/
def published2x (n : Nbhd) : List Pixel :=
  [ if edge n && n.d == n.b then n.d else n.e,
    if edge n && n.b == n.f then n.f else n.e,
    if edge n && n.d == n.h then n.d else n.e,
    if edge n && n.h == n.f then n.f else n.e ]

/-- PRESUMED (log 7): the published Scale2x3 rule, the default SCL_K2X3: E0 to E5 (R229). -/
def published2x3 (n : Nbhd) : List Pixel :=
  [ if edge n && n.d == n.b then n.d else n.e,
    if edge n && n.b == n.f then n.f else n.e,
    if edge n && ((n.d == n.b && n.e != n.g) || (n.d == n.h && n.e != n.a)) then n.d else n.e,
    if edge n && ((n.f == n.b && n.e != n.i) || (n.f == n.h && n.e != n.c)) then n.f else n.e,
    if edge n && n.d == n.h then n.d else n.e,
    if edge n && n.h == n.f then n.f else n.e ]

/-- SCL_K2X: the four sub-pixels of a source pixel (R8, R225, R228). -/
def kernel2x : Kernel → Nbhd → List Pixel
  | .published, n => published2x n
  | .other k, n => (List.range 4).map fun j => pickPixel n (Config.otherK2x k n j)

/-- SCL_K2X3: the six sub-pixels of a source pixel (R8, R225, R229). -/
def kernel2x3 : Kernel → Nbhd → List Pixel
  | .published, n => published2x3 n
  | .other k, n => (List.range 6).map fun j => pickPixel n (Config.otherK2x3 k n j)

/-- The destination offset of sub-pixel `j` = 2*r + s of source pixel (x, y), `f` rows a block (R77, R224). -/
def subOffset (x : Operands) (bpp f px py j : Nat) : Nat :=
  (f * py + j / 2) * x.dstStride.toNat + (2 * px + j % 2) * bpp

/-- Write sub-pixels `j`, `j + 1`, … of the block of source pixel (px, py), in this order (R224). -/
def writeBlock (bpp f px py : Nat) : List Pixel → Nat → State → Except Fault State
  | [], _, s => .ok s
  | e :: es, j, s =>
    match dstWrite s (subOffset s.x bpp f px py j) e with
    | .error err => .error err
    | .ok s' => writeBlock bpp f px py es (j + 1) s'

/-- The work step of both commands on source pixel number `k` in raster order, `f` rows a block (R224). -/
def sclWork (kernel : Nbhd → List Pixel) (bpp f : Nat) (next : Word → Operation) (k : Word) (s : State) :
    Except Fault Work :=
  match neighbours s bpp (k.toNat % s.x.width.toNat) (k.toNat / s.x.width.toNat) with
  | .error err => .error err
  | .ok n =>
    match writeBlock bpp f (k.toNat % s.x.width.toNat) (k.toNat / s.x.width.toNat) (kernel n) 0 s with
    | .error err => .error err
    | .ok s' =>
      .ok (.to { s' with
        srcPos := BitVec.ofNat 32 ((k.toNat + 1) * bpp), outCnt := BitVec.ofNat 32 ((k.toNat + 1) * bpp * 2 * f),
        engine := some (next (BitVec.ofNat 32 (k.toNat + 1))) })

/-- SCL.2X's engine step: done when k = W*HT (R142, R220, R222). -/
def scl2xStep (bpp : BitVec 3) (s : State) : Host.Outcome State Fault Refusal :=
  match s.engine with
  | some (.scl2x b k) =>
    if b = bpp then
      engineStep (k.toNat == s.x.width.toNat * s.x.height.toNat)
        (sclWork (kernel2x s.platform.k2x) bpp.toNat 2 (.scl2x bpp) k s) s
    else noStep s
  | _ => noStep s

/-- SCL.2X (R222). -/
def execScl2x (bpp : BitVec 3) (s : State) : Host.Outcome State Fault Refusal :=
  command (Instr.word (.scl2x bpp)) (launchCheck (.scl2x bpp)) (fun _ => .scl2x bpp 0) (scl2xStep bpp) s

/-- SCL.2X3's engine step: done when k = W*HT (R142, R220, R223). -/
def scl2x3Step (bpp : BitVec 3) (s : State) : Host.Outcome State Fault Refusal :=
  match s.engine with
  | some (.scl2x3 b k) =>
    if b = bpp then
      engineStep (k.toNat == s.x.width.toNat * s.x.height.toNat)
        (sclWork (kernel2x3 s.platform.k2x3) bpp.toNat 3 (.scl2x3 bpp) k s) s
    else noStep s
  | _ => noStep s

/-- SCL.2X3 (R223). -/
def execScl2x3 (bpp : BitVec 3) (s : State) : Host.Outcome State Fault Refusal :=
  command (Instr.word (.scl2x3 bpp)) (launchCheck (.scl2x3 bpp)) (fun _ => .scl2x3 bpp 0) (scl2x3Step bpp) s

end Sys2Proof.Machine
end

