-- ==== Sys2Proof/Machine/System.lean ====
section
/-! DEFINITION. The soft reset as an instruction (R96, R145). -/

namespace Sys2Proof.Machine

/-- SRST: the host's write to CTRL of a value with bit 0 set; the other bits are ignored, and it acts at any time
(R26, R145, R340). -/
def execSrst (_ign : BitVec 31) (s : State) : Host.Outcome State Fault Refusal := .next (softReset s.pop)

end Sys2Proof.Machine
end

