-- ==== Sys2Proof/Machine/Dispatch.lean ====
section
/-! DEFINITION. One arm per instruction. -/

namespace Sys2Proof.Machine

def exec (i : Instr) (s : State) : Host.Outcome State Fault Refusal :=
  match i with
  | .hufLdt => Sys2Proof.Machine.execHufLdt s
  | .hufExp => Sys2Proof.Machine.execHufExp s
  | .lzsDec stopv => Sys2Proof.Machine.execLzsDec stopv s
  | .bpcLdp => Sys2Proof.Machine.execBpcLdp s
  | .bpcRgb24 => Sys2Proof.Machine.execBpcRgb24 s
  | .bpcRgb32 => Sys2Proof.Machine.execBpcRgb32 s
  | .scl2x bpp => Sys2Proof.Machine.execScl2x bpp s
  | .scl2x3 bpp => Sys2Proof.Machine.execScl2x3 bpp s
  | .rleLine bpp => Sys2Proof.Machine.execRleLine bpp s
  | .rleImg bpp topdown => Sys2Proof.Machine.execRleImg bpp topdown s
  | .srst ign => Sys2Proof.Machine.execSrst ign s

end Sys2Proof.Machine
end

