-- ==== Sys2Proof/Machine/Port.lean ====
section
/-! DEFINITION. The control port and the memory port (R29, R34, R47, R130, R131, R143 to R147), and what the next
transition is. -/

namespace Sys2Proof.Machine

/-- What a byte offset of the control port names (R21). -/
inductive PortReg where
  | id
  | cmd
  | status
  | ie
  | operand (r : OperandReg)
  | ctrl
  | cause
  | finfo
  | srcPos
  | outCnt
  /-- A reserved offset (0x38, 0x3C), an offset of 0x50 or more, or one that is not a multiple of 4 (R29). -/
  | nothing
deriving DecidableEq, Repr

/-- The register at a byte offset (R21, R29). -/
def portReg (o : Nat) : PortReg :=
  match o with
  | 0x00 => .id
  | 0x04 => .cmd
  | 0x08 => .status
  | 0x0C => .ie
  | 0x10 => .operand .srcBase
  | 0x14 => .operand .srcLen
  | 0x18 => .operand .dstBase
  | 0x1C => .operand .dstCap
  | 0x20 => .operand .outLen
  | 0x24 => .operand .width
  | 0x28 => .operand .height
  | 0x2C => .operand .srcStride
  | 0x30 => .operand .dstStride
  | 0x34 => .ctrl
  | 0x40 => .cause
  | 0x44 => .finfo
  | 0x48 => .srcPos
  | 0x4C => .outCnt
  | _ => .nothing

/-- The constant register ID (R27). -/
def idValue : Word := 0x57584201#32

/-- The value a read of a register returns (R21 to R29, R130). -/
def regValue (s : State) : PortReg → Word
  | .id => idValue
  | .cmd => s.cmd
  | .status => s.statusWord
  | .ie => s.ieWord
  | .operand r => s.x.get r
  | .ctrl => 0
  | .cause => s.causeWord
  | .finfo => s.finfo
  | .srcPos => s.srcPos
  | .outCnt => s.outCnt
  | .nothing => 0

/-- A host write of `v` to operand register `r`: dropped with OVR set while BUSY is 1 (R146). -/
def writeOperand (v : Word) (r : OperandReg) (s : State) : State :=
  if s.busy then { s with ovr := true } else { s with x := s.x.set v r }

/-- A host write of `v` at offset `o` that is no instruction (R131): an illegal command word at CMD (R134), STATUS
(R143), IE (R144), an operand register (R146), CTRL with bit 0 clear (R145), or an offset that ignores writes (R147).
-/
def plainWrite (o : Nat) (v : Word) (s : State) : State :=
  match portReg o with
  | .cmd => writeIllegal v s
  | .status => writeStatus v s
  | .ie => writeIe v s
  | .operand r => writeOperand v r s
  | .id | .ctrl | .cause | .finfo | .srcPos | .outCnt | .nothing => s

/-- A host read at offset `o`: the value is answered, and nothing of the block changes (R130; log 14). -/
def portRead (o : Nat) (s : State) : State := { s with portOut := regValue s (portReg o) }

/-- The byte a host read of buffer memory returns: the one written last, or a free value (R71, U3; log 9). -/
def hostByte (s : State) (a : Nat) : Byte := (s.mem.read a).getD (Config.unspecByte s.memEpoch a)

/-- A host read of `n` bytes from `a` up (R34, R47; log 10, log 14). -/
def hostRead (a n : Nat) (s : State) : Host.Outcome State Fault Refusal :=
  if a + n ≤ s.platform.memBytes then .next { s with memOut := (List.range n).map fun k => hostByte s (a + k) }
  else .fault (.noSuchAddress (max a s.platform.memBytes))

/-- Address `a` lies in a region of the running operation (R47, R64, R352). -/
def State.liveByte (s : State) (a : Nat) : Bool :=
  match s.engine with
  | none => false
  | some op => s.x.inSrc a || (usesDst op.instr && s.x.inDst a)

/-- A host write of bytes from `a` up (R34, R47); outside the spec when it touches a region of the running operation
(R352; log 11). -/
def hostWrite (a : Nat) (bs : List Byte) (s : State) : Host.Outcome State Fault Refusal :=
  match (List.range bs.length).find? fun k => s.liveByte (a + k) with
  | some k => .fault (.liveRegionWrite (a + k))
  | none =>
    match memWrite s a bs with
    | .error f => .fault f
    | .ok s' => .next s'

/-- The instruction the next transition runs: the one the host's next control-port write is, or at the engine's turn
the one of the operation in progress; none if there is no instruction in it (log 3). -/
def fetch (s : State) : Option Instr :=
  match s.inbox with
  | .write o v :: _ => (decode o v).toOption
  | .pass :: _ => s.engine.map Operation.instr
  | [] => s.engine.map Operation.instr
  | .read _ :: _ => none
  | .memRead _ _ :: _ => none
  | .memWrite _ _ :: _ => none
  | .hardReset :: _ => none

/-- A transition that runs no instruction: an access of the host, a hardware reset, or an engine's turn with no
operation in progress, which changes nothing (R140, R325; log 18). -/
def otherTransition (s : State) : Host.Outcome State Fault Refusal :=
  match s.inbox with
  | .write o v :: _ => .next (plainWrite o v s.pop)
  | .read o :: _ => .next (portRead o s.pop)
  | .memRead a n :: _ => hostRead a n s.pop
  | .memWrite a bs :: _ => hostWrite a bs s.pop
  | .hardReset :: _ => .next (hardReset s.pop)
  | .pass :: _ => .next s.pop
  | [] => .next s

end Sys2Proof.Machine
end

