-- ==== Sys2Proof/Machine/Step.lean ====
section
/-! DEFINITION. One transition of the machine (R131, R140). -/

namespace Sys2Proof.Machine

/-- One atomic transition: the instruction that `fetch` gives, else what the next entry of the inbox does. -/
def step (s : State) : Host.Outcome State Fault Refusal :=
  match fetch s with
  | some i => exec i s
  | none => otherTransition s

/-- `s` with the control-port write of the table's value as the host's next access (log 2). -/
def State.withFetchWord (s : State) (nbits w : Nat) : State :=
  { s with inbox := .write (tableOffset (tableValue nbits w)) (tableValue nbits w) :: s.inbox }

end Sys2Proof.Machine
end

