-- ==== Sys2Proof/Safety.lean ====
section
/-! DEFINITION. The terms statements are made in: the invariant of the machine, the bound on an operation's steps, where
a step may store, and what a command's result may depend on. -/

namespace Sys2Proof.Machine

/-- At most one of BUSY, DONE and FAULT is 1 (R24). -/
def flagsExclusive (s : State) : Bool := !(s.busy && s.done) && !(s.busy && s.fault) && !(s.done && s.fault)

/-- What the hidden state, SRC_POS and OUT_CNT of an operation in progress satisfy between two steps (R41 to R45, R142,
R148, R160, R200; EARLY and `stop` rise in one step, log 24; the output bytes LZS.DEC counts are written, R71). -/
def progressOk (s : State) : Operation → Bool
  | .hufLdt loaded =>
    s.srcPos.toNat == (if loaded then 1020 else 0) && s.outCnt.toNat == 0 && (!loaded || s.tblValid)
  | .bpcLdp loaded =>
    s.srcPos.toNat == (if loaded then 768 else 0) && s.outCnt.toNat == 0 && (!loaded || s.palValid)
  | .hufExp h =>
    s.outCnt.toNat + h.remaining.toNat == s.x.outLen.toNat && s.srcPos.toNat == (h.bitcnt.toNat + 7) / 8 &&
      decide (h.bitcnt.toNat ≤ 8 * s.x.srcLen.toNat)
  | .lzsDec stopv h =>
    s.outCnt.toNat + h.remaining.toNat == s.x.outLen.toNat && s.srcPos == h.srcpos &&
      decide (h.srcpos.toNat ≤ s.x.srcLen.toNat) && h.bucket != 0#9 && s.early == h.stop &&
      (!h.stop || (stopv && decide (0 < h.remaining.toNat))) &&
      (List.range s.outCnt.toNat).all fun k => (s.mem.read (s.x.dstBase.toNat + k)).isSome
  | .bpcRgb24 i => decide (i.toNat ≤ pixelCount s.x) && s.srcPos == i && s.outCnt.toNat == 3 * i.toNat
  | .bpcRgb32 i => decide (i.toNat ≤ pixelCount s.x) && s.srcPos == i && s.outCnt.toNat == 4 * i.toNat
  | .scl2x bpp k =>
    decide (k.toNat ≤ pixelCount s.x) && s.srcPos.toNat == k.toNat * bpp.toNat &&
      s.outCnt.toNat == k.toNat * bpp.toNat * 4
  | .scl2x3 bpp k =>
    decide (k.toNat ≤ pixelCount s.x) && s.srcPos.toNat == k.toNat * bpp.toNat &&
      s.outCnt.toNat == k.toNat * bpp.toNat * 6
  | .rleLine bpp h => rleOk 1 bpp h
  | .rleImg bpp _ h => rleOk s.x.height.toNat bpp h
where
  /-- The progress of an RLE operation of `rows` rows (R45, R252; log 25). -/
  rleOk (rows : Nat) (bpp : BitVec 3) (h : RleState) : Bool :=
    s.outCnt == h.outpos && decide (h.outpos.toNat ≤ s.x.dstCap.toNat) &&
      s.srcPos.toNat == (h.row.toNat * s.x.width.toNat + h.p.toNat) * bpp.toNat &&
      decide (h.row.toNat ≤ rows) && (h.p == 0#16 || (decide (h.p.toNat < s.x.width.toNat) && decide (h.row.toNat < rows)))

/-- What holds of the operation in progress: every launch check would still pass (R139), EARLY is 1 only where LZS.DEC
met its stop sentinel (R24, R183), CAUSE and FINFO are as the launch left them (R133), and its progress is in order. -/
def operationOk (s : State) : Bool :=
  match s.engine with
  | none => true
  | some op =>
    (launchCheck op.instr s).isNone && s.cause == .none && s.finfo == 0#32 && progressOk s op &&
      (match op with
       | .lzsDec _ _ => true
       | _ => !s.early)

/-- The invariant of the machine: buffer memory in its canonical form, inside MEM_BYTES (R34); the parameters in their
domain (R8); the flags exclusive (R24); the operation in progress in order. -/
def invariant (s : State) : Bool :=
  s.mem.wf && s.mem.all (fun c => decide (c.1 < s.platform.memBytes)) && s.platform.wf && flagsExclusive s &&
    operationOk s

/-- An upper bound on the work steps an operation still takes (R141). -/
def stepsLeft (x : Operands) : Operation → Nat
  | .hufLdt loaded | .bpcLdp loaded => if loaded then 0 else 1
  | .hufExp h => 8 * x.srcLen.toNat - h.bitcnt.toNat
  | .lzsDec _ h => if h.stop then 0 else h.remaining.toNat
  | .bpcRgb24 i | .bpcRgb32 i => pixelCount x - i.toNat
  | .scl2x _ k | .scl2x3 _ k => pixelCount x - k.toNat
  | .rleLine _ h => x.width.toNat - (h.row.toNat * x.width.toNat + h.p.toNat)
  | .rleImg _ _ h => pixelCount x - (h.row.toNat * x.width.toNat + h.p.toNat)

/-- Two buffer memories agree on an address. -/
def agreeAt (m m' : Memory) (a : Nat) : Bool := m.read a == m'.read a

/-- The operation decodes through the Huffman table RAM: HUF.EXP, and no other (R70, R135). -/
def usesTbl : Operation → Bool
  | .hufExp _ => true
  | .hufLdt _ | .lzsDec _ _ | .bpcLdp _ | .bpcRgb24 _ | .bpcRgb32 _ => false
  | .scl2x _ _ | .scl2x3 _ _ | .rleLine _ _ | .rleImg _ _ _ => false

/-- The operation converts through the palette RAM: BPC.RGB24 and BPC.RGB32, and no other (R70, R135). -/
def usesPal : Operation → Bool
  | .bpcRgb24 _ | .bpcRgb32 _ => true
  | .hufLdt _ | .hufExp _ | .lzsDec _ _ | .bpcLdp _ => false
  | .scl2x _ _ | .scl2x3 _ _ | .rleLine _ _ | .rleImg _ _ _ => false

/-- Two states in which the operation in progress has the same inputs: the parameters, the operand registers, the
hidden state, SRC_POS and OUT_CNT, the bytes of the source region; the table RAM for HUF.EXP and the palette RAM for
BPC.RGB24 and BPC.RGB32 only; and for LZS.DEC the destination bytes already produced (R70). -/
def SameInputs (s s' : State) : Prop :=
  s.platform = s'.platform ∧ s.x = s'.x ∧ s.engine = s'.engine ∧ s.srcPos = s'.srcPos ∧ s.outCnt = s'.outCnt ∧
    (∀ op, s.engine = some op → usesTbl op = true → s.tbl = s'.tbl) ∧
    (∀ op, s.engine = some op → usesPal op = true → s.pal = s'.pal) ∧
    (∀ a, s.x.inSrc a = true → s.mem.read a = s'.mem.read a) ∧
    (∀ stopv h, s.engine = some (.lzsDec stopv h) →
      ∀ k, k < s.outCnt.toNat → s.mem.read (s.x.dstBase.toNat + k) = s'.mem.read (s.x.dstBase.toNat + k))

/-! ### Terms of the statements about launches -/

/-- What a command's launch starts: its decoded word with its launch values (R133, R41 to R45); SRST starts
nothing. -/
def launchOperation (x : Operands) : Instr → Option Operation
  | .hufLdt => some (.hufLdt false)
  | .hufExp => some (.hufExp { node := 254, bitcnt := 0, remaining := x.outLen })
  | .lzsDec stopv => some (.lzsDec stopv { bucket := 1, srcpos := 0, remaining := x.outLen, stop := false })
  | .bpcLdp => some (.bpcLdp false)
  | .bpcRgb24 => some (.bpcRgb24 0)
  | .bpcRgb32 => some (.bpcRgb32 0)
  | .scl2x bpp => some (.scl2x bpp 0)
  | .scl2x3 bpp => some (.scl2x3 bpp 0)
  | .rleLine bpp => some (.rleLine bpp { row := 0, p := 0, outpos := 0 })
  | .rleImg bpp topdown => some (.rleImg bpp topdown { row := 0, p := 0, outpos := 0 })
  | .srst _ => none

/-- The instruction is a command, a word written to CMD, and not the soft reset (R92, R96). -/
def isCommand : Instr → Bool
  | .srst _ => false
  | .hufLdt | .hufExp | .lzsDec _ | .bpcLdp | .bpcRgb24 | .bpcRgb32 => true
  | .scl2x _ | .scl2x3 _ | .rleLine _ | .rleImg _ _ => true

/-- The next access is a reset: the hardware input, or a write to CTRL with bit 0 set (R340). -/
def resetNext (s : State) : Bool :=
  match s.inbox with
  | .hardReset :: _ => true
  | .write o v :: _ => o == ctrlOffset && v.getLsbD 0
  | _ => false

/-- The registers as every reset leaves them (R48): all read 0 but ID, no operation, irq 0. -/
def ResetRegisters (s : State) : Prop :=
  s.cmd = 0 ∧ s.statusWord = 0 ∧ s.ieWord = 0 ∧ (∀ r, s.x.get r = 0) ∧ s.causeWord = 0 ∧ s.finfo = 0 ∧
    s.srcPos = 0 ∧ s.outCnt = 0 ∧ s.engine = none ∧ s.irq = false

/-! ### Terms of the statements about engine steps -/

/-- Buffer memory holds the bytes `bs` from address `a` up. -/
abbrev Memory.holds (m : Memory) (a : Nat) (bs : List Byte) : Prop :=
  ∀ k (h : k < bs.length), m.read (a + k) = some bs[k]

/-- Address `a` exists and holds byte `b`. -/
abbrev State.byteAt (s : State) (a : Nat) (b : Byte) : Prop := a < s.platform.memBytes ∧ s.mem.read a = some b

/-- Buffer memory holds an image of `w` by `h` pixels of `bpp` bytes at `base`, `pitch` bytes from row to row (R13). -/
abbrev HoldsImage (m : Memory) (base pitch bpp w h : Nat) (px : Nat → Nat → Pixel) : Prop :=
  ∀ y, y < h → ∀ x, x < w → (px x y).length = bpp ∧ m.holds (base + y * pitch + x * bpp) (px x y)

/-- The done condition of an operation (the table of R142). -/
def doneCondition (x : Operands) : Operation → Bool
  | .hufLdt loaded | .bpcLdp loaded => loaded
  | .hufExp h => h.remaining == 0#32
  | .lzsDec _ h => h.remaining == 0#32 || h.stop
  | .bpcRgb24 i | .bpcRgb32 i => i.toNat == x.width.toNat * x.height.toNat
  | .scl2x _ k | .scl2x3 _ k => k.toNat == x.width.toNat * x.height.toNat
  | .rleLine _ h => x.width == 0#16 || h.row == 1#16
  | .rleImg _ _ h => x.width == 0#16 || h.row == x.height

/-- Fault entry by an engine step: what R304 writes, and the turn passed. -/
def faultEntry (c : Cause) (info : Nat) (s : State) : State :=
  { s with
    inbox := s.inbox.tail, engine := none, fault := true, cause := c
    finfo := BitVec.ofNat 32 (min info 0xFFFFFFFF) }

/-- The bucket `bk` and the source index `pos` with which LZS.DEC takes its next control bit: those it has, or, where
the bucket is empty, those after the refill (R181). -/
def LzsControl (s : State) (h : LzsState) (bk : BitVec 9) (pos : Nat) : Prop :=
  (h.bucket ≠ 1#9 ∧ bk = h.bucket ∧ pos = h.srcpos.toNat) ∨
    (h.bucket = 1#9 ∧ h.srcpos.toNat < s.x.srcLen.toNat ∧ pos = h.srcpos.toNat + 1 ∧
      ∃ ctl, s.byteAt (s.x.srcBase.toNat + h.srcpos.toNat) ctl ∧ bk.toNat = ctl.toNat + 0x100)

/-- LZS.DEC meets the back-reference token `t`, whose bytes lie at source index `pos` and `pos + 1`, with `bk` the
bucket before its control bit is taken (R181). -/
def LzsMeets (s : State) (h : LzsState) (bk : BitVec 9) (pos : Nat) (t : Half) : Prop :=
  0 < h.remaining.toNat ∧ h.stop = false ∧ LzsControl s h bk pos ∧ bk.getLsbD 0 = false ∧
    pos + 1 < s.x.srcLen.toNat ∧
    ∃ b0 b1, s.byteAt (s.x.srcBase.toNat + pos) b0 ∧ s.byteAt (s.x.srcBase.toNat + pos + 1) b1 ∧
      t.toNat = b0.toNat + 256 * b1.toNat

/-- The nine pixels around (x, y) of an image of `w` by `h` pixels: at an edge the pixel itself stands for the missing
neighbour (R221). -/
def neighbourhood (px : Nat → Nat → Pixel) (w h x y : Nat) : Nbhd :=
  let l := x - 1
  let r := min (x + 1) (w - 1)
  let u := y - 1
  let d := min (y + 1) (h - 1)
  { a := px l u, b := px x u, c := px r u, d := px l y, e := px x y, f := px r y, g := px l d, h := px x d,
    i := px r d }

/-- Address `a` lies in sub-pixel `j` of the destination block of source pixel `k` (R224). -/
def inSubPixel (x : Operands) (bpp f k j a : Nat) : Bool :=
  let o := x.dstBase.toNat + subOffset x bpp f (k % x.width.toNat) (k / x.width.toNat) j
  decide (o ≤ a) && decide (a < o + bpp)

/-- Address `a` is one of the bytes the step from `s` to `t` of an operation stores (R77). The address is the one the
meaning computes: the destination base plus OUT_CNT where output is appended, up to the OUT_CNT after the step; the place
of the pixel, or the places of the block's sub-pixels, otherwise. -/
def storedByte (s t : State) (a : Nat) : Operation → Bool
  | .hufLdt _ | .bpcLdp _ => false
  | .hufExp _ | .lzsDec _ _ | .rleLine _ _ | .rleImg _ _ _ =>
    decide (s.x.dstBase.toNat + s.outCnt.toNat ≤ a) && decide (a < s.x.dstBase.toNat + t.outCnt.toNat)
  | .bpcRgb24 i => inPixel 3 i
  | .bpcRgb32 i => inPixel 4 i
  | .scl2x bpp k => (List.range 4).any fun j => inSubPixel s.x bpp.toNat 2 k.toNat j a
  | .scl2x3 bpp k => (List.range 6).any fun j => inSubPixel s.x bpp.toNat 3 k.toNat j a
where
  /-- Address `a` lies in the destination pixel of source index `i`. -/
  inPixel (bpp : Nat) (i : Word) : Bool :=
    let o := s.x.dstBase.toNat + planeOffset s.x.width.toNat s.x.height.toNat bpp i.toNat
    decide (o ≤ a) && decide (a < o + bpp)

/-- The causes a command's launch can report (the "L" entries of R303). -/
def launchCauses : Instr → List Cause
  | .hufLdt | .bpcLdp => [.illegalCmd, .badRegion, .srcOverrun]
  | .hufExp => [.illegalCmd, .badRegion, .notLoaded, .dstOverrun]
  | .lzsDec _ => [.illegalCmd, .badRegion, .dstOverrun]
  | .bpcRgb24 | .bpcRgb32 => [.illegalCmd, .badParam, .badRegion, .notLoaded, .srcOverrun, .dstOverrun]
  | .scl2x _ | .scl2x3 _ => [.illegalCmd, .badParam, .badRegion, .srcOverrun, .dstOverrun]
  | .rleLine _ | .rleImg _ _ => [.illegalCmd, .badRegion, .srcOverrun]
  | .srst _ => []

/-- The causes a command's work steps can report (the "S" entries of R303). -/
def stepCauses : Instr → List Cause
  | .hufExp => [.srcOverrun, .tableIndex]
  | .lzsDec _ => [.srcOverrun, .dstOverrun, .windowUnderrun]
  | .rleLine _ | .rleImg _ _ => [.dstOverrun]
  | .hufLdt | .bpcLdp | .bpcRgb24 | .bpcRgb32 | .scl2x _ | .scl2x3 _ | .srst _ => []

end Sys2Proof.Machine
end

