-- ==== Sys2Proof/Safety/Reference.lean ====
section
/-! DEFINITION. Reference functions of the spec, written apart from the machine, that statements compare it with: the
Huffman walk of R163, the LZSS decoder of spec/95_test_vectors.md section 3, the packet expansion of spec/95_test_vectors.md section 5 (R113, R114), the plane layout of
R107. -/

namespace Sys2Proof.Reference

/-- Stream bit `k` of a source: bit `k mod 8` of byte `k div 8` (R102). -/
def streamBit (src : Nat → Byte) (k : Nat) : Bool := (src (k / 8)).getLsbD (k % 8)

/-- `walk(node, k)` of R163 with a bound on the number of bits: the literal reached and the bit position after it. -/
def walk (tbl : Vector Node 255) (src : Nat → Byte) : Nat → Fin 255 → Nat → Option (Byte × Nat)
  | 0, _, _ => none
  | fuel + 1, node, k =>
    let v := if streamBit src k then tbl[node].bit1 else tbl[node].bit0
    if v.toNat < 256 then some (v.setWidth 8, k + 1)
    else if hn : v.toNat - 256 < 255 then walk tbl src fuel ⟨v.toNat - 256, hn⟩ (k + 1)
    else none

/-- `n` output bytes from bit position `k` on, no codeword longer than `fuel` bits, and the bit position after the last
(R163). -/
def expand (tbl : Vector Node 255) (src : Nat → Byte) (fuel : Nat) : Nat → Nat → Option (List Byte × Nat)
  | 0, k => some ([], k)
  | n + 1, k =>
    match walk tbl src fuel 254 k with
    | none => none
    | some (b, k') =>
      match expand tbl src fuel n k' with
      | none => none
      | some (bs, k'') => some (b :: bs, k'')

/-- Append `n` bytes to `out`, each the byte `dist` places before it (R182). -/
def repeatBack (dist : Nat) : Nat → List Byte → List Byte
  | 0, out => out
  | n + 1, out => repeatBack dist n (out ++ [out.getD (out.length - dist) 0])

/-- The reference LZSS decoder of spec/95_test_vectors.md section 3, at most `fuel` turns: the control bits not yet used,
the next source index and the output so far; gives the `n` output bytes and the number of source bytes consumed, none
where a run does not fit (R104, R105, R184). -/
def lzss (src : Nat → Byte) (n : Nat) : Nat → List Bool → Nat → List Byte → Option (List Byte × Nat)
  | 0, _, _, _ => none
  | fuel + 1, bits, s, out =>
    if n ≤ out.length then some (out, s)
    else
      match bits with
      | [] => lzss src n fuel ((List.range 8).map (src s).getLsbD) (s + 1) out
      | true :: rest => lzss src n fuel rest (s + 1) (out ++ [src s])
      | false :: rest =>
        let t := (src s).toNat + 256 * (src (s + 1)).toNat
        let dist := 0x1000 - t % 0x1000
        let len := t / 0x1000 + 3
        if dist ≤ out.length ∧ out.length + len ≤ n then lzss src n fuel rest (s + 2) (repeatBack dist len out)
        else none

/-- Expand RLE packets of `bpp`-byte pixels, at most `fuel` of them; none if a packet is cut short (R113, R114, the
reference reader of spec/95_test_vectors.md section 5). -/
def unpack (bpp : Nat) : Nat → List Byte → Option (List Byte)
  | _, [] => some []
  | 0, _ :: _ => none
  | fuel + 1, h :: data =>
    if h.getLsbD 7 then
      if data.length < bpp then none
      else (unpack bpp fuel (data.drop bpp)).map ((List.replicate (h.toNat - 127) (data.take bpp)).flatten ++ ·)
    else
      if data.length < (h.toNat + 1) * bpp then none
      else (unpack bpp fuel (data.drop ((h.toNat + 1) * bpp))).map (data.take ((h.toNat + 1) * bpp) ++ ·)

/-- The swap of R251 on the three pixel formats of the RLE encoder; any other list of bytes stays. -/
def swap : Pixel → Pixel
  | [r, g, b] => [b, g, r]
  | [r, g, b, a] => [b, g, r, a]
  | p => p

/-- `bs` is the repeat packet of the `n` pixels from pixel `p` on in a row `px` of `w` pixels: all of them equal, at
least two, at most 128, and as many as there are (R252, R255, R113). -/
def RepeatPacket (px : Nat → Pixel) (w p n : Nat) (bs : List Byte) : Prop :=
  2 ≤ n ∧ n ≤ 128 ∧ p + n ≤ w ∧ (∀ q, p ≤ q → q < p + n → px q = px p) ∧
    (n = 128 ∨ p + n = w ∨ px (p + n) ≠ px p) ∧ bs = BitVec.ofNat 8 (127 + n) :: swap (px p)

/-- `bs` is the raw packet of the `n` pixels from pixel `p` on in a row `px` of `w` pixels: none of them equals its
successor in the row, and the packet ends at 128 pixels, at the end of the row, or before a pixel that equals its
successor (R252, R255, R113). -/
def RawPacket (px : Nat → Pixel) (w p n : Nat) (bs : List Byte) : Prop :=
  1 ≤ n ∧ n ≤ 128 ∧ p + n ≤ w ∧ (∀ q, p ≤ q → q < p + n → q + 1 < w → px q ≠ px (q + 1)) ∧
    (n = 128 ∨ p + n = w ∨ (p + n + 1 < w ∧ px (p + n) = px (p + n + 1))) ∧
    bs = BitVec.ofNat 8 (n - 1) :: ((List.range n).map fun j => swap (px (p + j))).flatten

/-- The pixels of a row of `w` pixels, each swapped, as bytes in order (R114). -/
def swappedRow (px : Nat → Pixel) (w : Nat) : List Byte := ((List.range w).map fun q => swap (px q)).flatten

end Sys2Proof.Reference
end

