-- ==== Sys2Proof/Certificates/Slice0/Obligations.lean ====
section
/-! DEFINITION. The statements for the provers, in the order of OBLIGATIONS.json. -/

open Sys2Proof Sys2Proof.Machine

/-! ### Encoding -/

/-- Decoding the control-port write that encodes a well-formed instruction gives the instruction back, every operand at
every value its encoding admits (R90 to R96). -/
def Obligations.DecodeInvertsEncode : Prop :=
  ∀ i : Instr, i.wf = true → decode (encode i).1 (encode i).2 = .ok i

/-- A control-port write that decodes is the encoding of what it decodes to, and that is well-formed. A command word has at
most one reading and every bit of it counts (R95). That a write of CTRL keeps its ignored bits 31:1 too is the model's
choice of operand for SRST (log 17). -/
def Obligations.EncodeInvertsDecode : Prop :=
  ∀ (o : Nat) (v : Word) (i : Instr), decode o v = .ok i → i.wf = true ∧ encode i = (o, v)

/-- The command words that decode are the 22 that R91 and R92 allow, and no other value (R94). -/
def Obligations.LegalCommandWords : Prop :=
  ∀ v : Word, (∃ i, decodeCmd v = .ok i) ↔ v.toNat ∈
    [0x00000010, 0x00000011, 0x00000020, 0x00020020, 0x00000030, 0x00000031, 0x00000032,
     0x00000140, 0x00000240, 0x00000440, 0x00000141, 0x00000241, 0x00000441,
     0x00000150, 0x00000350, 0x00000450, 0x00000151, 0x00000351, 0x00000451, 0x00010151, 0x00010351, 0x00010451]

/-- A word that decodes is admitted by the row of its command, and no word is admitted by two rows (R95). -/
def Obligations.CommandRowsDisjoint : Prop :=
  (∀ (v : Word) (i : Instr), decodeCmd v = .ok i → i.row ∈ commandRows ∧ i.row.admits v = true) ∧
  ∀ (v : Word) (r r' : Row), r ∈ commandRows → r' ∈ commandRows → r.admits v = true → r'.admits v = true → r = r'

/-- Words written out from spec/30_encoding.md decode to the instructions they stand for (R91, R92, R96). -/
def Obligations.SpecWordsDecode : Prop :=
  decode 0x04 0x00000010#32 = .ok .hufLdt ∧ decode 0x04 0x00020020#32 = .ok (.lzsDec true) ∧
  decode 0x04 0x00000031#32 = .ok .bpcRgb24 ∧ decode 0x04 0x00000240#32 = .ok (.scl2x 2#3) ∧
  decode 0x04 0x00010451#32 = .ok (.rleImg 4#3 true) ∧ decode 0x34 0x00000001#32 = .ok (.srst 0#31) ∧
  decode 0x04 0x00000142#32 = .error .unknownOpcode ∧ decode 0x04 0x00010020#32 = .error .illegalTopdown

/-! ### Steps -/

/-- When the host's next access is a control-port write that decodes to an instruction, the instruction is well-formed
and the step runs it; and so with a table word that decodes and the step after its `withFetchWord` (R131; log 2,
log 3). -/
def Obligations.StepRunsDecoded : Prop :=
  (∀ (s : State) (o : Nat) (v : Word) (rest : List Access) (i : Instr), s.inbox = .write o v :: rest →
    decode o v = .ok i → i.wf = true ∧ step s = exec i s) ∧
  ∀ (s : State) (nbits w : Nat) (i : Instr), decodeTableWord nbits w = some i →
    i.wf = true ∧ step (s.withFetchWord nbits w) = exec i (s.withFetchWord nbits w)

/-- At the engine's turn the step runs the operation in progress (R140). With none in progress the engine takes no step
(R140, R325); that such a turn is a next state in which nothing changes but the turn is the model's choice (log 18). -/
def Obligations.StepRunsEngine : Prop :=
  ∀ s : State, (s.inbox = [] ∨ ∃ rest, s.inbox = .pass :: rest) →
    (∀ op, s.engine = some op → step s = exec op.instr s) ∧
    (s.engine = none → step s = .next { s with inbox := s.inbox.tail })

/-- A control-port read answers the register at its offset, in the layouts of R21 to R29 and CAUSE with the code numbers of
R301; it answers 0 at every other offset and changes nothing else (R130). That the answer stands in the field portOut is
the model's choice (log 14). -/
def Obligations.PortReadAnswers : Prop :=
  ∀ (s : State) (o : Nat) (rest : List Access), s.inbox = .read o :: rest →
    ∃ v, step s = .next { s with inbox := rest, portOut := v } ∧
      (o = 0x00 → v = 0x57584201#32) ∧ (o = 0x04 → v = s.cmd) ∧
      (o = 0x08 → (List.range 32).map v.getLsbD =
        [s.engine.isSome, s.done, s.fault, s.ovr, s.tblValid, s.palValid, s.early] ++ List.replicate 25 false) ∧
      (o = 0x0C → (List.range 32).map v.getLsbD = [s.ieDone, s.ieFault] ++ List.replicate 30 false) ∧
      (o = 0x10 → v = s.x.srcBase) ∧ (o = 0x14 → v = s.x.srcLen) ∧ (o = 0x18 → v = s.x.dstBase) ∧
      (o = 0x1C → v = s.x.dstCap) ∧ (o = 0x20 → v = s.x.outLen) ∧ (o = 0x24 → v.toNat = s.x.width.toNat) ∧
      (o = 0x28 → v.toNat = s.x.height.toNat) ∧ (o = 0x2C → v = s.x.srcStride) ∧ (o = 0x30 → v = s.x.dstStride) ∧
      (o = 0x44 → v = s.finfo) ∧ (o = 0x48 → v = s.srcPos) ∧ (o = 0x4C → v = s.outCnt) ∧
      (o = 0x40 → (s.cause = .none → v = 0) ∧ (s.cause = .illegalCmd → v = 1) ∧ (s.cause = .badParam → v = 2) ∧
        (s.cause = .badRegion → v = 3) ∧ (s.cause = .notLoaded → v = 4) ∧ (s.cause = .srcOverrun → v = 5) ∧
        (s.cause = .dstOverrun → v = 6) ∧ (s.cause = .tableIndex → v = 7) ∧ (s.cause = .windowUnderrun → v = 8)) ∧
      (o = 0x34 ∨ o = 0x38 ∨ o = 0x3C ∨ 0x50 ≤ o ∨ o % 4 ≠ 0 → v = 0)

/-- A write of STATUS clears DONE, FAULT and OVR where bits 1, 2 and 3 are set (R143); a write of IE sets its two bits
(R144). Nothing else changes. -/
def Obligations.FlagRegisterWrites : Prop :=
  ∀ (s : State) (v : Word) (rest : List Access),
    (s.inbox = .write 0x08 v :: rest → step s = .next { s with
      inbox := rest, done := s.done && !v.getLsbD 1, fault := s.fault && !v.getLsbD 2, ovr := s.ovr && !v.getLsbD 3 }) ∧
    (s.inbox = .write 0x0C v :: rest → step s = .next { s with
      inbox := rest, ieDone := v.getLsbD 0, ieFault := v.getLsbD 1 })

/-- A write of operand register `r`, at offset 0x10 + 4 * its index, is dropped with OVR set while BUSY is 1; else the
register takes the value, WIDTH and HEIGHT its low 16 bits, and no other register changes (R146). -/
def Obligations.OperandWrites : Prop :=
  ∀ (s : State) (r : OperandReg) (v : Word) (rest : List Access), s.inbox = .write (0x10 + 4 * r.index) v :: rest →
    (s.busy = true → step s = .next { s with inbox := rest, ovr := true }) ∧
    (s.busy = false → ∃ x', step s = .next { s with inbox := rest, x := x' } ∧
      x'.get r = (if r = .width ∨ r = .height then v &&& 0xFFFF#32 else v) ∧
      ∀ r', r' ≠ r → x'.get r' = s.x.get r')

/-- A write to any offset but those of CMD, STATUS, IE, the operand registers and CTRL changes nothing (R147); nor does a
write to CTRL with bit 0 clear (R145). -/
def Obligations.IgnoredWrites : Prop :=
  ∀ (s : State) (o : Nat) (v : Word) (rest : List Access), s.inbox = .write o v :: rest →
    (o ∉ [0x04, 0x08, 0x0C, 0x10, 0x14, 0x18, 0x1C, 0x20, 0x24, 0x28, 0x2C, 0x30, 0x34] ∨
      o = 0x34 ∧ v.getLsbD 0 = false) →
    step s = .next { s with inbox := rest }

/-- The memory port: bytes written outside the regions of a running operation stand where they were put and no other byte
changes; bytes that memory holds are read back (R34, R62, R63). That the bytes read stand in the field memOut is the
model's choice (log 14); so is the access of no bytes at all, also at address MEM_BYTES, which R62 and R63 do not define (log
10). -/
def Obligations.MemoryPortAccesses : Prop :=
  ∀ (s : State) (a : Nat) (bs : List Byte) (rest : List Access), a + bs.length ≤ s.platform.memBytes →
    (s.inbox = .memWrite a bs :: rest → (∀ k, k < bs.length → s.liveByte (a + k) = false) →
      ∃ m, step s = .next { s with inbox := rest, mem := m } ∧ m.holds a bs ∧
        (∀ c, c < a ∨ a + bs.length ≤ c → m.read c = s.mem.read c) ∧ (s.mem.wf = true → m.wf = true)) ∧
    (s.inbox = .memRead a bs.length :: rest → s.mem.holds a bs →
      step s = .next { s with inbox := rest, memOut := bs })

/-- The machine starts with every register at the value R48 gives, both tables not valid, and no byte of buffer memory
written. -/
def Obligations.ResetValues : Prop :=
  ResetRegisters State.reset ∧ ∀ a, State.reset.mem.read a = none

/-- SRST, whatever bits 31:1 of the value are and whatever the block is doing, leaves every register at its reset value
and buffer memory as it was (R145, R341, R342). -/
def Obligations.SoftResetRuns : Prop :=
  ∀ (s : State) (ign : BitVec 31), ∃ t, exec (.srst ign) s = .next t ∧ ResetRegisters t ∧
    (∀ a, t.mem.read a = s.mem.read a) ∧ t.platform = s.platform ∧ t.inbox = s.inbox.tail ∧
    t.portOut = s.portOut ∧ t.memOut = s.memOut

/-- A hardware reset leaves every register at its reset value and every byte of buffer memory unwritten (R340, R341). -/
def Obligations.HardwareResetStep : Prop :=
  ∀ (s : State) (rest : List Access), s.inbox = .hardReset :: rest → ∃ t, step s = .next t ∧ ResetRegisters t ∧
    (∀ a, t.mem.read a = none) ∧ t.platform = s.platform ∧ t.inbox = rest

/-- The irq line is DONE and IE_DONE, or FAULT and IE_FAULT (R35), and under the invariant it is 1 only while the block is
idle and for one of its two sources only (R309). -/
def Obligations.IrqOnlyWhenIdle : Prop :=
  ∀ s : State, (s.irq = true ↔ (s.done = true ∧ s.ieDone = true) ∨ (s.fault = true ∧ s.ieFault = true)) ∧
    (invariant s = true → s.irq = true → s.busy = false ∧ s.done ≠ s.fault)

/-! ### Launch -/

/-- A write of CMD, legal word or not, is dropped with OVR set while BUSY or FAULT is 1; else it is accepted: CMD takes
the word, DONE and EARLY are cleared, OVR stays (R132). -/
def Obligations.CommandWriteAcceptance : Prop :=
  ∀ (s : State) (v : Word) (rest : List Access), s.inbox = .write 0x04 v :: rest →
    (s.busy = true ∨ s.fault = true → step s = .next { s with inbox := rest, ovr := true }) ∧
    (s.busy = false → s.fault = false → ∃ t, step s = .next t ∧ t.cmd = v ∧ t.done = false ∧ t.early = false ∧
      t.ovr = s.ovr)

/-- A command whose launch checks pass starts its operation with its launch values (R133, R41 to R45). -/
def Obligations.LaunchStartsOperation : Prop :=
  ∀ (s : State) (i : Instr) (op : Operation) (rest : List Access), s.inbox = .write i.offset i.word :: rest →
    s.busy = false → s.fault = false → launchCheck i s = none → launchOperation s.x i = some op →
    exec i s = .next { s with
      inbox := rest, cmd := i.word, done := false, early := false, cause := .none, finfo := 0, srcPos := 0, outCnt := 0
      engine := some op }

/-- A command one of whose launch checks fails faults, and that is all it does beside what an accepted write does (R133,
R304). -/
def Obligations.LaunchFaultEntry : Prop :=
  ∀ (s : State) (i : Instr) (c : Cause) (info : Nat) (rest : List Access), isCommand i = true →
    s.inbox = .write i.offset i.word :: rest → s.busy = false → s.fault = false → launchCheck i s = some (c, info) →
    exec i s = .next { s with
      inbox := rest, cmd := i.word, done := false, early := false, fault := true, cause := c
      finfo := BitVec.ofNat 32 (min info 0xFFFFFFFF), srcPos := 0, outCnt := 0 }

/-- An accepted write of an illegal word to CMD faults with ILLEGAL_CMD and the word in FINFO (R134). -/
def Obligations.IllegalCommandFaults : Prop :=
  ∀ (s : State) (v : Word) (e : DecodeError) (rest : List Access), s.inbox = .write 0x04 v :: rest →
    decodeCmd v = .error e → s.busy = false → s.fault = false →
    step s = .next { s with
      inbox := rest, cmd := v, done := false, early := false, fault := true, cause := .illegalCmd, finfo := v
      srcPos := 0, outCnt := 0 }

/-- Which command needs which table (R135), and which operand ranges it needs, in the order they are tested (R136). -/
def Obligations.TableAndRangeChecks : Prop :=
  (∀ (s : State) (i : Instr), tableCheck s i =
    if i = .hufExp ∧ s.tblValid = false then some (.notLoaded, 0)
    else if (i = .bpcRgb24 ∨ i = .bpcRgb32) ∧ s.palValid = false then some (.notLoaded, 1) else none) ∧
  (∀ (x : Operands) (i : Instr), i = .bpcRgb24 ∨ i = .bpcRgb32 → paramCheck x i =
    if x.width.toNat < 4 ∨ x.width.toNat % 4 ≠ 0 then some (.badParam, 5)
    else if x.height.toNat < 1 then some (.badParam, 6) else none) ∧
  (∀ (x : Operands) (bpp : BitVec 3) (i : Instr), i = .scl2x bpp ∨ i = .scl2x3 bpp → paramCheck x i =
    if x.width.toNat < 2 then some (.badParam, 5)
    else if x.height.toNat < 2 then some (.badParam, 6)
    else if x.srcStride.toNat < x.width.toNat * bpp.toNat then some (.badParam, 7)
    else if x.dstStride.toNat < 2 * x.width.toNat * bpp.toNat then some (.badParam, 8) else none) ∧
  (∀ (x : Operands) (i : Instr), i ≠ .bpcRgb24 → i ≠ .bpcRgb32 → (∀ bpp, i ≠ .scl2x bpp) → (∀ bpp, i ≠ .scl2x3 bpp) →
    paramCheck x i = none)

/-- The region tests (R137): the sums are over the naturals, the table loads make test (a) only, and the tests that
pass mean what R64 says: each region lies inside buffer memory, and no address is in both. -/
def Obligations.RegionChecks : Prop :=
  ∀ (n : Nat) (x : Operands) (i : Instr),
    (regionCheck n x i = some (.badRegion, 0) ↔ n < x.srcBase.toNat + x.srcLen.toNat) ∧
    (regionCheck n x i = some (.badRegion, 1) ↔ x.srcBase.toNat + x.srcLen.toNat ≤ n ∧ usesDst i = true ∧
      n < x.dstBase.toNat + x.dstCap.toNat) ∧
    (regionCheck n x i = some (.badRegion, 2) ↔ x.srcBase.toNat + x.srcLen.toNat ≤ n ∧ usesDst i = true ∧
      x.dstBase.toNat + x.dstCap.toNat ≤ n ∧ ∃ a, x.inSrc a = true ∧ x.inDst a = true) ∧
    (∀ c info, regionCheck n x i = some (c, info) → c = .badRegion ∧ info ≤ 2) ∧
    (isCommand i = true → (usesDst i = false ↔ i = .hufLdt ∨ i = .bpcLdp))

/-- The checks are made in the order legality, tables, operand ranges, regions, needs, and the first failure is the one
reported (R139, R307); the source need comes before the destination need, and a launch that passes all five has no fault
(R138). The needs themselves are the two tables of R138, row by row. That a term no decoding gives, one with an illegal
BPP, fails the first check with the word its fields make is the model's choice (log 21). -/
def Obligations.LaunchCheckOrder : Prop :=
  (∀ (s : State) (i : Instr) (r : Raise),
    (i.wf = false → launchCheck i s = some (.illegalCmd, i.word.toNat)) ∧
    (i.wf = true → tableCheck s i = some r → launchCheck i s = some r) ∧
    (i.wf = true → tableCheck s i = none → paramCheck s.x i = some r → launchCheck i s = some r) ∧
    (i.wf = true → tableCheck s i = none → paramCheck s.x i = none →
      regionCheck s.platform.memBytes s.x i = some r → launchCheck i s = some r) ∧
    (i.wf = true → tableCheck s i = none → paramCheck s.x i = none → regionCheck s.platform.memBytes s.x i = none →
      (∀ n, needSrc s.x i = some n → s.x.srcLen.toNat < n → launchCheck i s = some (.srcOverrun, n)) ∧
      (∀ n, (∀ k, needSrc s.x i = some k → k ≤ s.x.srcLen.toNat) → needDst s.x i = some n → s.x.dstCap.toNat < n →
        launchCheck i s = some (.dstOverrun, n)) ∧
      ((∀ k, needSrc s.x i = some k → k ≤ s.x.srcLen.toNat) → (∀ n, needDst s.x i = some n → n ≤ s.x.dstCap.toNat) →
        launchCheck i s = none))) ∧
  ∀ (x : Operands) (w h : Nat) (bpp : BitVec 3) (stopv td : Bool), w = x.width.toNat → h = x.height.toNat →
    (needSrc x .hufLdt = some 1020 ∧ needDst x .hufLdt = none) ∧
    (needSrc x .hufExp = none ∧ needDst x .hufExp = some x.outLen.toNat) ∧
    (needSrc x (.lzsDec stopv) = none ∧ needDst x (.lzsDec stopv) = some x.outLen.toNat) ∧
    (needSrc x .bpcLdp = some 768 ∧ needDst x .bpcLdp = none) ∧
    (needSrc x .bpcRgb24 = some (w * h) ∧ needDst x .bpcRgb24 = some (w * h * 3)) ∧
    (needSrc x .bpcRgb32 = some (w * h) ∧ needDst x .bpcRgb32 = some (w * h * 4)) ∧
    (needSrc x (.scl2x bpp) = some ((h - 1) * x.srcStride.toNat + w * bpp.toNat) ∧
      needDst x (.scl2x bpp) = some ((2 * h - 1) * x.dstStride.toNat + 2 * w * bpp.toNat)) ∧
    (needSrc x (.scl2x3 bpp) = some ((h - 1) * x.srcStride.toNat + w * bpp.toNat) ∧
      needDst x (.scl2x3 bpp) = some ((3 * h - 1) * x.dstStride.toNat + 2 * w * bpp.toNat)) ∧
    (needSrc x (.rleLine bpp) = some (w * bpp.toNat) ∧ needDst x (.rleLine bpp) = none) ∧
    (needSrc x (.rleImg bpp td) = some (w * h * bpp.toNat) ∧ needDst x (.rleImg bpp td) = none)

/-- After a launch whose checks passed, for every operand value: the divisors of BPC are at least 1, every pixel BPC
writes lies in the destination region, every pixel SCL reads lies in the source region and every sub-pixel it writes in
the destination region, every pixel RLE reads lies in the source region (R139, R148). -/
def Obligations.AcceptedLaunchFacts : Prop :=
  ∀ (s : State) (i : Instr), launchCheck i s = none →
    (i = .bpcRgb24 ∨ i = .bpcRgb32 → 1 ≤ s.x.width.toNat / 4 ∧ 1 ≤ s.x.width.toNat * s.x.height.toNat / 4 ∧
      ∀ k, k < s.x.width.toNat * s.x.height.toNat → k < s.x.srcLen.toNat ∧
        planeOffset s.x.width.toNat s.x.height.toNat (if i = .bpcRgb24 then 3 else 4) k +
          (if i = .bpcRgb24 then 3 else 4) ≤ s.x.dstCap.toNat) ∧
    (∀ (bpp : BitVec 3) (f : Nat), (i = .scl2x bpp ∧ f = 2) ∨ (i = .scl2x3 bpp ∧ f = 3) →
      (∀ u v : Int, pixelOffset s.x bpp.toNat u v + bpp.toNat ≤ s.x.srcLen.toNat) ∧
      ∀ px py j, px < s.x.width.toNat → py < s.x.height.toNat → j < 2 * f →
        subOffset s.x bpp.toNat f px py j + bpp.toNat ≤ s.x.dstCap.toNat) ∧
    (∀ (bpp : BitVec 3) (td : Bool), i = .rleImg bpp td → ∀ y q, y < s.x.height.toNat → q < s.x.width.toNat →
      (y * s.x.width.toNat + q) * bpp.toNat + bpp.toNat ≤ s.x.srcLen.toNat) ∧
    (∀ bpp : BitVec 3, i = .rleLine bpp → ∀ q, q < s.x.width.toNat → q * bpp.toNat + bpp.toNat ≤ s.x.srcLen.toNat)

/-! ### Engine steps -/

/-- An engine step completes the operation, and does nothing else, exactly where the done condition of R142 holds. -/
def Obligations.CompletingStep : Prop :=
  ∀ (s : State) (op : Operation), s.hostTurn = false → s.engine = some op →
    (doneCondition s.x op = true →
      exec op.instr s = .next { s with inbox := s.inbox.tail, engine := none, done := true }) ∧
    (doneCondition s.x op = false → ∀ t, exec op.instr s = .next t → t.done = s.done)

/-- HUF.LDT's work step loads the whole table: entry bit0 of node n is bytes 4n and 4n+1 of the image, bit1 bytes 4n+2
and 4n+3, low byte first; TBL_VALID is set (R160, R100). -/
def Obligations.TableLoadStep : Prop :=
  ∀ (s : State) (img : List Byte), s.hostTurn = false → s.engine = some (.hufLdt false) → img.length = 1020 →
    s.mem.holds s.x.srcBase.toNat img → s.x.srcBase.toNat + 1020 ≤ s.platform.memBytes →
    ∃ tb, exec .hufLdt s = .next { s with
        inbox := s.inbox.tail, tbl := tb, tblValid := true, srcPos := 1020, outCnt := 0
        engine := some (.hufLdt true) } ∧
      ∀ n (h : n < 255),
        tb[n].bit0.toNat = (img.getD (4 * n) 0).toNat + 256 * (img.getD (4 * n + 1) 0).toNat ∧
        tb[n].bit1.toNat = (img.getD (4 * n + 2) 0).toNat + 256 * (img.getD (4 * n + 3) 0).toNat

/-- HUF.EXP's work step (R162): a missing bit faults; a literal is written and the walk restarts at the root; a reference
moves to its node; an entry of 511 or more faults. -/
def Obligations.HufExpandWorkStep : Prop :=
  ∀ (s : State) (h : HufState), s.hostTurn = false → s.engine = some (.hufExp h) → 0 < h.remaining.toNat →
    (s.x.srcLen.toNat ≤ h.bitcnt.toNat / 8 →
      exec .hufExp s = .next (faultEntry .srcOverrun (h.bitcnt.toNat / 8 + 1) s)) ∧
    ∀ (b : Byte) (v : Half), h.bitcnt.toNat / 8 < s.x.srcLen.toNat →
      s.byteAt (s.x.srcBase.toNat + h.bitcnt.toNat / 8) b →
      v = (if b.getLsbD (h.bitcnt.toNat % 8) = true then s.tbl[h.node].bit1 else s.tbl[h.node].bit0) →
      (v.toNat < 256 → s.x.dstBase.toNat + s.outCnt.toNat < s.platform.memBytes →
        exec .hufExp s = .next { s with
          inbox := s.inbox.tail, mem := s.mem.write (s.x.dstBase.toNat + s.outCnt.toNat) (v.setWidth 8)
          outCnt := s.outCnt + 1, srcPos := BitVec.ofNat 32 ((h.bitcnt.toNat + 1 + 7) / 8)
          engine := some (.hufExp { node := 254, bitcnt := h.bitcnt + 1, remaining := h.remaining - 1 }) }) ∧
      (∀ node : Fin 255, v.toNat = 256 + node.val →
        exec .hufExp s = .next { s with
          inbox := s.inbox.tail, srcPos := BitVec.ofNat 32 ((h.bitcnt.toNat + 1 + 7) / 8)
          engine := some (.hufExp { node := node, bitcnt := h.bitcnt + 1, remaining := h.remaining }) }) ∧
      (511 ≤ v.toNat → exec .hufExp s = .next (faultEntry .tableIndex v.toNat s))

/-- LZS.DEC's literal: a control bit 1 copies one source byte to the output (R181). -/
def Obligations.LzsLiteralStep : Prop :=
  ∀ (s : State) (stopv : Bool) (h : LzsState) (bk : BitVec 9) (pos : Nat) (b : Byte), s.hostTurn = false →
    s.engine = some (.lzsDec stopv h) → 0 < h.remaining.toNat → h.stop = false → LzsControl s h bk pos →
    bk.getLsbD 0 = true → pos < s.x.srcLen.toNat → s.byteAt (s.x.srcBase.toNat + pos) b →
    s.x.dstBase.toNat + s.outCnt.toNat < s.platform.memBytes →
    exec (.lzsDec stopv) s = .next { s with
      inbox := s.inbox.tail, mem := s.mem.write (s.x.dstBase.toNat + s.outCnt.toNat) b, outCnt := s.outCnt + 1
      srcPos := BitVec.ofNat 32 (pos + 1)
      engine := some (.lzsDec stopv
        { bucket := bk >>> 1, srcpos := BitVec.ofNat 32 (pos + 1), remaining := h.remaining - 1, stop := false }) }

/-- LZS.DEC's back-reference: distance 0x1000 minus the low 12 bits, length the high 4 bits plus 3; afterwards every byte
of the run equals the byte one distance before it, also where that byte is of the same run, and no other byte of memory
has changed (R105, R181, R182). -/
def Obligations.LzsCopyStep : Prop :=
  ∀ (s : State) (stopv : Bool) (h : LzsState) (bk : BitVec 9) (pos : Nat) (tok : Half) (dist len : Nat),
    s.hostTurn = false → s.engine = some (.lzsDec stopv h) → LzsMeets s h bk pos tok →
    (stopv && lzsStop s.platform.stopPred tok) = false → dist = 0x1000 - tok.toNat % 0x1000 →
    len = tok.toNat / 0x1000 + 3 → dist ≤ s.outCnt.toNat → len ≤ h.remaining.toNat →
    s.x.dstBase.toNat + s.outCnt.toNat + len ≤ s.platform.memBytes →
    (∀ k, k < dist → (s.mem.read (s.x.dstBase.toNat + s.outCnt.toNat - dist + k)).isSome = true) →
    ∃ m, exec (.lzsDec stopv) s = .next { s with
        inbox := s.inbox.tail, mem := m, outCnt := s.outCnt + BitVec.ofNat 32 len, srcPos := BitVec.ofNat 32 (pos + 2)
        engine := some (.lzsDec stopv
          { bucket := bk >>> 1, srcpos := BitVec.ofNat 32 (pos + 2), remaining := h.remaining - BitVec.ofNat 32 len
            stop := false }) } ∧
      (∀ k, k < len → m.read (s.x.dstBase.toNat + s.outCnt.toNat + k) =
        m.read (s.x.dstBase.toNat + s.outCnt.toNat + k - dist)) ∧
      ∀ a, a < s.x.dstBase.toNat + s.outCnt.toNat ∨ s.x.dstBase.toNat + s.outCnt.toNat + len ≤ a →
        m.read a = s.mem.read a

/-- LZS.DEC's stop sentinel (R181, R183): with STOPV the token is consumed, EARLY is set and nothing is copied; the
engine's next step completes the operation and leaves EARLY set. R24 remarks that EARLY is set only by a step that also
sets DONE; R181 and R183 set it one step earlier, and the model follows those two (log 24). The default predicate is that
the four bits 15:12 are 1 (R106). -/
def Obligations.LzsStopStep : Prop :=
  (∀ (s : State) (h : LzsState) (bk : BitVec 9) (pos : Nat) (tok : Half), s.hostTurn = false →
    s.engine = some (.lzsDec true h) → LzsMeets s h bk pos tok → lzsStop s.platform.stopPred tok = true →
    ∃ t, exec (.lzsDec true) s = .next t ∧
      t = { s with
        inbox := s.inbox.tail, early := true, srcPos := BitVec.ofNat 32 (pos + 2)
        engine := some (.lzsDec true
          { bucket := bk >>> 1, srcpos := BitVec.ofNat 32 (pos + 2), remaining := h.remaining, stop := true }) } ∧
      (t.hostTurn = false → exec (.lzsDec true) t =
        .next { t with inbox := t.inbox.tail, early := true, engine := none, done := true })) ∧
  ∀ tok : Half, lzsStop .lenFieldIsOne tok = true ↔ tok.toNat / 0x1000 = 1

/-- Where LZS.DEC's work step faults, and with what (R181, R306, R307). -/
def Obligations.LzsFaultSteps : Prop :=
  ∀ (s : State) (stopv : Bool) (h : LzsState), s.hostTurn = false → s.engine = some (.lzsDec stopv h) →
    0 < h.remaining.toNat → h.stop = false →
    (h.bucket = 1#9 → s.x.srcLen.toNat ≤ h.srcpos.toNat →
      exec (.lzsDec stopv) s = .next (faultEntry .srcOverrun (h.srcpos.toNat + 1) s)) ∧
    ∀ (bk : BitVec 9) (pos : Nat),
      (LzsControl s h bk pos → bk.getLsbD 0 = true → s.x.srcLen.toNat ≤ pos →
        exec (.lzsDec stopv) s = .next (faultEntry .srcOverrun (pos + 1) s)) ∧
      (LzsControl s h bk pos → bk.getLsbD 0 = false → s.x.srcLen.toNat ≤ pos + 1 →
        exec (.lzsDec stopv) s = .next (faultEntry .srcOverrun (pos + 2) s)) ∧
      ∀ tok : Half, LzsMeets s h bk pos tok → (stopv && lzsStop s.platform.stopPred tok) = false →
        (s.outCnt.toNat < 0x1000 - tok.toNat % 0x1000 →
          exec (.lzsDec stopv) s = .next (faultEntry .windowUnderrun tok.toNat s)) ∧
        (0x1000 - tok.toNat % 0x1000 ≤ s.outCnt.toNat → h.remaining.toNat < tok.toNat / 0x1000 + 3 →
          exec (.lzsDec stopv) s =
            .next (faultEntry .dstOverrun (s.outCnt.toNat + (tok.toNat / 0x1000 + 3)) s))

/-- BPC.LDP's work step loads the whole palette: entry c is bytes 3c, 3c+1, 3c+2 of the image; PAL_VALID is set (R200,
R108). -/
def Obligations.PaletteLoadStep : Prop :=
  ∀ (s : State) (img : List Byte), s.hostTurn = false → s.engine = some (.bpcLdp false) → img.length = 768 →
    s.mem.holds s.x.srcBase.toNat img → s.x.srcBase.toNat + 768 ≤ s.platform.memBytes →
    ∃ pl, exec .bpcLdp s = .next { s with
        inbox := s.inbox.tail, pal := pl, palValid := true, srcPos := 768, outCnt := 0
        engine := some (.bpcLdp true) } ∧
      ∀ c (h : c < 256),
        pl[c] = { r := img.getD (3 * c) 0, g := img.getD (3 * c + 1) 0, b := img.getD (3 * c + 2) 0 }

/-- The work steps of BPC.RGB24 and BPC.RGB32: the palette entry that source byte i numbers is written to the pixel at
column (i mod (W/4))*4 + i div (W*H/4), row (i div (W/4)) mod H, three bytes or four with 0xFF last (R201, R202, R203).
-/
def Obligations.PlanePixelSteps : Prop :=
  ∀ (s : State) (i : Word) (c : Byte) (e : Rgb) (w h o : Nat), s.hostTurn = false → w = s.x.width.toNat → h = s.x.height.toNat →
    i.toNat ≠ w * h → s.byteAt (s.x.srcBase.toNat + i.toNat) c → e = s.pal[c.toNat]'c.isLt →
    o = (i.toNat / (w / 4) % h) * w + ((i.toNat % (w / 4)) * 4 + i.toNat / (w * h / 4)) →
    (s.engine = some (.bpcRgb24 i) → s.x.dstBase.toNat + o * 3 + 3 ≤ s.platform.memBytes →
      exec .bpcRgb24 s = .next { s with
        inbox := s.inbox.tail
        mem := s.mem.writeAll (s.x.dstBase.toNat + o * 3) [e.r, e.g, e.b]
        srcPos := i + 1, outCnt := 3 * (i + 1), engine := some (.bpcRgb24 (i + 1)) }) ∧
    (s.engine = some (.bpcRgb32 i) → s.x.dstBase.toNat + o * 4 + 4 ≤ s.platform.memBytes →
      exec .bpcRgb32 s = .next { s with
        inbox := s.inbox.tail
        mem := s.mem.writeAll (s.x.dstBase.toNat + o * 4) [e.r, e.g, e.b, 0xFF#8]
        srcPos := i + 1, outCnt := 4 * (i + 1), engine := some (.bpcRgb32 (i + 1)) })

/-- The deinterleaving map is a bijection from the source indices onto the W by H grid, and plane p, row q, place r of
the chunk is the pixel at column 4r + p, row q (R201, R107). -/
def Obligations.PlaneMapBijective : Prop :=
  ∀ w h : Nat, w % 4 = 0 → 4 ≤ w → 1 ≤ h →
    (∀ i, i < w * h → planeX w h i < w ∧ planeY w h i < h) ∧
    (∀ i j, i < w * h → j < w * h → planeX w h i = planeX w h j → planeY w h i = planeY w h j → i = j) ∧
    (∀ p q r, p < 4 → q < h → r < w / 4 →
      p * (w * h / 4) + q * (w / 4) + r < w * h ∧
      planeX w h (p * (w * h / 4) + q * (w / 4) + r) = 4 * r + p ∧
      planeY w h (p * (w * h / 4) + q * (w / 4) + r) = q)

/-- The work steps of SCL.2X and SCL.2X3, whatever the kernels: the block of source pixel k, 2 columns by f rows, gets the
kernel's sub-pixels of the nine pixels around it, row by row, and no other byte of memory changes (R221, R224). -/
def Obligations.ScalerPixelSteps : Prop :=
  ∀ (s : State) (bpp : BitVec 3) (k : Word) (px : Nat → Nat → Pixel) (x y : Nat), invariant s = true → s.hostTurn = false →
    k.toNat ≠ s.x.width.toNat * s.x.height.toNat → x = k.toNat % s.x.width.toNat → y = k.toNat / s.x.width.toNat →
    HoldsImage s.mem s.x.srcBase.toNat s.x.srcStride.toNat bpp.toNat s.x.width.toNat s.x.height.toNat px →
    (s.engine = some (.scl2x bpp k) → ∃ m, exec (.scl2x bpp) s = .next { s with
        inbox := s.inbox.tail, mem := m, srcPos := BitVec.ofNat 32 ((k.toNat + 1) * bpp.toNat)
        outCnt := BitVec.ofNat 32 ((k.toNat + 1) * bpp.toNat * 4), engine := some (.scl2x bpp (k + 1)) } ∧
      (∀ r c, r < 2 → c < 2 →
        m.holds (s.x.dstBase.toNat + ((2 * y + r) * s.x.dstStride.toNat + (2 * x + c) * bpp.toNat))
          ((kernel2x s.platform.k2x (neighbourhood px s.x.width.toNat s.x.height.toNat x y)).getD (2 * r + c) [])) ∧
      ∀ a, (∀ j, j < 4 → inSubPixel s.x bpp.toNat 2 k.toNat j a = false) → m.read a = s.mem.read a) ∧
    (s.engine = some (.scl2x3 bpp k) → ∃ m, exec (.scl2x3 bpp) s = .next { s with
        inbox := s.inbox.tail, mem := m, srcPos := BitVec.ofNat 32 ((k.toNat + 1) * bpp.toNat)
        outCnt := BitVec.ofNat 32 ((k.toNat + 1) * bpp.toNat * 6), engine := some (.scl2x3 bpp (k + 1)) } ∧
      (∀ r c, r < 3 → c < 2 →
        m.holds (s.x.dstBase.toNat + ((3 * y + r) * s.x.dstStride.toNat + (2 * x + c) * bpp.toNat))
          ((kernel2x3 s.platform.k2x3 (neighbourhood px s.x.width.toNat s.x.height.toNat x y)).getD (2 * r + c) [])) ∧
      ∀ a, (∀ j, j < 6 → inSubPixel s.x bpp.toNat 3 k.toNat j a = false) → m.read a = s.mem.read a)

/-- Whatever the kernel, the published one or another, every sub-pixel is the source pixel or one of its four direct
neighbours, and the source pixel itself where those four equal it (R225). -/
def Obligations.KernelsPickNeighbours : Prop :=
  ∀ (kn : Kernel) (n : Nbhd),
    (kernel2x kn n).length = 4 ∧ (kernel2x3 kn n).length = 6 ∧
    (∀ e ∈ kernel2x kn n, e = n.e ∨ e = n.b ∨ e = n.d ∨ e = n.f ∨ e = n.h) ∧
    (∀ e ∈ kernel2x3 kn n, e = n.e ∨ e = n.b ∨ e = n.d ∨ e = n.f ∨ e = n.h) ∧
    (n.b = n.e → n.d = n.e → n.f = n.e → n.h = n.e →
      (∀ e ∈ kernel2x kn n, e = n.e) ∧ ∀ e ∈ kernel2x3 kn n, e = n.e)

/-- The default kernels, sub-pixel by sub-pixel (R228, R229). The model takes them from the spec as the value of a
configuration field; the spec marks them as general knowledge (log 7). -/
def Obligations.DefaultKernels : Prop :=
  ∀ n : Nbhd,
    (kernel2x .published n = [
      if (n.b ≠ n.h ∧ n.d ≠ n.f) ∧ n.d = n.b then n.d else n.e,
      if (n.b ≠ n.h ∧ n.d ≠ n.f) ∧ n.b = n.f then n.f else n.e,
      if (n.b ≠ n.h ∧ n.d ≠ n.f) ∧ n.d = n.h then n.d else n.e,
      if (n.b ≠ n.h ∧ n.d ≠ n.f) ∧ n.h = n.f then n.f else n.e]) ∧
    (kernel2x3 .published n = [
      if (n.b ≠ n.h ∧ n.d ≠ n.f) ∧ n.d = n.b then n.d else n.e,
      if (n.b ≠ n.h ∧ n.d ≠ n.f) ∧ n.b = n.f then n.f else n.e,
      if (n.b ≠ n.h ∧ n.d ≠ n.f) ∧ ((n.d = n.b ∧ n.e ≠ n.g) ∨ (n.d = n.h ∧ n.e ≠ n.a)) then n.d else n.e,
      if (n.b ≠ n.h ∧ n.d ≠ n.f) ∧ ((n.f = n.b ∧ n.e ≠ n.i) ∨ (n.f = n.h ∧ n.e ≠ n.c)) then n.f else n.e,
      if (n.b ≠ n.h ∧ n.d ≠ n.f) ∧ n.d = n.h then n.d else n.e,
      if (n.b ≠ n.h ∧ n.d ≠ n.f) ∧ n.h = n.f then n.f else n.e])

/-- The byte swap on the three pixel formats, a bijection on them (R251). -/
def Obligations.PixelSwap : Prop :=
  (∀ b : Byte, swapPixel [b] = [b]) ∧ (∀ b0 b1 b2 : Byte, swapPixel [b0, b1, b2] = [b2, b1, b0]) ∧
  (∀ b0 b1 b2 b3 : Byte, swapPixel [b0, b1, b2, b3] = [b2, b1, b0, b3]) ∧
  ∀ p q : Pixel, p.length = q.length → swapPixel p = swapPixel q → p = q

/-- RLE.LINE's work step emits the packet of R252 and R255 that starts at pixel p of row 0, whole, or faults with
DST_OVERRUN where it does not fit. After the last packet of the row the hidden row count is 1, as R142 and R252 have it
(R45 remarks that it is always 0; log 25). -/
def Obligations.RleLineWorkStep : Prop :=
  ∀ (s : State) (bpp : BitVec 3) (h : RleState) (px : Nat → Nat → Pixel) (n : Nat) (bs : List Byte), invariant s = true →
    s.hostTurn = false → s.engine = some (.rleLine bpp h) → s.x.width ≠ 0#16 → h.row = 0#16 →
    HoldsImage s.mem s.x.srcBase.toNat (s.x.width.toNat * bpp.toNat) bpp.toNat s.x.width.toNat 1 px →
    Reference.RepeatPacket (fun q => px q 0) s.x.width.toNat h.p.toNat n bs ∨
      Reference.RawPacket (fun q => px q 0) s.x.width.toNat h.p.toNat n bs →
    (h.outpos.toNat + bs.length ≤ s.x.dstCap.toNat → exec (.rleLine bpp) s = .next { s with
      inbox := s.inbox.tail, mem := s.mem.writeAll (s.x.dstBase.toNat + h.outpos.toNat) bs
      srcPos := BitVec.ofNat 32 ((h.p.toNat + n) * bpp.toNat)
      outCnt := BitVec.ofNat 32 (h.outpos.toNat + bs.length)
      engine := some (.rleLine bpp {
        row := if h.p.toNat + n = s.x.width.toNat then 1 else 0
        p := if h.p.toNat + n = s.x.width.toNat then 0 else h.p + BitVec.ofNat 16 n
        outpos := BitVec.ofNat 32 (h.outpos.toNat + bs.length) }) }) ∧
    (s.x.dstCap.toNat < h.outpos.toNat + bs.length →
      exec (.rleLine bpp) s = .next (faultEntry .dstOverrun (h.outpos.toNat + bs.length) s))

/-- RLE.IMG's work step emits the packet of R252 and R255 that starts at pixel p of its row, counted from the bottom, or
from the top with TOPDOWN (R254); or faults with DST_OVERRUN where it does not fit. -/
def Obligations.RleImageWorkStep : Prop :=
  ∀ (s : State) (bpp : BitVec 3) (topdown : Bool) (h : RleState) (px : Nat → Nat → Pixel) (y n : Nat) (bs : List Byte),
    invariant s = true → s.hostTurn = false → s.engine = some (.rleImg bpp topdown h) → s.x.width ≠ 0#16 →
    h.row ≠ s.x.height → y = (if topdown = true then h.row.toNat else s.x.height.toNat - 1 - h.row.toNat) →
    HoldsImage s.mem s.x.srcBase.toNat (s.x.width.toNat * bpp.toNat) bpp.toNat s.x.width.toNat s.x.height.toNat px →
    Reference.RepeatPacket (fun q => px q y) s.x.width.toNat h.p.toNat n bs ∨
      Reference.RawPacket (fun q => px q y) s.x.width.toNat h.p.toNat n bs →
    (h.outpos.toNat + bs.length ≤ s.x.dstCap.toNat → exec (.rleImg bpp topdown) s = .next { s with
      inbox := s.inbox.tail, mem := s.mem.writeAll (s.x.dstBase.toNat + h.outpos.toNat) bs
      srcPos := BitVec.ofNat 32 ((h.row.toNat * s.x.width.toNat + h.p.toNat + n) * bpp.toNat)
      outCnt := BitVec.ofNat 32 (h.outpos.toNat + bs.length)
      engine := some (.rleImg bpp topdown {
        row := if h.p.toNat + n = s.x.width.toNat then h.row + 1 else h.row
        p := if h.p.toNat + n = s.x.width.toNat then 0 else h.p + BitVec.ofNat 16 n
        outpos := BitVec.ofNat 32 (h.outpos.toNat + bs.length) }) }) ∧
    (s.x.dstCap.toNat < h.outpos.toNat + bs.length →
      exec (.rleImg bpp topdown) s = .next (faultEntry .dstOverrun (h.outpos.toNat + bs.length) s))

/-! ### Faults -/

/-- An engine step that faults changes BUSY, FAULT, CAUSE and FINFO and nothing else, memory and tables included (R304,
R305). -/
def Obligations.FaultsArePrecise : Prop :=
  ∀ (s t : State) (op : Operation), s.hostTurn = false → s.engine = some op → s.fault = false →
    exec op.instr s = .next t → t.fault = true →
    t = { s with inbox := s.inbox.tail, engine := none, fault := true, cause := t.cause, finfo := t.finfo }

/-- Which causes a command can report at launch and in a step (R303); a command of fixed size cannot fault after its
launch (R139). -/
def Obligations.FaultCausesPerCommand : Prop :=
  (∀ (s : State) (i : Instr) (c : Cause) (info : Nat), isCommand i = true → launchCheck i s = some (c, info) →
    c ∈ launchCauses i) ∧
  ∀ (s t : State) (op : Operation), s.hostTurn = false → s.engine = some op → s.fault = false →
    exec op.instr s = .next t → t.fault = true → t.cause ∈ stepCauses op.instr

/-- While FAULT is 1, no step but a reset changes CAUSE, FINFO, SRC_POS, OUT_CNT or CMD, no operation starts, and FAULT
falls only by a write of STATUS with bit 2 set (R310, R311, R132). -/
def Obligations.FaultHeldUntilCleared : Prop :=
  ∀ s t : State, invariant s = true → s.fault = true → step s = .next t → resetNext s = false →
    t.cause = s.cause ∧ t.finfo = s.finfo ∧ t.srcPos = s.srcPos ∧ t.outCnt = s.outCnt ∧ t.cmd = s.cmd ∧
    t.engine = none ∧ (t.fault = true ∨ ∃ v rest, s.inbox = .write 0x08 v :: rest ∧ v.getLsbD 2 = true)

/-! ### Frames -/

/-- The frame of every command's launch, started, faulted or dropped: the operand registers, IE, the tables and their
valid flags, and every byte of memory stay (R133). -/
def Obligations.LaunchFrame : Prop :=
  ∀ (s t : State) (i : Instr), isCommand i = true → s.hostTurn = true → exec i s = .next t →
    t = { s with
      inbox := s.inbox.tail, cmd := t.cmd, done := t.done, fault := t.fault, ovr := t.ovr, early := t.early
      cause := t.cause, finfo := t.finfo, srcPos := t.srcPos, outCnt := t.outCnt, engine := t.engine } ∧
    ∀ a, t.mem.read a = s.mem.read a

/-- The frame of an engine step of HUF.LDT and BPC.LDP: only the one table and its valid flag, SRC_POS, OUT_CNT, DONE and
the operation change; every byte of memory stays (R160, R200). -/
def Obligations.TableLoadFrame : Prop :=
  ∀ (s t : State) (loaded : Bool), s.hostTurn = false →
    (s.engine = some (.hufLdt loaded) → exec .hufLdt s = .next t →
      t = { s with
        inbox := s.inbox.tail, tbl := t.tbl, tblValid := t.tblValid, srcPos := t.srcPos, outCnt := t.outCnt
        done := t.done, engine := t.engine } ∧ ∀ a, t.mem.read a = s.mem.read a) ∧
    (s.engine = some (.bpcLdp loaded) → exec .bpcLdp s = .next t →
      t = { s with
        inbox := s.inbox.tail, pal := t.pal, palValid := t.palValid, srcPos := t.srcPos, outCnt := t.outCnt
        done := t.done, engine := t.engine } ∧ ∀ a, t.mem.read a = s.mem.read a)

/-- The frame of an engine step of HUF.EXP, LZS.DEC, RLE.LINE and RLE.IMG: it stores only the bytes from the destination
base plus OUT_CNT up to the destination base plus the OUT_CNT it leaves; no table, operand register, IE bit or CMD
changes (R165, R184, R256). EARLY changes for LZS.DEC only. -/
def Obligations.StreamFrame : Prop :=
  ∀ (s t : State) (op : Operation), invariant s = true → s.hostTurn = false → s.engine = some op →
    (op.instr = .hufExp ∨ (∃ stopv, op.instr = .lzsDec stopv) ∨ (∃ bpp, op.instr = .rleLine bpp) ∨
      ∃ bpp td, op.instr = .rleImg bpp td) →
    exec op.instr s = .next t →
    t = { s with
      inbox := s.inbox.tail, mem := t.mem, srcPos := t.srcPos, outCnt := t.outCnt, done := t.done, fault := t.fault
      early := t.early, cause := t.cause, finfo := t.finfo, engine := t.engine } ∧
    ((∀ stopv, op.instr ≠ .lzsDec stopv) → t.early = s.early) ∧ s.outCnt.toNat ≤ t.outCnt.toNat ∧
    ∀ a, storedByte s t a op = false → t.mem.read a = s.mem.read a

/-- The frame of an engine step of BPC.RGB24, BPC.RGB32, SCL.2X and SCL.2X3: it stores only the bytes of the pixel, or of
the block, at the place its index gives; no table, operand register, IE bit, fault register or CMD changes (R202, R203,
R224). -/
def Obligations.PixelFrame : Prop :=
  ∀ (s t : State) (op : Operation), invariant s = true → s.hostTurn = false → s.engine = some op →
    (op.instr = .bpcRgb24 ∨ op.instr = .bpcRgb32 ∨ (∃ bpp, op.instr = .scl2x bpp) ∨ ∃ bpp, op.instr = .scl2x3 bpp) →
    exec op.instr s = .next t →
    t = { s with
      inbox := s.inbox.tail, mem := t.mem, srcPos := t.srcPos, outCnt := t.outCnt, done := t.done
      engine := t.engine } ∧
    ∀ a, storedByte s t a op = false → t.mem.read a = s.mem.read a

/-- Only a reset and the host's write of an operand register while the block is idle change an operand register; so they
are fixed while an operation runs (R22, R75). No step changes the parameters (R46). -/
def Obligations.OperandsChangeByHostOnly : Prop :=
  ∀ s t : State, step s = .next t → t.platform = s.platform ∧
    (t.x = s.x ∨ resetNext s = true ∨
      (s.busy = false ∧ ∃ (r : OperandReg) (v : Word) (rest : List Access),
        s.inbox = .write (0x10 + 4 * r.index) v :: rest))

/-- The table RAM and TBL_VALID change only by HUF.LDT's work step, which sets the flag, and by a reset, which clears it;
so with the palette, PAL_VALID and BPC.LDP (R31, R32, R33). -/
def Obligations.TablesChangeByLoadsOnly : Prop :=
  ∀ s t : State, step s = .next t →
    ((t.tbl = s.tbl ∧ t.tblValid = s.tblValid) ∨ (s.engine = some (.hufLdt false) ∧ t.tblValid = true) ∨
      (resetNext s = true ∧ t.tblValid = false)) ∧
    ((t.pal = s.pal ∧ t.palValid = s.palValid) ∨ (s.engine = some (.bpcLdp false) ∧ t.palValid = true) ∨
      (resetNext s = true ∧ t.palValid = false))

/-! ### Invariants and whole operations -/

/-- The invariant holds after reset. -/
def Obligations.InvariantAtReset : Prop := invariant State.reset = true

/-- Every step keeps the invariant: memory in its canonical form and inside MEM_BYTES, the parameters in their domain, at
most one of BUSY, DONE and FAULT set, and every operation in progress with the launch checks it passed, its cursors
inside its regions, SRC_POS and OUT_CNT as R41 to R45, R160 and R200 tie them to it, the output bytes LZS.DEC counts
written, and EARLY set exactly where LZS.DEC has met its stop sentinel. That EARLY is 1 while BUSY is still 1 is R181 and
R183 read against R24's remark that EARLY is set only by a step that also sets DONE (log 24). -/
def Obligations.StepKeepsInvariant : Prop :=
  ∀ s t : State, invariant s = true → step s = .next t → invariant t = true

/-- Under the invariant an engine step never forms an address that does not exist, stores only in the destination region
(R64, R139), and stops only on an unwritten byte of the source region, never on LZS.DEC's own output (R71, log 8;
R182). -/
def Obligations.EngineStaysInRegions : Prop :=
  ∀ (s : State) (op : Operation), invariant s = true → s.hostTurn = false → s.engine = some op →
    (∀ t, exec op.instr s = .next t → ∀ a, (usesDst op.instr && s.x.inDst a) = false →
      t.mem.read a = s.mem.read a) ∧
    (∀ f, exec op.instr s = .fault f → ∃ a, f = .unwrittenRead a ∧ s.mem.read a = none ∧ s.x.inSrc a = true) ∧
    ∀ r, exec op.instr s ≠ .refused r

/-- Every operation ends, where the host does nothing more (the inbox is empty, log 1), within the number of steps R141
gives and one more: it completes or faults, or the model stops on a byte of the source region that nothing has written
(R71, log 8). The last clause says what the bound is at a launch. -/
def Obligations.OperationsEnd : Prop :=
  (∀ (s : State) (op : Operation), invariant s = true → s.inbox = [] → s.engine = some op →
    ∃ n, n ≤ stepsLeft s.x op + 1 ∧
      ((∃ t, Host.Core.run Sys2Proof.core n s = .next t ∧ t.engine = none ∧ (t.done = true ∨ t.fault = true)) ∨
        ∃ a, Host.Core.run Sys2Proof.core n s = .fault (.unwrittenRead a) ∧ s.x.inSrc a = true ∧
          s.mem.read a = none)) ∧
  ∀ (x : Operands) (i : Instr) (op : Operation), launchOperation x i = some op → stepsLeft x op =
    (match i with
     | .hufLdt | .bpcLdp => 1
     | .hufExp => 8 * x.srcLen.toNat
     | .lzsDec _ => x.outLen.toNat
     | .bpcRgb24 | .bpcRgb32 | .scl2x _ | .scl2x3 _ | .rleImg _ _ => x.width.toNat * x.height.toNat
     | .rleLine _ => x.width.toNat
     | .srst _ => 0)

/-- Two states with the same inputs of the operation in progress take the same engine step: they store the same bytes at
the same addresses, leave the same results and faults, and have the same inputs again (R70). The table RAM is an input of
HUF.EXP only and the palette of BPC.RGB24 and BPC.RGB32 only; what else memory and the tables hold, and what the host has
put in other registers, has no influence. HUF.LDT and BPC.LDP leave the same table in both, and every other step leaves
each table as it was. -/
def Obligations.SameInputsSameStep : Prop :=
  ∀ (s s' t : State) (op : Operation), invariant s = true → invariant s' = true → s.hostTurn = false → s'.hostTurn = false →
    s.engine = some op → SameInputs s s' → exec op.instr s = .next t →
    ∃ t', exec op.instr s' = .next t' ∧ SameInputs t t' ∧ t.done = t'.done ∧ t.fault = t'.fault ∧
      t.cause = t'.cause ∧ t.finfo = t'.finfo ∧ t.early = t'.early ∧
      (if op = .hufLdt false then t.tbl = t'.tbl else t.tbl = s.tbl ∧ t'.tbl = s'.tbl) ∧
      (if op = .bpcLdp false then t.pal = t'.pal else t.pal = s.pal ∧ t'.pal = s'.pal) ∧
      ∀ a, (t.mem.read a = s.mem.read a ∧ t'.mem.read a = s'.mem.read a) ∨ agreeAt t.mem t'.mem a = true

/-- The contents of a table that is not valid have no influence on any step (R32, R33, R48, R341): a step from the state
with other contents differs in that table only. -/
def Obligations.UnloadedTablesUnobservable : Prop :=
  ∀ (s : State) (tb : Vector Node 255) (pl : Vector Rgb 256), invariant s = true →
    (s.tblValid = false →
      (∀ t, step s = .next t → ∃ tb', step { s with tbl := tb } = .next { t with tbl := tb' }) ∧
      ∀ f, step s = .fault f → step { s with tbl := tb } = .fault f) ∧
    (s.palValid = false →
      (∀ t, step s = .next t → ∃ pl', step { s with pal := pl } = .next { t with pal := pl' }) ∧
      ∀ f, step s = .fault f → step { s with pal := pl } = .fault f)

/-- HUF.EXP as a function (R163): where the walk of the table over the source bits gives OUT_LEN bytes and ends within
the source, the operation completes after one step for each bit and one more, with those bytes in the destination and no
other byte of memory changed. -/
def Obligations.HufExpandsReference : Prop :=
  ∀ (s : State) (src : Nat → Byte) (fuel : Nat) (bs : List Byte) (bits : Nat), invariant s = true → s.inbox = [] →
    s.engine = some (.hufExp { node := 254, bitcnt := 0, remaining := s.x.outLen }) →
    (∀ k, k < s.x.srcLen.toNat → s.mem.read (s.x.srcBase.toNat + k) = some (src k)) →
    Reference.expand s.tbl src fuel s.x.outLen.toNat 0 = some (bs, bits) → bits ≤ 8 * s.x.srcLen.toNat →
    ∃ t, Host.Core.run Sys2Proof.core (bits + 1) s = .next t ∧
      t = { s with
        mem := t.mem, engine := none, done := true, outCnt := s.x.outLen, srcPos := BitVec.ofNat 32 ((bits + 7) / 8) } ∧
      t.mem.holds s.x.dstBase.toNat bs ∧ bs.length = s.x.outLen.toNat ∧
      ∀ a, a < s.x.dstBase.toNat ∨ s.x.dstBase.toNat + bs.length ≤ a → t.mem.read a = s.mem.read a

/-- LZS.DEC without STOPV as a function (R184): where the reference decoder gives OUT_LEN bytes from source bytes that are
all there, the operation completes with those bytes in the destination, SRC_POS the number of source bytes consumed,
control bytes among them, and no other byte of memory changed. -/
def Obligations.LzsExpandsReference : Prop :=
  ∀ (s : State) (src : Nat → Byte) (fuel : Nat) (bs : List Byte) (pos : Nat), invariant s = true → s.inbox = [] →
    s.engine = some (.lzsDec false { bucket := 1, srcpos := 0, remaining := s.x.outLen, stop := false }) →
    (∀ k, k < s.x.srcLen.toNat → s.mem.read (s.x.srcBase.toNat + k) = some (src k)) →
    Reference.lzss src s.x.outLen.toNat fuel [] 0 [] = some (bs, pos) → pos ≤ s.x.srcLen.toNat →
    ∃ n t, n ≤ s.x.outLen.toNat + 1 ∧ Host.Core.run Sys2Proof.core n s = .next t ∧
      t = { s with
        mem := t.mem, engine := none, done := true, outCnt := s.x.outLen, srcPos := BitVec.ofNat 32 pos } ∧
      t.mem.holds s.x.dstBase.toNat bs ∧ bs.length = s.x.outLen.toNat ∧
      ∀ a, a < s.x.dstBase.toNat ∨ s.x.dstBase.toNat + bs.length ≤ a → t.mem.read a = s.mem.read a

/-- A whole picture through BPC.RGB24 or BPC.RGB32: after W*H + 1 steps the pixel at column x, row y is the palette entry
that byte (x mod 4)*(W*H/4) + y*(W/4) + x div 4 of the chunk numbers, red, green and blue, then 0xFF in RGB32, and memory outside the picture is as it was (R107, R202,
R203). -/
def Obligations.PlanarPictureConverted : Prop :=
  ∀ (s : State) (src : Nat → Byte) (w h : Nat), invariant s = true → s.inbox = [] → w = s.x.width.toNat →
    h = s.x.height.toNat → (∀ k, k < w * h → s.mem.read (s.x.srcBase.toNat + k) = some (src k)) →
    (s.engine = some (.bpcRgb24 0) → ∃ t, Host.Core.run Sys2Proof.core (w * h + 1) s = .next t ∧
      t.engine = none ∧ t.done = true ∧ t.outCnt.toNat = w * h * 3 ∧
      (∀ x y c, x < w → y < h → c = src (x % 4 * (w * h / 4) + y * (w / 4) + x / 4) →
        t.mem.holds (s.x.dstBase.toNat + (y * w + x) * 3)
          [(s.pal[c.toNat]'c.isLt).r, (s.pal[c.toNat]'c.isLt).g, (s.pal[c.toNat]'c.isLt).b]) ∧
      ∀ a, a < s.x.dstBase.toNat ∨ s.x.dstBase.toNat + w * h * 3 ≤ a → t.mem.read a = s.mem.read a) ∧
    (s.engine = some (.bpcRgb32 0) → ∃ t, Host.Core.run Sys2Proof.core (w * h + 1) s = .next t ∧
      t.engine = none ∧ t.done = true ∧ t.outCnt.toNat = w * h * 4 ∧
      (∀ x y c, x < w → y < h → c = src (x % 4 * (w * h / 4) + y * (w / 4) + x / 4) →
        t.mem.holds (s.x.dstBase.toNat + (y * w + x) * 4)
          [(s.pal[c.toNat]'c.isLt).r, (s.pal[c.toNat]'c.isLt).g, (s.pal[c.toNat]'c.isLt).b, 0xFF#8]) ∧
      ∀ a, a < s.x.dstBase.toNat ∨ s.x.dstBase.toNat + w * h * 4 ≤ a → t.mem.read a = s.mem.read a)

/-- A picture of one colour scales to a picture of that colour, by SCL.2X and SCL.2X3 and with every kernel (R230). -/
def Obligations.FlatPictureScales : Prop :=
  ∀ (s : State) (bpp : BitVec 3) (c : Pixel) (f w h : Nat), invariant s = true → s.inbox = [] → w = s.x.width.toNat →
    h = s.x.height.toNat →
    HoldsImage s.mem s.x.srcBase.toNat s.x.srcStride.toNat bpp.toNat w h (fun _ _ => c) →
    (s.engine = some (.scl2x bpp 0) ∧ f = 2) ∨ (s.engine = some (.scl2x3 bpp 0) ∧ f = 3) →
    ∃ t, Host.Core.run Sys2Proof.core (w * h + 1) s = .next t ∧ t.engine = none ∧ t.done = true ∧
      HoldsImage t.mem s.x.dstBase.toNat s.x.dstStride.toNat bpp.toNat (2 * w) (f * h) (fun _ _ => c)

/-- A scanline that RLE.LINE has encoded expands back to its pixels, each with the byte swap, by the reference reader of
spec/95_test_vectors.md section 5 (R253, R256); and a destination region of W*bpp + ceil(2*W/3) bytes is always enough
(R257). -/
def Obligations.ScanlineExpandsBack : Prop :=
  ∀ (s : State) (bpp : BitVec 3) (px : Nat → Nat → Pixel) (w : Nat), invariant s = true → s.inbox = [] →
    w = s.x.width.toNat → s.engine = some (.rleLine bpp { row := 0, p := 0, outpos := 0 }) →
    HoldsImage s.mem s.x.srcBase.toNat (w * bpp.toNat) bpp.toNat w 1 px →
    w * bpp.toNat + (2 * w + 2) / 3 ≤ s.x.dstCap.toNat →
    ∃ n t bs, n ≤ w + 1 ∧ Host.Core.run Sys2Proof.core n s = .next t ∧ t.engine = none ∧ t.done = true ∧
      t.fault = false ∧ bs.length = t.outCnt.toNat ∧ t.mem.holds s.x.dstBase.toNat bs ∧
      Reference.unpack bpp.toNat bs.length bs = some (Reference.swappedRow (fun q => px q 0) w) ∧
      ∀ a, a < s.x.dstBase.toNat ∨ s.x.dstBase.toNat + bs.length ≤ a → t.mem.read a = s.mem.read a
end

