-- ==== Sys2Proof/Laws/Memory.lean ====
section
/-! SUPPORT. The laws of buffer memory: read after write, the frame of a write, the canonical form, and what the memory
primitives answer. -/

namespace Sys2Proof.Machine

/-! ### Reading after writing -/

@[simp] theorem Memory.read_nil (a : Nat) : Memory.read [] a = none := rfl

theorem Memory.read_cons (c : Host.Cell) (m : Memory) (a : Nat) :
    Memory.read (c :: m) a = if a = c.1 then some c.2 else Memory.read m a := rfl

@[simp] theorem Memory.read_write_same (m : Memory) (a : Nat) (b : Byte) : (m.write a b).read a = some b := by
  induction m with
  | nil => simp [Memory.write, Memory.read]
  | cons c m ih =>
    obtain ⟨a', b'⟩ := c
    simp only [Memory.write]
    split_ifs with h1 h2
    · simp [Memory.read]
    · simp [Memory.read]
    · simp [Memory.read, h2, ih]

theorem Memory.read_write_other (m : Memory) {a c : Nat} (b : Byte) (h : c ≠ a) :
    (m.write a b).read c = m.read c := by
  induction m with
  | nil => simp [Memory.write, Memory.read, h]
  | cons d m ih =>
    obtain ⟨a', b'⟩ := d
    simp only [Memory.write]
    split_ifs with h1 h2
    · simp [Memory.read, h]
    · subst h2; simp [Memory.read, h]
    · simp [Memory.read, ih]

@[simp] theorem Memory.writeAll_nil (m : Memory) (a : Nat) : m.writeAll a [] = m := rfl

@[simp] theorem Memory.writeAll_one (m : Memory) (a : Nat) (b : Byte) : m.writeAll a [b] = m.write a b := rfl

theorem Memory.read_writeAll_outside (bs : List Byte) : ∀ (m : Memory) (a c : Nat),
    c < a ∨ a + bs.length ≤ c → (m.writeAll a bs).read c = m.read c := by
  induction bs with
  | nil => intros; rfl
  | cons b bs ih =>
    intro m a c h
    simp only [List.length_cons] at h
    rw [Memory.writeAll, ih _ _ _ (by omega), Memory.read_write_other _ _ (by omega)]

theorem Memory.read_writeAll_inside (bs : List Byte) : ∀ (m : Memory) (a k : Nat) (h : k < bs.length),
    (m.writeAll a bs).read (a + k) = some bs[k] := by
  induction bs with
  | nil => intro _ _ _ h; simp at h
  | cons b bs ih =>
    intro m a k h
    cases k with
    | zero =>
      rw [Memory.writeAll, Memory.read_writeAll_outside _ _ _ _ (by omega)]
      simp
    | succ k =>
      rw [Memory.writeAll, show a + (k + 1) = a + 1 + k by omega]
      simpa using ih (m.write a b) (a + 1) k (by simpa using h)

/-! ### The canonical form -/

theorem Memory.wf_iff_pairwise (m : Memory) : m.wf = true ↔ m.Pairwise (fun c d => c.1 < d.1) := by
  induction m with
  | nil => simp [Memory.wf]
  | cons c m ih =>
    cases m with
    | nil => simp [Memory.wf]
    | cons d m =>
      obtain ⟨a, b⟩ := c
      obtain ⟨a', b'⟩ := d
      simp only [Memory.wf, Bool.and_eq_true, decide_eq_true_eq, ih]
      constructor
      · rintro ⟨h, hm⟩
        refine List.pairwise_cons.2 ⟨fun e he => ?_, hm⟩
        rcases List.mem_cons.1 he with rfl | he
        · exact h
        · exact lt_trans h ((List.pairwise_cons.1 hm).1 e he)
      · intro h
        exact ⟨(List.pairwise_cons.1 h).1 _ (List.mem_cons_self ..), (List.pairwise_cons.1 h).2⟩

theorem Memory.mem_write (m : Memory) (a : Nat) (b : Byte) {c : Host.Cell} (h : c ∈ m.write a b) :
    c = (a, b) ∨ c ∈ m := by
  induction m with
  | nil => simpa [Memory.write] using h
  | cons d m ih =>
    obtain ⟨a', b'⟩ := d
    simp only [Memory.write] at h
    split_ifs at h with h1 h2
    · simpa using h
    · rcases List.mem_cons.1 h with h | h
      · exact .inl h
      · exact .inr (List.mem_cons_of_mem _ h)
    · rcases List.mem_cons.1 h with h | h
      · exact .inr (h ▸ List.mem_cons_self ..)
      · rcases ih h with h | h
        · exact .inl h
        · exact .inr (List.mem_cons_of_mem _ h)

theorem Memory.write_wf (m : Memory) (a : Nat) (b : Byte) (h : m.wf = true) : (m.write a b).wf = true := by
  rw [Memory.wf_iff_pairwise] at h ⊢
  induction m with
  | nil => simp [Memory.write]
  | cons d m ih =>
    obtain ⟨a', b'⟩ := d
    obtain ⟨h0, hm⟩ := List.pairwise_cons.1 h
    simp only [Memory.write]
    split_ifs with h1 h2
    · refine List.pairwise_cons.2 ⟨fun c hc => ?_, h⟩
      rcases List.mem_cons.1 hc with rfl | hc
      · exact h1
      · exact lt_trans h1 (h0 c hc)
    · subst h2
      exact List.pairwise_cons.2 ⟨h0, hm⟩
    · refine List.pairwise_cons.2 ⟨fun c hc => ?_, ih hm⟩
      rcases Memory.mem_write m a b hc with rfl | hc
      · show a' < a
        omega
      · exact h0 c hc

theorem Memory.writeAll_wf (bs : List Byte) : ∀ (m : Memory) (a : Nat), m.wf = true → (m.writeAll a bs).wf = true := by
  induction bs with
  | nil => intro _ _ h; exact h
  | cons b bs ih => intro m a h; exact ih _ _ (Memory.write_wf m a b h)

theorem Memory.writeAll_below (n : Nat) (bs : List Byte) : ∀ (m : Memory) (a : Nat), a + bs.length ≤ n →
    (∀ c ∈ m, c.1 < n) → ∀ c ∈ m.writeAll a bs, c.1 < n := by
  induction bs with
  | nil => intro _ _ _ h; exact h
  | cons b bs ih =>
    intro m a hn h
    simp only [List.length_cons] at hn
    refine ih (m.write a b) (a + 1) (by omega) fun c hc => ?_
    rcases Memory.mem_write m a b hc with rfl | hc
    · show a < n
      omega
    · exact h c hc

/-- The memory of the reset state is in its canonical form. -/
theorem reset_mem_wf : State.reset.mem.wf = true := rfl

/-! ### What the primitives answer -/

theorem Memory.readAll_ok {m : Memory} {n : Nat} : ∀ {a : Nat} {bs : List Byte}, m.readAll a n = .ok bs →
    bs.length = n ∧ ∀ k (h : k < bs.length), m.read (a + k) = some bs[k] := by
  induction n with
  | zero =>
    intro a bs h
    simp only [Memory.readAll, Except.ok.injEq] at h
    subst h
    simp
  | succ n ih =>
    intro a bs h
    simp only [Memory.readAll] at h
    split at h
    · cases h
    · rename_i b hb
      split at h
      · cases h
      · rename_i bs' hbs
        simp only [Except.ok.injEq] at h
        subst h
        obtain ⟨hl, hr⟩ := ih hbs
        refine ⟨by simp [hl], fun k hk => ?_⟩
        cases k with
        | zero => simpa using hb
        | succ k => simpa [show a + (k + 1) = a + 1 + k by omega] using hr k (by simpa using hk)

theorem Memory.readAll_of_read {m : Memory} (bs : List Byte) : ∀ {a : Nat},
    (∀ k (h : k < bs.length), m.read (a + k) = some bs[k]) → m.readAll a bs.length = .ok bs := by
  induction bs with
  | nil => intros; rfl
  | cons b bs ih =>
    intro a h
    have h0 : m.read a = some b := h 0 (by simp)
    have ht : m.readAll (a + 1) bs.length = .ok bs := ih fun k hk => by
      rw [show a + 1 + k = a + (k + 1) by omega]
      exact h (k + 1) (by simpa using hk)
    simp [Memory.readAll, h0, ht]

/-- All that a successful `memRead` says. -/
theorem memRead_ok {s : State} {a n : Nat} {bs : List Byte} (h : memRead s a n = .ok bs) :
    a + n ≤ s.platform.memBytes ∧ bs.length = n ∧ ∀ k (hk : k < bs.length), s.mem.read (a + k) = some bs[k] := by
  unfold memRead at h
  split at h
  · exact ⟨‹_›, Memory.readAll_ok h⟩
  · cases h

/-- All that a successful `byteRead` says. -/
theorem byteRead_ok {s : State} {a : Nat} {b : Byte} (h : byteRead s a = .ok b) :
    a < s.platform.memBytes ∧ s.mem.read a = some b := by
  unfold byteRead at h
  split at h
  · split at h
    · simp_all
    · cases h
  · cases h

theorem byteRead_of_read {s : State} {a : Nat} {b : Byte} (ha : a < s.platform.memBytes) (h : s.mem.read a = some b) :
    byteRead s a = .ok b := by
  simp [byteRead, ha, h]

/-- All that a successful `memWrite` says: only buffer memory changes, and only at the bytes written. -/
theorem memWrite_ok {s s' : State} {a : Nat} {bs : List Byte} (h : memWrite s a bs = .ok s') :
    a + bs.length ≤ s.platform.memBytes ∧ s' = { s with mem := s.mem.writeAll a bs } := by
  unfold memWrite at h
  split at h
  · exact ⟨‹_›, by simpa using h.symm⟩
  · cases h

/-- All that a successful `dstWrite` says. -/
theorem dstWrite_ok {s s' : State} {i : Nat} {bs : List Byte} (h : dstWrite s i bs = .ok s') :
    s.x.dstBase.toNat + i + bs.length ≤ s.platform.memBytes ∧
      s' = { s with mem := s.mem.writeAll (s.x.dstBase.toNat + i) bs } := memWrite_ok h

theorem memWrite_of_le {s : State} {a : Nat} {bs : List Byte} (h : a + bs.length ≤ s.platform.memBytes) :
    memWrite s a bs = .ok { s with mem := s.mem.writeAll a bs } := by
  simp [memWrite, h]

/-- All that a successful byte read of the source says. -/
theorem srcByte_ok {s : State} {i : Nat} {b : Byte} (h : srcByte s i = .ok b) :
    s.x.srcBase.toNat + i < s.platform.memBytes ∧ s.mem.read (s.x.srcBase.toNat + i) = some b := byteRead_ok h

end Sys2Proof.Machine
end

