-- ==== Sys2Proof/Laws/State.lean ====
section
/-! SUPPORT. One lemma per field of State per update: what the update leaves in the field. -/

namespace Sys2Proof.Machine

/-! ### `pop` -/

@[simp] theorem pop_cmd (s : State) : s.pop.cmd = s.cmd := rfl
@[simp] theorem pop_done (s : State) : s.pop.done = s.done := rfl
@[simp] theorem pop_fault (s : State) : s.pop.fault = s.fault := rfl
@[simp] theorem pop_ovr (s : State) : s.pop.ovr = s.ovr := rfl
@[simp] theorem pop_tblValid (s : State) : s.pop.tblValid = s.tblValid := rfl
@[simp] theorem pop_palValid (s : State) : s.pop.palValid = s.palValid := rfl
@[simp] theorem pop_early (s : State) : s.pop.early = s.early := rfl
@[simp] theorem pop_ieDone (s : State) : s.pop.ieDone = s.ieDone := rfl
@[simp] theorem pop_ieFault (s : State) : s.pop.ieFault = s.ieFault := rfl
@[simp] theorem pop_x (s : State) : s.pop.x = s.x := rfl
@[simp] theorem pop_cause (s : State) : s.pop.cause = s.cause := rfl
@[simp] theorem pop_finfo (s : State) : s.pop.finfo = s.finfo := rfl
@[simp] theorem pop_srcPos (s : State) : s.pop.srcPos = s.srcPos := rfl
@[simp] theorem pop_outCnt (s : State) : s.pop.outCnt = s.outCnt := rfl
@[simp] theorem pop_tbl (s : State) : s.pop.tbl = s.tbl := rfl
@[simp] theorem pop_pal (s : State) : s.pop.pal = s.pal := rfl
@[simp] theorem pop_engine (s : State) : s.pop.engine = s.engine := rfl
@[simp] theorem pop_mem (s : State) : s.pop.mem = s.mem := rfl
@[simp] theorem pop_platform (s : State) : s.pop.platform = s.platform := rfl
@[simp] theorem pop_inbox (s : State) : s.pop.inbox = s.inbox.tail := rfl
@[simp] theorem pop_portOut (s : State) : s.pop.portOut = s.portOut := rfl
@[simp] theorem pop_memOut (s : State) : s.pop.memOut = s.memOut := rfl
@[simp] theorem pop_ramEpoch (s : State) : s.pop.ramEpoch = s.ramEpoch := rfl
@[simp] theorem pop_memEpoch (s : State) : s.pop.memEpoch = s.memEpoch := rfl

/-! ### `writeStatus` -/

@[simp] theorem writeStatus_cmd (v : Word) (s : State) : (writeStatus v s).cmd = s.cmd := rfl
@[simp] theorem writeStatus_done (v : Word) (s : State) : (writeStatus v s).done = (s.done && !v.getLsbD 1) := rfl
@[simp] theorem writeStatus_fault (v : Word) (s : State) : (writeStatus v s).fault = (s.fault && !v.getLsbD 2) := rfl
@[simp] theorem writeStatus_ovr (v : Word) (s : State) : (writeStatus v s).ovr = (s.ovr && !v.getLsbD 3) := rfl
@[simp] theorem writeStatus_tblValid (v : Word) (s : State) : (writeStatus v s).tblValid = s.tblValid := rfl
@[simp] theorem writeStatus_palValid (v : Word) (s : State) : (writeStatus v s).palValid = s.palValid := rfl
@[simp] theorem writeStatus_early (v : Word) (s : State) : (writeStatus v s).early = s.early := rfl
@[simp] theorem writeStatus_ieDone (v : Word) (s : State) : (writeStatus v s).ieDone = s.ieDone := rfl
@[simp] theorem writeStatus_ieFault (v : Word) (s : State) : (writeStatus v s).ieFault = s.ieFault := rfl
@[simp] theorem writeStatus_x (v : Word) (s : State) : (writeStatus v s).x = s.x := rfl
@[simp] theorem writeStatus_cause (v : Word) (s : State) : (writeStatus v s).cause = s.cause := rfl
@[simp] theorem writeStatus_finfo (v : Word) (s : State) : (writeStatus v s).finfo = s.finfo := rfl
@[simp] theorem writeStatus_srcPos (v : Word) (s : State) : (writeStatus v s).srcPos = s.srcPos := rfl
@[simp] theorem writeStatus_outCnt (v : Word) (s : State) : (writeStatus v s).outCnt = s.outCnt := rfl
@[simp] theorem writeStatus_tbl (v : Word) (s : State) : (writeStatus v s).tbl = s.tbl := rfl
@[simp] theorem writeStatus_pal (v : Word) (s : State) : (writeStatus v s).pal = s.pal := rfl
@[simp] theorem writeStatus_engine (v : Word) (s : State) : (writeStatus v s).engine = s.engine := rfl
@[simp] theorem writeStatus_mem (v : Word) (s : State) : (writeStatus v s).mem = s.mem := rfl
@[simp] theorem writeStatus_platform (v : Word) (s : State) : (writeStatus v s).platform = s.platform := rfl
@[simp] theorem writeStatus_inbox (v : Word) (s : State) : (writeStatus v s).inbox = s.inbox := rfl
@[simp] theorem writeStatus_portOut (v : Word) (s : State) : (writeStatus v s).portOut = s.portOut := rfl
@[simp] theorem writeStatus_memOut (v : Word) (s : State) : (writeStatus v s).memOut = s.memOut := rfl
@[simp] theorem writeStatus_ramEpoch (v : Word) (s : State) : (writeStatus v s).ramEpoch = s.ramEpoch := rfl
@[simp] theorem writeStatus_memEpoch (v : Word) (s : State) : (writeStatus v s).memEpoch = s.memEpoch := rfl

/-! ### `writeIe` -/

@[simp] theorem writeIe_cmd (v : Word) (s : State) : (writeIe v s).cmd = s.cmd := rfl
@[simp] theorem writeIe_done (v : Word) (s : State) : (writeIe v s).done = s.done := rfl
@[simp] theorem writeIe_fault (v : Word) (s : State) : (writeIe v s).fault = s.fault := rfl
@[simp] theorem writeIe_ovr (v : Word) (s : State) : (writeIe v s).ovr = s.ovr := rfl
@[simp] theorem writeIe_tblValid (v : Word) (s : State) : (writeIe v s).tblValid = s.tblValid := rfl
@[simp] theorem writeIe_palValid (v : Word) (s : State) : (writeIe v s).palValid = s.palValid := rfl
@[simp] theorem writeIe_early (v : Word) (s : State) : (writeIe v s).early = s.early := rfl
@[simp] theorem writeIe_ieDone (v : Word) (s : State) : (writeIe v s).ieDone = v.getLsbD 0 := rfl
@[simp] theorem writeIe_ieFault (v : Word) (s : State) : (writeIe v s).ieFault = v.getLsbD 1 := rfl
@[simp] theorem writeIe_x (v : Word) (s : State) : (writeIe v s).x = s.x := rfl
@[simp] theorem writeIe_cause (v : Word) (s : State) : (writeIe v s).cause = s.cause := rfl
@[simp] theorem writeIe_finfo (v : Word) (s : State) : (writeIe v s).finfo = s.finfo := rfl
@[simp] theorem writeIe_srcPos (v : Word) (s : State) : (writeIe v s).srcPos = s.srcPos := rfl
@[simp] theorem writeIe_outCnt (v : Word) (s : State) : (writeIe v s).outCnt = s.outCnt := rfl
@[simp] theorem writeIe_tbl (v : Word) (s : State) : (writeIe v s).tbl = s.tbl := rfl
@[simp] theorem writeIe_pal (v : Word) (s : State) : (writeIe v s).pal = s.pal := rfl
@[simp] theorem writeIe_engine (v : Word) (s : State) : (writeIe v s).engine = s.engine := rfl
@[simp] theorem writeIe_mem (v : Word) (s : State) : (writeIe v s).mem = s.mem := rfl
@[simp] theorem writeIe_platform (v : Word) (s : State) : (writeIe v s).platform = s.platform := rfl
@[simp] theorem writeIe_inbox (v : Word) (s : State) : (writeIe v s).inbox = s.inbox := rfl
@[simp] theorem writeIe_portOut (v : Word) (s : State) : (writeIe v s).portOut = s.portOut := rfl
@[simp] theorem writeIe_memOut (v : Word) (s : State) : (writeIe v s).memOut = s.memOut := rfl
@[simp] theorem writeIe_ramEpoch (v : Word) (s : State) : (writeIe v s).ramEpoch = s.ramEpoch := rfl
@[simp] theorem writeIe_memEpoch (v : Word) (s : State) : (writeIe v s).memEpoch = s.memEpoch := rfl

/-! ### `takeFault` -/

@[simp] theorem takeFault_cmd (c : Cause) (info : Nat) (s : State) : (takeFault c info s).cmd = s.cmd := rfl
@[simp] theorem takeFault_done (c : Cause) (info : Nat) (s : State) : (takeFault c info s).done = s.done := rfl
@[simp] theorem takeFault_fault (c : Cause) (info : Nat) (s : State) : (takeFault c info s).fault = true := rfl
@[simp] theorem takeFault_ovr (c : Cause) (info : Nat) (s : State) : (takeFault c info s).ovr = s.ovr := rfl
@[simp] theorem takeFault_tblValid (c : Cause) (info : Nat) (s : State) : (takeFault c info s).tblValid = s.tblValid := rfl
@[simp] theorem takeFault_palValid (c : Cause) (info : Nat) (s : State) : (takeFault c info s).palValid = s.palValid := rfl
@[simp] theorem takeFault_early (c : Cause) (info : Nat) (s : State) : (takeFault c info s).early = s.early := rfl
@[simp] theorem takeFault_ieDone (c : Cause) (info : Nat) (s : State) : (takeFault c info s).ieDone = s.ieDone := rfl
@[simp] theorem takeFault_ieFault (c : Cause) (info : Nat) (s : State) : (takeFault c info s).ieFault = s.ieFault := rfl
@[simp] theorem takeFault_x (c : Cause) (info : Nat) (s : State) : (takeFault c info s).x = s.x := rfl
@[simp] theorem takeFault_cause (c : Cause) (info : Nat) (s : State) : (takeFault c info s).cause = c := rfl
@[simp] theorem takeFault_finfo (c : Cause) (info : Nat) (s : State) : (takeFault c info s).finfo = clampWord info := rfl
@[simp] theorem takeFault_srcPos (c : Cause) (info : Nat) (s : State) : (takeFault c info s).srcPos = s.srcPos := rfl
@[simp] theorem takeFault_outCnt (c : Cause) (info : Nat) (s : State) : (takeFault c info s).outCnt = s.outCnt := rfl
@[simp] theorem takeFault_tbl (c : Cause) (info : Nat) (s : State) : (takeFault c info s).tbl = s.tbl := rfl
@[simp] theorem takeFault_pal (c : Cause) (info : Nat) (s : State) : (takeFault c info s).pal = s.pal := rfl
@[simp] theorem takeFault_engine (c : Cause) (info : Nat) (s : State) : (takeFault c info s).engine = none := rfl
@[simp] theorem takeFault_mem (c : Cause) (info : Nat) (s : State) : (takeFault c info s).mem = s.mem := rfl
@[simp] theorem takeFault_platform (c : Cause) (info : Nat) (s : State) : (takeFault c info s).platform = s.platform := rfl
@[simp] theorem takeFault_inbox (c : Cause) (info : Nat) (s : State) : (takeFault c info s).inbox = s.inbox := rfl
@[simp] theorem takeFault_portOut (c : Cause) (info : Nat) (s : State) : (takeFault c info s).portOut = s.portOut := rfl
@[simp] theorem takeFault_memOut (c : Cause) (info : Nat) (s : State) : (takeFault c info s).memOut = s.memOut := rfl
@[simp] theorem takeFault_ramEpoch (c : Cause) (info : Nat) (s : State) : (takeFault c info s).ramEpoch = s.ramEpoch := rfl
@[simp] theorem takeFault_memEpoch (c : Cause) (info : Nat) (s : State) : (takeFault c info s).memEpoch = s.memEpoch := rfl

/-! ### `complete` -/

@[simp] theorem complete_cmd (s : State) : (complete s).cmd = s.cmd := rfl
@[simp] theorem complete_done (s : State) : (complete s).done = true := rfl
@[simp] theorem complete_fault (s : State) : (complete s).fault = s.fault := rfl
@[simp] theorem complete_ovr (s : State) : (complete s).ovr = s.ovr := rfl
@[simp] theorem complete_tblValid (s : State) : (complete s).tblValid = s.tblValid := rfl
@[simp] theorem complete_palValid (s : State) : (complete s).palValid = s.palValid := rfl
@[simp] theorem complete_early (s : State) : (complete s).early = s.early := rfl
@[simp] theorem complete_ieDone (s : State) : (complete s).ieDone = s.ieDone := rfl
@[simp] theorem complete_ieFault (s : State) : (complete s).ieFault = s.ieFault := rfl
@[simp] theorem complete_x (s : State) : (complete s).x = s.x := rfl
@[simp] theorem complete_cause (s : State) : (complete s).cause = s.cause := rfl
@[simp] theorem complete_finfo (s : State) : (complete s).finfo = s.finfo := rfl
@[simp] theorem complete_srcPos (s : State) : (complete s).srcPos = s.srcPos := rfl
@[simp] theorem complete_outCnt (s : State) : (complete s).outCnt = s.outCnt := rfl
@[simp] theorem complete_tbl (s : State) : (complete s).tbl = s.tbl := rfl
@[simp] theorem complete_pal (s : State) : (complete s).pal = s.pal := rfl
@[simp] theorem complete_engine (s : State) : (complete s).engine = none := rfl
@[simp] theorem complete_mem (s : State) : (complete s).mem = s.mem := rfl
@[simp] theorem complete_platform (s : State) : (complete s).platform = s.platform := rfl
@[simp] theorem complete_inbox (s : State) : (complete s).inbox = s.inbox := rfl
@[simp] theorem complete_portOut (s : State) : (complete s).portOut = s.portOut := rfl
@[simp] theorem complete_memOut (s : State) : (complete s).memOut = s.memOut := rfl
@[simp] theorem complete_ramEpoch (s : State) : (complete s).ramEpoch = s.ramEpoch := rfl
@[simp] theorem complete_memEpoch (s : State) : (complete s).memEpoch = s.memEpoch := rfl

/-! ### `acceptCmd` -/

@[simp] theorem acceptCmd_cmd (v : Word) (s : State) : (acceptCmd v s).cmd = v := rfl
@[simp] theorem acceptCmd_done (v : Word) (s : State) : (acceptCmd v s).done = false := rfl
@[simp] theorem acceptCmd_fault (v : Word) (s : State) : (acceptCmd v s).fault = s.fault := rfl
@[simp] theorem acceptCmd_ovr (v : Word) (s : State) : (acceptCmd v s).ovr = s.ovr := rfl
@[simp] theorem acceptCmd_tblValid (v : Word) (s : State) : (acceptCmd v s).tblValid = s.tblValid := rfl
@[simp] theorem acceptCmd_palValid (v : Word) (s : State) : (acceptCmd v s).palValid = s.palValid := rfl
@[simp] theorem acceptCmd_early (v : Word) (s : State) : (acceptCmd v s).early = false := rfl
@[simp] theorem acceptCmd_ieDone (v : Word) (s : State) : (acceptCmd v s).ieDone = s.ieDone := rfl
@[simp] theorem acceptCmd_ieFault (v : Word) (s : State) : (acceptCmd v s).ieFault = s.ieFault := rfl
@[simp] theorem acceptCmd_x (v : Word) (s : State) : (acceptCmd v s).x = s.x := rfl
@[simp] theorem acceptCmd_cause (v : Word) (s : State) : (acceptCmd v s).cause = .none := rfl
@[simp] theorem acceptCmd_finfo (v : Word) (s : State) : (acceptCmd v s).finfo = 0 := rfl
@[simp] theorem acceptCmd_srcPos (v : Word) (s : State) : (acceptCmd v s).srcPos = 0 := rfl
@[simp] theorem acceptCmd_outCnt (v : Word) (s : State) : (acceptCmd v s).outCnt = 0 := rfl
@[simp] theorem acceptCmd_tbl (v : Word) (s : State) : (acceptCmd v s).tbl = s.tbl := rfl
@[simp] theorem acceptCmd_pal (v : Word) (s : State) : (acceptCmd v s).pal = s.pal := rfl
@[simp] theorem acceptCmd_engine (v : Word) (s : State) : (acceptCmd v s).engine = s.engine := rfl
@[simp] theorem acceptCmd_mem (v : Word) (s : State) : (acceptCmd v s).mem = s.mem := rfl
@[simp] theorem acceptCmd_platform (v : Word) (s : State) : (acceptCmd v s).platform = s.platform := rfl
@[simp] theorem acceptCmd_inbox (v : Word) (s : State) : (acceptCmd v s).inbox = s.inbox := rfl
@[simp] theorem acceptCmd_portOut (v : Word) (s : State) : (acceptCmd v s).portOut = s.portOut := rfl
@[simp] theorem acceptCmd_memOut (v : Word) (s : State) : (acceptCmd v s).memOut = s.memOut := rfl
@[simp] theorem acceptCmd_ramEpoch (v : Word) (s : State) : (acceptCmd v s).ramEpoch = s.ramEpoch := rfl
@[simp] theorem acceptCmd_memEpoch (v : Word) (s : State) : (acceptCmd v s).memEpoch = s.memEpoch := rfl

/-! ### `portRead` -/

@[simp] theorem portRead_cmd (o : Nat) (s : State) : (portRead o s).cmd = s.cmd := rfl
@[simp] theorem portRead_done (o : Nat) (s : State) : (portRead o s).done = s.done := rfl
@[simp] theorem portRead_fault (o : Nat) (s : State) : (portRead o s).fault = s.fault := rfl
@[simp] theorem portRead_ovr (o : Nat) (s : State) : (portRead o s).ovr = s.ovr := rfl
@[simp] theorem portRead_tblValid (o : Nat) (s : State) : (portRead o s).tblValid = s.tblValid := rfl
@[simp] theorem portRead_palValid (o : Nat) (s : State) : (portRead o s).palValid = s.palValid := rfl
@[simp] theorem portRead_early (o : Nat) (s : State) : (portRead o s).early = s.early := rfl
@[simp] theorem portRead_ieDone (o : Nat) (s : State) : (portRead o s).ieDone = s.ieDone := rfl
@[simp] theorem portRead_ieFault (o : Nat) (s : State) : (portRead o s).ieFault = s.ieFault := rfl
@[simp] theorem portRead_x (o : Nat) (s : State) : (portRead o s).x = s.x := rfl
@[simp] theorem portRead_cause (o : Nat) (s : State) : (portRead o s).cause = s.cause := rfl
@[simp] theorem portRead_finfo (o : Nat) (s : State) : (portRead o s).finfo = s.finfo := rfl
@[simp] theorem portRead_srcPos (o : Nat) (s : State) : (portRead o s).srcPos = s.srcPos := rfl
@[simp] theorem portRead_outCnt (o : Nat) (s : State) : (portRead o s).outCnt = s.outCnt := rfl
@[simp] theorem portRead_tbl (o : Nat) (s : State) : (portRead o s).tbl = s.tbl := rfl
@[simp] theorem portRead_pal (o : Nat) (s : State) : (portRead o s).pal = s.pal := rfl
@[simp] theorem portRead_engine (o : Nat) (s : State) : (portRead o s).engine = s.engine := rfl
@[simp] theorem portRead_mem (o : Nat) (s : State) : (portRead o s).mem = s.mem := rfl
@[simp] theorem portRead_platform (o : Nat) (s : State) : (portRead o s).platform = s.platform := rfl
@[simp] theorem portRead_inbox (o : Nat) (s : State) : (portRead o s).inbox = s.inbox := rfl
@[simp] theorem portRead_portOut (o : Nat) (s : State) : (portRead o s).portOut = regValue s (portReg o) := rfl
@[simp] theorem portRead_memOut (o : Nat) (s : State) : (portRead o s).memOut = s.memOut := rfl
@[simp] theorem portRead_ramEpoch (o : Nat) (s : State) : (portRead o s).ramEpoch = s.ramEpoch := rfl
@[simp] theorem portRead_memEpoch (o : Nat) (s : State) : (portRead o s).memEpoch = s.memEpoch := rfl

/-! ### `lzsAdvance` -/

@[simp] theorem lzsAdvance_cmd (stopv stop : Bool) (bucket : BitVec 9) (pos remaining : Nat) (s : State) : (lzsAdvance stopv stop bucket pos remaining s).cmd = s.cmd := rfl
@[simp] theorem lzsAdvance_done (stopv stop : Bool) (bucket : BitVec 9) (pos remaining : Nat) (s : State) : (lzsAdvance stopv stop bucket pos remaining s).done = s.done := rfl
@[simp] theorem lzsAdvance_fault (stopv stop : Bool) (bucket : BitVec 9) (pos remaining : Nat) (s : State) : (lzsAdvance stopv stop bucket pos remaining s).fault = s.fault := rfl
@[simp] theorem lzsAdvance_ovr (stopv stop : Bool) (bucket : BitVec 9) (pos remaining : Nat) (s : State) : (lzsAdvance stopv stop bucket pos remaining s).ovr = s.ovr := rfl
@[simp] theorem lzsAdvance_tblValid (stopv stop : Bool) (bucket : BitVec 9) (pos remaining : Nat) (s : State) : (lzsAdvance stopv stop bucket pos remaining s).tblValid = s.tblValid := rfl
@[simp] theorem lzsAdvance_palValid (stopv stop : Bool) (bucket : BitVec 9) (pos remaining : Nat) (s : State) : (lzsAdvance stopv stop bucket pos remaining s).palValid = s.palValid := rfl
@[simp] theorem lzsAdvance_early (stopv stop : Bool) (bucket : BitVec 9) (pos remaining : Nat) (s : State) : (lzsAdvance stopv stop bucket pos remaining s).early = s.early := rfl
@[simp] theorem lzsAdvance_ieDone (stopv stop : Bool) (bucket : BitVec 9) (pos remaining : Nat) (s : State) : (lzsAdvance stopv stop bucket pos remaining s).ieDone = s.ieDone := rfl
@[simp] theorem lzsAdvance_ieFault (stopv stop : Bool) (bucket : BitVec 9) (pos remaining : Nat) (s : State) : (lzsAdvance stopv stop bucket pos remaining s).ieFault = s.ieFault := rfl
@[simp] theorem lzsAdvance_x (stopv stop : Bool) (bucket : BitVec 9) (pos remaining : Nat) (s : State) : (lzsAdvance stopv stop bucket pos remaining s).x = s.x := rfl
@[simp] theorem lzsAdvance_cause (stopv stop : Bool) (bucket : BitVec 9) (pos remaining : Nat) (s : State) : (lzsAdvance stopv stop bucket pos remaining s).cause = s.cause := rfl
@[simp] theorem lzsAdvance_finfo (stopv stop : Bool) (bucket : BitVec 9) (pos remaining : Nat) (s : State) : (lzsAdvance stopv stop bucket pos remaining s).finfo = s.finfo := rfl
@[simp] theorem lzsAdvance_srcPos (stopv stop : Bool) (bucket : BitVec 9) (pos remaining : Nat) (s : State) : (lzsAdvance stopv stop bucket pos remaining s).srcPos = BitVec.ofNat 32 pos := rfl
@[simp] theorem lzsAdvance_outCnt (stopv stop : Bool) (bucket : BitVec 9) (pos remaining : Nat) (s : State) : (lzsAdvance stopv stop bucket pos remaining s).outCnt = s.outCnt := rfl
@[simp] theorem lzsAdvance_tbl (stopv stop : Bool) (bucket : BitVec 9) (pos remaining : Nat) (s : State) : (lzsAdvance stopv stop bucket pos remaining s).tbl = s.tbl := rfl
@[simp] theorem lzsAdvance_pal (stopv stop : Bool) (bucket : BitVec 9) (pos remaining : Nat) (s : State) : (lzsAdvance stopv stop bucket pos remaining s).pal = s.pal := rfl
@[simp] theorem lzsAdvance_engine (stopv stop : Bool) (bucket : BitVec 9) (pos remaining : Nat) (s : State) : (lzsAdvance stopv stop bucket pos remaining s).engine = some (.lzsDec stopv
      { bucket := bucket, srcpos := BitVec.ofNat 32 pos, remaining := BitVec.ofNat 32 remaining, stop := stop }) := rfl
@[simp] theorem lzsAdvance_mem (stopv stop : Bool) (bucket : BitVec 9) (pos remaining : Nat) (s : State) : (lzsAdvance stopv stop bucket pos remaining s).mem = s.mem := rfl
@[simp] theorem lzsAdvance_platform (stopv stop : Bool) (bucket : BitVec 9) (pos remaining : Nat) (s : State) : (lzsAdvance stopv stop bucket pos remaining s).platform = s.platform := rfl
@[simp] theorem lzsAdvance_inbox (stopv stop : Bool) (bucket : BitVec 9) (pos remaining : Nat) (s : State) : (lzsAdvance stopv stop bucket pos remaining s).inbox = s.inbox := rfl
@[simp] theorem lzsAdvance_portOut (stopv stop : Bool) (bucket : BitVec 9) (pos remaining : Nat) (s : State) : (lzsAdvance stopv stop bucket pos remaining s).portOut = s.portOut := rfl
@[simp] theorem lzsAdvance_memOut (stopv stop : Bool) (bucket : BitVec 9) (pos remaining : Nat) (s : State) : (lzsAdvance stopv stop bucket pos remaining s).memOut = s.memOut := rfl
@[simp] theorem lzsAdvance_ramEpoch (stopv stop : Bool) (bucket : BitVec 9) (pos remaining : Nat) (s : State) : (lzsAdvance stopv stop bucket pos remaining s).ramEpoch = s.ramEpoch := rfl
@[simp] theorem lzsAdvance_memEpoch (stopv stop : Bool) (bucket : BitVec 9) (pos remaining : Nat) (s : State) : (lzsAdvance stopv stop bucket pos remaining s).memEpoch = s.memEpoch := rfl

/-! ### `rleNext` -/

@[simp] theorem rleNext_cmd (bpp : Nat) (next : RleState → Operation) (h : RleState) (k : Packet) (s : State) : (rleNext bpp next h k s).cmd = s.cmd := rfl
@[simp] theorem rleNext_done (bpp : Nat) (next : RleState → Operation) (h : RleState) (k : Packet) (s : State) : (rleNext bpp next h k s).done = s.done := rfl
@[simp] theorem rleNext_fault (bpp : Nat) (next : RleState → Operation) (h : RleState) (k : Packet) (s : State) : (rleNext bpp next h k s).fault = s.fault := rfl
@[simp] theorem rleNext_ovr (bpp : Nat) (next : RleState → Operation) (h : RleState) (k : Packet) (s : State) : (rleNext bpp next h k s).ovr = s.ovr := rfl
@[simp] theorem rleNext_tblValid (bpp : Nat) (next : RleState → Operation) (h : RleState) (k : Packet) (s : State) : (rleNext bpp next h k s).tblValid = s.tblValid := rfl
@[simp] theorem rleNext_palValid (bpp : Nat) (next : RleState → Operation) (h : RleState) (k : Packet) (s : State) : (rleNext bpp next h k s).palValid = s.palValid := rfl
@[simp] theorem rleNext_early (bpp : Nat) (next : RleState → Operation) (h : RleState) (k : Packet) (s : State) : (rleNext bpp next h k s).early = s.early := rfl
@[simp] theorem rleNext_ieDone (bpp : Nat) (next : RleState → Operation) (h : RleState) (k : Packet) (s : State) : (rleNext bpp next h k s).ieDone = s.ieDone := rfl
@[simp] theorem rleNext_ieFault (bpp : Nat) (next : RleState → Operation) (h : RleState) (k : Packet) (s : State) : (rleNext bpp next h k s).ieFault = s.ieFault := rfl
@[simp] theorem rleNext_x (bpp : Nat) (next : RleState → Operation) (h : RleState) (k : Packet) (s : State) : (rleNext bpp next h k s).x = s.x := rfl
@[simp] theorem rleNext_cause (bpp : Nat) (next : RleState → Operation) (h : RleState) (k : Packet) (s : State) : (rleNext bpp next h k s).cause = s.cause := rfl
@[simp] theorem rleNext_finfo (bpp : Nat) (next : RleState → Operation) (h : RleState) (k : Packet) (s : State) : (rleNext bpp next h k s).finfo = s.finfo := rfl
@[simp] theorem rleNext_srcPos (bpp : Nat) (next : RleState → Operation) (h : RleState) (k : Packet) (s : State) : (rleNext bpp next h k s).srcPos = BitVec.ofNat 32
      ((rleNextRow s.x.width.toNat h k.count * s.x.width.toNat + rleNextP s.x.width.toNat h k.count) * bpp) := rfl
@[simp] theorem rleNext_outCnt (bpp : Nat) (next : RleState → Operation) (h : RleState) (k : Packet) (s : State) : (rleNext bpp next h k s).outCnt = BitVec.ofNat 32 (h.outpos.toNat + k.size) := rfl
@[simp] theorem rleNext_tbl (bpp : Nat) (next : RleState → Operation) (h : RleState) (k : Packet) (s : State) : (rleNext bpp next h k s).tbl = s.tbl := rfl
@[simp] theorem rleNext_pal (bpp : Nat) (next : RleState → Operation) (h : RleState) (k : Packet) (s : State) : (rleNext bpp next h k s).pal = s.pal := rfl
@[simp] theorem rleNext_engine (bpp : Nat) (next : RleState → Operation) (h : RleState) (k : Packet) (s : State) : (rleNext bpp next h k s).engine = some (next (h.advance s.x.width.toNat k)) := rfl
@[simp] theorem rleNext_mem (bpp : Nat) (next : RleState → Operation) (h : RleState) (k : Packet) (s : State) : (rleNext bpp next h k s).mem = s.mem := rfl
@[simp] theorem rleNext_platform (bpp : Nat) (next : RleState → Operation) (h : RleState) (k : Packet) (s : State) : (rleNext bpp next h k s).platform = s.platform := rfl
@[simp] theorem rleNext_inbox (bpp : Nat) (next : RleState → Operation) (h : RleState) (k : Packet) (s : State) : (rleNext bpp next h k s).inbox = s.inbox := rfl
@[simp] theorem rleNext_portOut (bpp : Nat) (next : RleState → Operation) (h : RleState) (k : Packet) (s : State) : (rleNext bpp next h k s).portOut = s.portOut := rfl
@[simp] theorem rleNext_memOut (bpp : Nat) (next : RleState → Operation) (h : RleState) (k : Packet) (s : State) : (rleNext bpp next h k s).memOut = s.memOut := rfl
@[simp] theorem rleNext_ramEpoch (bpp : Nat) (next : RleState → Operation) (h : RleState) (k : Packet) (s : State) : (rleNext bpp next h k s).ramEpoch = s.ramEpoch := rfl
@[simp] theorem rleNext_memEpoch (bpp : Nat) (next : RleState → Operation) (h : RleState) (k : Packet) (s : State) : (rleNext bpp next h k s).memEpoch = s.memEpoch := rfl

/-! ### `softReset` -/

@[simp] theorem softReset_cmd (s : State) : (softReset s).cmd = State.reset.cmd := rfl
@[simp] theorem softReset_done (s : State) : (softReset s).done = State.reset.done := rfl
@[simp] theorem softReset_fault (s : State) : (softReset s).fault = State.reset.fault := rfl
@[simp] theorem softReset_ovr (s : State) : (softReset s).ovr = State.reset.ovr := rfl
@[simp] theorem softReset_tblValid (s : State) : (softReset s).tblValid = State.reset.tblValid := rfl
@[simp] theorem softReset_palValid (s : State) : (softReset s).palValid = State.reset.palValid := rfl
@[simp] theorem softReset_early (s : State) : (softReset s).early = State.reset.early := rfl
@[simp] theorem softReset_ieDone (s : State) : (softReset s).ieDone = State.reset.ieDone := rfl
@[simp] theorem softReset_ieFault (s : State) : (softReset s).ieFault = State.reset.ieFault := rfl
@[simp] theorem softReset_x (s : State) : (softReset s).x = State.reset.x := rfl
@[simp] theorem softReset_cause (s : State) : (softReset s).cause = State.reset.cause := rfl
@[simp] theorem softReset_finfo (s : State) : (softReset s).finfo = State.reset.finfo := rfl
@[simp] theorem softReset_srcPos (s : State) : (softReset s).srcPos = State.reset.srcPos := rfl
@[simp] theorem softReset_outCnt (s : State) : (softReset s).outCnt = State.reset.outCnt := rfl
@[simp] theorem softReset_tbl (s : State) : (softReset s).tbl = Config.unspecTbl (s.ramEpoch + 1) := rfl
@[simp] theorem softReset_pal (s : State) : (softReset s).pal = Config.unspecPal (s.ramEpoch + 1) := rfl
@[simp] theorem softReset_engine (s : State) : (softReset s).engine = none := rfl
@[simp] theorem softReset_mem (s : State) : (softReset s).mem = s.mem := rfl
@[simp] theorem softReset_platform (s : State) : (softReset s).platform = s.platform := rfl
@[simp] theorem softReset_inbox (s : State) : (softReset s).inbox = s.inbox := rfl
@[simp] theorem softReset_portOut (s : State) : (softReset s).portOut = s.portOut := rfl
@[simp] theorem softReset_memOut (s : State) : (softReset s).memOut = s.memOut := rfl
@[simp] theorem softReset_ramEpoch (s : State) : (softReset s).ramEpoch = s.ramEpoch + 1 := rfl
@[simp] theorem softReset_memEpoch (s : State) : (softReset s).memEpoch = s.memEpoch := rfl

/-! ### `hardReset` -/

@[simp] theorem hardReset_cmd (s : State) : (hardReset s).cmd = State.reset.cmd := rfl
@[simp] theorem hardReset_done (s : State) : (hardReset s).done = State.reset.done := rfl
@[simp] theorem hardReset_fault (s : State) : (hardReset s).fault = State.reset.fault := rfl
@[simp] theorem hardReset_ovr (s : State) : (hardReset s).ovr = State.reset.ovr := rfl
@[simp] theorem hardReset_tblValid (s : State) : (hardReset s).tblValid = State.reset.tblValid := rfl
@[simp] theorem hardReset_palValid (s : State) : (hardReset s).palValid = State.reset.palValid := rfl
@[simp] theorem hardReset_early (s : State) : (hardReset s).early = State.reset.early := rfl
@[simp] theorem hardReset_ieDone (s : State) : (hardReset s).ieDone = State.reset.ieDone := rfl
@[simp] theorem hardReset_ieFault (s : State) : (hardReset s).ieFault = State.reset.ieFault := rfl
@[simp] theorem hardReset_x (s : State) : (hardReset s).x = State.reset.x := rfl
@[simp] theorem hardReset_cause (s : State) : (hardReset s).cause = State.reset.cause := rfl
@[simp] theorem hardReset_finfo (s : State) : (hardReset s).finfo = State.reset.finfo := rfl
@[simp] theorem hardReset_srcPos (s : State) : (hardReset s).srcPos = State.reset.srcPos := rfl
@[simp] theorem hardReset_outCnt (s : State) : (hardReset s).outCnt = State.reset.outCnt := rfl
@[simp] theorem hardReset_tbl (s : State) : (hardReset s).tbl = Config.unspecTbl (s.ramEpoch + 1) := rfl
@[simp] theorem hardReset_pal (s : State) : (hardReset s).pal = Config.unspecPal (s.ramEpoch + 1) := rfl
@[simp] theorem hardReset_engine (s : State) : (hardReset s).engine = none := rfl
@[simp] theorem hardReset_mem (s : State) : (hardReset s).mem = [] := rfl
@[simp] theorem hardReset_platform (s : State) : (hardReset s).platform = s.platform := rfl
@[simp] theorem hardReset_inbox (s : State) : (hardReset s).inbox = s.inbox := rfl
@[simp] theorem hardReset_portOut (s : State) : (hardReset s).portOut = s.portOut := rfl
@[simp] theorem hardReset_memOut (s : State) : (hardReset s).memOut = s.memOut := rfl
@[simp] theorem hardReset_ramEpoch (s : State) : (hardReset s).ramEpoch = s.ramEpoch + 1 := rfl
@[simp] theorem hardReset_memEpoch (s : State) : (hardReset s).memEpoch = s.memEpoch + 1 := rfl

/-! ### `busy` -/

@[simp] theorem pop_busy (s : State) : s.pop.busy = s.busy := rfl
@[simp] theorem acceptCmd_busy (v : Word) (s : State) : (acceptCmd v s).busy = s.busy := rfl
@[simp] theorem takeFault_busy (c : Cause) (info : Nat) (s : State) : (takeFault c info s).busy = false := rfl
@[simp] theorem complete_busy (s : State) : (complete s).busy = false := rfl
@[simp] theorem softReset_busy (s : State) : (softReset s).busy = false := rfl
@[simp] theorem hardReset_busy (s : State) : (hardReset s).busy = false := rfl
@[simp] theorem writeStatus_busy (v : Word) (s : State) : (writeStatus v s).busy = s.busy := rfl
@[simp] theorem writeIe_busy (v : Word) (s : State) : (writeIe v s).busy = s.busy := rfl

end Sys2Proof.Machine
end

