-- ==== Sys2Proof/Laws/Ops.lean ====
section
/-! SUPPORT. For each shared operation, once, everything it can do. -/

namespace Sys2Proof.Machine

/-! ### Engine steps, launches, commands -/

/-- An engine step that answers a next state completes, takes its work step, or enters the fault its work step
raised. -/
theorem engineStep_next {d : Bool} {w : Except Fault Work} {s t : State} (h : engineStep d w s = .next t) :
    (d = true ∧ t = complete s) ∨ (d = false ∧ w = .ok (.to t)) ∨
      (d = false ∧ ∃ c info, w = .ok (.raise c info) ∧ t = takeFault c info s) := by
  unfold engineStep at h
  split at h
  · exact .inl ⟨‹_›, by simpa using h.symm⟩
  · split at h
    · cases h
    · simp_all
    · simp_all

theorem engineStep_done (w : Except Fault Work) (s : State) : engineStep true w s = .next (complete s) := rfl

theorem engineStep_to {w : Except Fault Work} {s t : State} (h : w = .ok (.to t)) :
    engineStep false w s = .next t := by
  simp [engineStep, h]

theorem engineStep_raise {w : Except Fault Work} {s : State} {c : Cause} {info : Nat} (h : w = .ok (.raise c info)) :
    engineStep false w s = .next (takeFault c info s) := by
  simp [engineStep, h]

theorem engineStep_not_refused (d : Bool) (w : Except Fault Work) (s : State) (r : Refusal) :
    engineStep d w s ≠ .refused r := by
  unfold engineStep
  split
  · simp
  · split <;> simp

/-- A write of CMD is dropped, faults at launch, or starts the operation. -/
theorem writeCmd_cases (v : Word) (check : State → Option Raise) (start : State → Operation) (s : State) :
    ((s.busy || s.fault) = true ∧ writeCmd v check start s = { s with ovr := true }) ∨
      (s.busy = false ∧ s.fault = false ∧ ∃ c info, check (acceptCmd v s) = some (c, info) ∧
        writeCmd v check start s = takeFault c info (acceptCmd v s)) ∨
      (s.busy = false ∧ s.fault = false ∧ check (acceptCmd v s) = none ∧
        writeCmd v check start s = { acceptCmd v s with engine := some (start (acceptCmd v s)) }) := by
  unfold writeCmd
  split
  · exact .inl ⟨‹_›, rfl⟩
  · rename_i h
    simp only [Bool.or_eq_true, not_or, Bool.not_eq_true] at h
    split
    · exact .inr (.inl ⟨h.1, h.2, _, _, ‹_›, rfl⟩)
    · exact .inr (.inr ⟨h.1, h.2, ‹_›, rfl⟩)

/-- A write of an illegal word to CMD is dropped or faults. -/
theorem writeIllegal_cases (v : Word) (s : State) :
    ((s.busy || s.fault) = true ∧ writeIllegal v s = { s with ovr := true }) ∨
      (s.busy = false ∧ s.fault = false ∧ writeIllegal v s = takeFault .illegalCmd v.toNat (acceptCmd v s)) := by
  unfold writeIllegal
  split
  · exact .inl ⟨‹_›, rfl⟩
  · rename_i h
    simp only [Bool.or_eq_true, not_or, Bool.not_eq_true] at h
    exact .inr ⟨h.1, h.2, rfl⟩

theorem command_host {v : Word} {check : State → Option Raise} {start : State → Operation}
    {engine : State → Host.Outcome State Fault Refusal} {s : State} (h : s.hostTurn = true) :
    command v check start engine s = .next (writeCmd v check start s.pop) := by
  simp [command, h]

theorem command_engine {v : Word} {check : State → Option Raise} {start : State → Operation}
    {engine : State → Host.Outcome State Fault Refusal} {s : State} (h : s.hostTurn = false) :
    command v check start engine s = engine s.pop := by
  simp [command, h]

/-- Everything a command can do: the host's write of its word, or what its engine does. -/
theorem command_cases {v : Word} {check : State → Option Raise} {start : State → Operation}
    {engine : State → Host.Outcome State Fault Refusal} {s t : State} (h : command v check start engine s = .next t) :
    (s.hostTurn = true ∧ t = writeCmd v check start s.pop) ∨ (s.hostTurn = false ∧ engine s.pop = .next t) := by
  cases hs : s.hostTurn with
  | true => exact .inl ⟨rfl, by simpa [command_host hs] using h.symm⟩
  | false => exact .inr ⟨rfl, by simpa [command_engine hs] using h⟩

/-! ### The launch checks -/

theorem firstFail_none {l : List (Bool × Raise)} : firstFail l = none ↔ ∀ t ∈ l, t.1 = false := by
  induction l with
  | nil => simp [firstFail]
  | cons t l ih =>
    obtain ⟨f, r⟩ := t
    cases f <;> simp [firstFail, ih]

/-- The launch checks all pass exactly when each does (R139). -/
theorem launchCheck_none {i : Instr} {s : State} :
    launchCheck i s = none ↔ legalCheck i = none ∧ tableCheck s i = none ∧ paramCheck s.x i = none ∧
      regionCheck s.platform.memBytes s.x i = none ∧ needCheck s.x i = none := by
  simp [launchCheck]

/-- The launch checks look at the valid flags, the operand registers and MEM_BYTES only. -/
theorem launchCheck_congr {i : Instr} {s s' : State} (ht : s'.tblValid = s.tblValid) (hp : s'.palValid = s.palValid)
    (hx : s'.x = s.x) (hm : s'.platform = s.platform) : launchCheck i s' = launchCheck i s := by
  cases i <;> simp [launchCheck, tableCheck, ht, hp, hx, hm]

/-- Regions that passed check 4 lie in buffer memory, and a command that uses both has them disjoint (R137). -/
theorem regionCheck_none {memBytes : Nat} {x : Operands} {i : Instr} :
    regionCheck memBytes x i = none ↔
      x.srcBase.toNat + x.srcLen.toNat ≤ memBytes ∧
        (usesDst i = true → x.dstBase.toNat + x.dstCap.toNat ≤ memBytes ∧ overlap x = false) := by
  simp only [regionCheck, firstFail_none, List.mem_cons, List.not_mem_nil, or_false, forall_eq_or_imp, forall_eq,
    decide_eq_false_iff_not, not_lt, Bool.and_eq_false_iff]
  cases usesDst i <;> simp

theorem overrun_none {need : Option Nat} {len : Nat} {c : Cause} :
    overrun need len c = none ↔ ∀ n, need = some n → n ≤ len := by
  cases need <;> simp [overrun]

/-- The fixed needs passed check 5 exactly when each is at most the length of its region (R138). -/
theorem needCheck_none {x : Operands} {i : Instr} :
    needCheck x i = none ↔
      (∀ n, needSrc x i = some n → n ≤ x.srcLen.toNat) ∧ (∀ n, needDst x i = some n → n ≤ x.dstCap.toNat) := by
  simp [needCheck, overrun_none]

/-! ### Work steps: each changes a state in the one way its inversion lemma says -/

theorem hufLoadWork_to {s t : State} (h : hufLoadWork s = .ok (.to t)) :
    ∃ img, memRead s s.x.srcBase.toNat 1020 = .ok img ∧
      t = { s with
        tbl := imageTable img, tblValid := true, srcPos := 1020, outCnt := 0, engine := some (.hufLdt true) } := by
  unfold hufLoadWork at h
  split at h
  · cases h
  · exact ⟨_, ‹_›, by simpa using h.symm⟩

theorem bpcLoadWork_to {s t : State} (h : bpcLoadWork s = .ok (.to t)) :
    ∃ img, memRead s s.x.srcBase.toNat 768 = .ok img ∧
      t = { s with
        pal := imagePalette img, palValid := true, srcPos := 768, outCnt := 0, engine := some (.bpcLdp true) } := by
  unfold bpcLoadWork at h
  split at h
  · cases h
  · exact ⟨_, ‹_›, by simpa using h.symm⟩

/-- HUF.EXP's work step writes one literal at the output position and restarts at the root, or moves to a node. -/
theorem hufWork_to {g : HufState} {s t : State} (h : hufWork g s = .ok (.to t)) :
    g.bitcnt.toNat / 8 < s.x.srcLen.toNat ∧ ∃ byte, srcByte s (g.bitcnt.toNat / 8) = .ok byte ∧
      ((∃ b : Byte, s.x.dstBase.toNat + s.outCnt.toNat + 1 ≤ s.platform.memBytes ∧
          b = (followEntry s.tbl[g.node] (byte.getLsbD (g.bitcnt.toNat % 8))).setWidth 8 ∧
          t = { s with
            mem := s.mem.write (s.x.dstBase.toNat + s.outCnt.toNat) b
            outCnt := BitVec.ofNat 32 (s.outCnt.toNat + 1)
            srcPos := g.nextSrcPos
            engine := some (.hufExp (g.advance 254 (BitVec.ofNat 32 (g.remaining.toNat - 1)))) }) ∨
        (∃ node : Fin 255,
          node.val + 256 = (followEntry s.tbl[g.node] (byte.getLsbD (g.bitcnt.toNat % 8))).toNat ∧
          t = { s with srcPos := g.nextSrcPos, engine := some (.hufExp (g.advance node g.remaining)) })) := by
  unfold hufWork at h
  split at h
  · cases h
  · rename_i hlen
    split at h
    · cases h
    · rename_i byte hb
      refine ⟨by omega, byte, hb, ?_⟩
      unfold hufFollow at h
      split at h
      · split at h
        · cases h
        · rename_i s' hs'
          obtain ⟨hm, rfl⟩ := dstWrite_ok hs'
          simp only [Except.ok.injEq, Work.to.injEq] at h
          exact .inl ⟨_, hm, rfl, h.symm⟩
      · split at h
        · simp only [Except.ok.injEq, Work.to.injEq] at h
          rename_i hv hn
          exact .inr ⟨⟨_, hn⟩, by simp only; omega, h.symm⟩
        · cases h

/-- HUF.EXP's work step faults where the source ends or where the entry names no node. -/
theorem hufWork_raise {g : HufState} {s : State} {c : Cause} {info : Nat} (h : hufWork g s = .ok (.raise c info)) :
    (s.x.srcLen.toNat ≤ g.bitcnt.toNat / 8 ∧ c = .srcOverrun ∧ info = g.bitcnt.toNat / 8 + 1) ∨
      (g.bitcnt.toNat / 8 < s.x.srcLen.toNat ∧ c = .tableIndex ∧ 511 ≤ info ∧
        ∃ byte, srcByte s (g.bitcnt.toNat / 8) = .ok byte ∧
          info = (followEntry s.tbl[g.node] (byte.getLsbD (g.bitcnt.toNat % 8))).toNat) := by
  unfold hufWork at h
  split at h
  · simp only [Except.ok.injEq, Work.raise.injEq] at h
    exact .inl ⟨‹_›, h.1.symm, h.2.symm⟩
  · rename_i hlen
    split at h
    · cases h
    · rename_i byte hb
      unfold hufFollow at h
      split at h
      · split at h <;> cases h
      · split at h
        · cases h
        · simp only [Except.ok.injEq, Work.raise.injEq] at h
          obtain ⟨rfl, rfl⟩ := h
          exact .inr ⟨by omega, rfl, by omega, byte, hb, rfl⟩

/-- A conversion step writes one pixel at its deinterleaved place. -/
theorem bpcWork_to {pixel : Rgb → List Byte} {bpp : Nat} {next : Word → Operation} {i : Word} {s t : State}
    (h : bpcWork pixel bpp next i s = .ok (.to t)) :
    ∃ c, srcByte s i.toNat = .ok c ∧
      s.x.dstBase.toNat + planeOffset s.x.width.toNat s.x.height.toNat bpp i.toNat + (pixel (palEntry s c)).length ≤
        s.platform.memBytes ∧
      t = { s with
        mem := s.mem.writeAll (s.x.dstBase.toNat + planeOffset s.x.width.toNat s.x.height.toNat bpp i.toNat)
          (pixel (palEntry s c))
        srcPos := BitVec.ofNat 32 (i.toNat + 1)
        outCnt := BitVec.ofNat 32 (bpp * (i.toNat + 1))
        engine := some (next (BitVec.ofNat 32 (i.toNat + 1))) } := by
  unfold bpcWork at h
  split at h
  · cases h
  · split at h
    · cases h
    · rename_i c hc _ s' hs'
      obtain ⟨hm, rfl⟩ := dstWrite_ok hs'
      simp only [Except.ok.injEq, Work.to.injEq] at h
      exact ⟨c, hc, hm, h.symm⟩

theorem bpcWork_not_raise {pixel : Rgb → List Byte} {bpp : Nat} {next : Word → Operation} {i : Word} {s : State}
    {c : Cause} {info : Nat} : bpcWork pixel bpp next i s ≠ .ok (.raise c info) := by
  unfold bpcWork
  split
  · simp
  · split <;> simp

/-- The copy of a back-reference changes buffer memory only, only at the run's bytes, and keeps its form. -/
theorem copyRun_ok (dist : Nat) : ∀ {n o : Nat} {s s' : State}, copyRun s dist o n = .ok s' →
    (n = 0 ∨ s.x.dstBase.toNat + o + n ≤ s.platform.memBytes) ∧
    ∃ m, s' = { s with mem := m } ∧
      (∀ a, a < s.x.dstBase.toNat + o ∨ s.x.dstBase.toNat + o + n ≤ a → m.read a = s.mem.read a) ∧
      (s.mem.wf = true → m.wf = true) ∧
      ((∀ c ∈ s.mem, c.1 < s.platform.memBytes) → ∀ c ∈ m, c.1 < s.platform.memBytes) := by
  intro n
  induction n with
  | zero =>
    intro o s s' h
    simp only [copyRun, Except.ok.injEq] at h
    subst h
    exact ⟨.inl rfl, s.mem, rfl, fun _ _ => rfl, id, id⟩
  | succ n ih =>
    intro o s s' h
    simp only [copyRun] at h
    split at h
    · cases h
    · split at h
      · cases h
      · rename_i b _ _ s1 hs1
        obtain ⟨hm, rfl⟩ := dstWrite_ok hs1
        simp only [List.length_singleton] at hm
        obtain ⟨hn, m, rfl, hr, hw, hb⟩ := ih h
        simp only [Memory.writeAll_one] at hr hw hb
        refine ⟨.inr ?_, m, rfl, fun a ha => ?_, fun hwf => hw (Memory.write_wf _ _ _ hwf), fun hlt => hb fun c hc => ?_⟩
        · change n = 0 ∨ s.x.dstBase.toNat + (o + 1) + n ≤ s.platform.memBytes at hn
          omega
        · rw [hr a (by omega), Memory.read_write_other _ _ (by omega)]
        · rcases Memory.mem_write _ _ _ hc with rfl | hc
          · show _ < s.platform.memBytes
            omega
          · exact hlt c hc

/-- The writes of a block change buffer memory only, only at the sub-pixels' bytes, and keep its form. -/
theorem writeBlock_ok (bpp f px py : Nat) : ∀ {es : List Pixel} {j : Nat} {s s' : State},
    writeBlock bpp f px py es j s = .ok s' →
    ∃ m, s' = { s with mem := m } ∧
      (∀ a, (∀ k (h : k < es.length), a < s.x.dstBase.toNat + subOffset s.x bpp f px py (j + k) ∨
          s.x.dstBase.toNat + subOffset s.x bpp f px py (j + k) + es[k].length ≤ a) → m.read a = s.mem.read a) ∧
      (s.mem.wf = true → m.wf = true) ∧
      ((∀ c ∈ s.mem, c.1 < s.platform.memBytes) → ∀ c ∈ m, c.1 < s.platform.memBytes) := by
  intro es
  induction es with
  | nil =>
    intro j s s' h
    simp only [writeBlock, Except.ok.injEq] at h
    subst h
    exact ⟨s.mem, rfl, fun _ _ => rfl, id, id⟩
  | cons e es ih =>
    intro j s s' h
    simp only [writeBlock] at h
    split at h
    · cases h
    · rename_i s1 hs1
      obtain ⟨hm, rfl⟩ := dstWrite_ok hs1
      obtain ⟨m, rfl, hr, hw, hb⟩ := ih h
      refine ⟨m, rfl, fun a ha => ?_, fun hwf => hw (Memory.writeAll_wf _ _ _ hwf),
        fun hlt => hb (Memory.writeAll_below _ _ _ _ hm hlt)⟩
      rw [hr a fun k hk => ?_]
      · exact Memory.read_writeAll_outside _ _ _ _ (ha 0 (by simp))
      · have := ha (k + 1) (by simpa using hk)
        rw [show j + (k + 1) = j + 1 + k by omega] at this
        exact this

/-! ### RLE packets -/

theorem sameCount_le {px : Nat → Except Fault Pixel} {e : Pixel} : ∀ {n q k : Nat},
    sameCount px e q n = .ok k → k ≤ n := by
  intro n
  induction n with
  | zero => intro q k h; simp only [sameCount, Except.ok.injEq] at h; omega
  | succ n ih =>
    intro q k h
    simp only [sameCount] at h
    split at h
    · cases h
    · split at h
      · split at h
        · cases h
        · rename_i j hj
          simp only [Except.ok.injEq] at h
          have := ih hj
          omega
      · simp only [Except.ok.injEq] at h; omega

theorem rawMore_le {px : Nat → Except Fault Pixel} {w : Nat} : ∀ {n q k : Nat},
    rawMore px w q n = .ok k → k ≤ n ∧ (k = 0 ∨ q + k ≤ w) := by
  intro n
  induction n with
  | zero => intro q k h; simp only [rawMore, Except.ok.injEq] at h; omega
  | succ n ih =>
    intro q k h
    simp only [rawMore] at h
    split at h
    · simp only [Except.ok.injEq] at h; omega
    · split at h
      · simp only [Except.ok.injEq] at h; omega
      · split at h
        · cases h
        · split at h
          · cases h
          · split at h
            · simp only [Except.ok.injEq] at h; omega
            · split at h
              · cases h
              · rename_i j hj
                simp only [Except.ok.injEq] at h
                have := ih hj
                omega

theorem swapPixel_length (p : Pixel) : (swapPixel p).length = p.length := by
  unfold swapPixel
  split <;> simp

theorem rawBytes_length {px : Nat → Except Fault Pixel} {bpp : Nat}
    (hpx : ∀ q e, px q = .ok e → e.length = bpp) : ∀ {n q : Nat} {bs : List Byte},
    rawBytes px q n = .ok bs → bs.length = n * bpp := by
  intro n
  induction n with
  | zero => intro q bs h; simp only [rawBytes, Except.ok.injEq] at h; subst h; simp
  | succ n ih =>
    intro q bs h
    simp only [rawBytes] at h
    split at h
    · cases h
    · rename_i e he
      split at h
      · cases h
      · rename_i bs' hbs
        simp only [Except.ok.injEq] at h
        subst h
        simp only [List.length_append, swapPixel_length, hpx _ _ he, ih hbs]
        ring

theorem rowPixel_length {s : State} {bpp y q : Nat} {e : Pixel} (h : rowPixel s bpp y q = .ok e) : e.length = bpp :=
  (memRead_ok h).2.1

/-- A packet covers 1 to 128 pixels of the row from `p` on, and its bytes are as many as its size says. -/
theorem choosePacket_ok {px : Nat → Except Fault Pixel} {bpp w p : Nat} {k : Packet}
    (hpx : ∀ q e, px q = .ok e → e.length = bpp) (hp : p < w) (h : choosePacket px bpp w p = .ok k) :
    1 ≤ k.count ∧ k.count ≤ 128 ∧ p + k.count ≤ w ∧ ∀ bs, k.bytes = .ok bs → bs.length = k.size := by
  unfold choosePacket at h
  split at h
  · cases h
  · rename_i r hr
    unfold runCount at hr
    split at hr
    · cases hr
    · rename_i e he
      split at hr
      · cases hr
      · rename_i j hj
        simp only [Except.ok.injEq] at hr
        have hj' := sameCount_le hj
        split at h
        · simp only [Except.ok.injEq] at h
          subst h
          refine ⟨by simp only [repeatPacket]; omega, by simp only [repeatPacket]; omega,
            by simp only [repeatPacket]; omega, fun bs hbs => ?_⟩
          simp only [repeatPacket, he, Except.ok.injEq] at hbs
          subst hbs
          simp only [List.length_cons, swapPixel_length, hpx _ _ he, repeatPacket]
          omega
        · split at h
          · cases h
          · rename_i m hm
            have hm' := rawMore_le hm
            simp only [Except.ok.injEq] at h
            subst h
            refine ⟨by simp only [rawPacket]; omega, by simp only [rawPacket]; omega,
              by simp only [rawPacket]; omega, fun bs hbs => ?_⟩
            simp only [rawPacket] at hbs
            split at hbs
            · cases hbs
            · rename_i bs' hbs'
              simp only [Except.ok.injEq] at hbs
              subst hbs
              simp only [List.length_cons, rawBytes_length hpx hbs', rawPacket]
              omega

/-- An RLE step writes one whole packet at the output position. -/
theorem rleWork_to {bpp y : Nat} {next : RleState → Operation} {g : RleState} {s t : State}
    (h : rleWork bpp y next g s = .ok (.to t)) :
    ∃ k bs, choosePacket (rowPixel s bpp y) bpp s.x.width.toNat g.p.toNat = .ok k ∧ k.bytes = .ok bs ∧
      g.outpos.toNat + k.size ≤ s.x.dstCap.toNat ∧
      s.x.dstBase.toNat + g.outpos.toNat + bs.length ≤ s.platform.memBytes ∧
      t = rleNext bpp next g k { s with mem := s.mem.writeAll (s.x.dstBase.toNat + g.outpos.toNat) bs } := by
  unfold rleWork at h
  split at h
  · cases h
  · rename_i k hk
    split at h
    · cases h
    · split at h
      · cases h
      · rename_i bs hbs
        split at h
        · cases h
        · rename_i s' hs'
          obtain ⟨hm, rfl⟩ := dstWrite_ok hs'
          simp only [Except.ok.injEq, Work.to.injEq] at h
          exact ⟨k, bs, hk, hbs, by omega, hm, h.symm⟩

/-- An RLE step faults only where the packet does not fit. -/
theorem rleWork_raise {bpp y : Nat} {next : RleState → Operation} {g : RleState} {s : State} {c : Cause} {info : Nat}
    (h : rleWork bpp y next g s = .ok (.raise c info)) :
    ∃ k, choosePacket (rowPixel s bpp y) bpp s.x.width.toNat g.p.toNat = .ok k ∧
      s.x.dstCap.toNat < g.outpos.toNat + k.size ∧ c = .dstOverrun ∧ info = g.outpos.toNat + k.size := by
  unfold rleWork at h
  split at h
  · cases h
  · rename_i k hk
    split at h
    · simp only [Except.ok.injEq, Work.raise.injEq] at h
      exact ⟨k, hk, ‹_›, h.1.symm, h.2.symm⟩
    · split at h
      · cases h
      · split at h <;> cases h

/-! ### Scaler -/

/-- A scaler step reads its neighbourhood, writes one block, and counts. -/
theorem sclWork_to {kernel : Nbhd → List Pixel} {bpp f : Nat} {next : Word → Operation} {k : Word} {s t : State}
    (h : sclWork kernel bpp f next k s = .ok (.to t)) :
    ∃ n s', neighbours s bpp (k.toNat % s.x.width.toNat) (k.toNat / s.x.width.toNat) = .ok n ∧
      writeBlock bpp f (k.toNat % s.x.width.toNat) (k.toNat / s.x.width.toNat) (kernel n) 0 s = .ok s' ∧
      t = { s' with
        srcPos := BitVec.ofNat 32 ((k.toNat + 1) * bpp)
        outCnt := BitVec.ofNat 32 ((k.toNat + 1) * bpp * 2 * f)
        engine := some (next (BitVec.ofNat 32 (k.toNat + 1))) } := by
  unfold sclWork at h
  split at h
  · cases h
  · split at h
    · cases h
    · rename_i n hn _ s' hs'
      simp only [Except.ok.injEq, Work.to.injEq] at h
      exact ⟨n, s', hn, hs', h.symm⟩

theorem sclWork_not_raise {kernel : Nbhd → List Pixel} {bpp f : Nat} {next : Word → Operation} {k : Word} {s : State}
    {c : Cause} {info : Nat} : sclWork kernel bpp f next k s ≠ .ok (.raise c info) := by
  unfold sclWork
  split
  · simp
  · split <;> simp

/-! ### LZSS -/

/-- A literal token: one source byte to the output position. -/
theorem lzsLiteral_to {stopv : Bool} {g : LzsState} {bucket : BitVec 9} {pos : Nat} {s t : State}
    (h : lzsLiteral stopv g bucket pos s = .ok (.to t)) :
    pos < s.x.srcLen.toNat ∧ ∃ b, srcByte s pos = .ok b ∧
      s.x.dstBase.toNat + s.outCnt.toNat + 1 ≤ s.platform.memBytes ∧
      t = lzsAdvance stopv g.stop bucket (pos + 1) (g.remaining.toNat - 1)
        { s with
          mem := s.mem.write (s.x.dstBase.toNat + s.outCnt.toNat) b
          outCnt := BitVec.ofNat 32 (s.outCnt.toNat + 1) } := by
  unfold lzsLiteral at h
  split at h
  · cases h
  · split at h
    · cases h
    · split at h
      · cases h
      · rename_i b hb _ s' hs'
        obtain ⟨hm, rfl⟩ := dstWrite_ok hs'
        simp only [Except.ok.injEq, Work.to.injEq] at h
        exact ⟨by omega, b, hb, hm, h.symm⟩

/-- A back-reference token: the stop sentinel, or a run copied within the output. -/
theorem lzsToken_to {stopv : Bool} {g : LzsState} {bucket : BitVec 9} {pos : Nat} {tok : Half} {s t : State}
    (h : lzsToken stopv g bucket pos tok s = .ok (.to t)) :
    (stopv = true ∧ lzsStop s.platform.stopPred tok = true ∧
        t = lzsAdvance stopv true bucket pos g.remaining.toNat { s with early := true }) ∨
      ((stopv && lzsStop s.platform.stopPred tok) = false ∧ tokenDist tok ≤ s.outCnt.toNat ∧
        tokenLen tok ≤ g.remaining.toNat ∧
        ∃ s', copyRun s (tokenDist tok) s.outCnt.toNat (tokenLen tok) = .ok s' ∧
          t = lzsAdvance stopv g.stop bucket pos (g.remaining.toNat - tokenLen tok)
            { s' with outCnt := BitVec.ofNat 32 (s.outCnt.toNat + tokenLen tok) }) := by
  unfold lzsToken at h
  split at h
  · rename_i hs
    simp only [Bool.and_eq_true] at hs
    simp only [Except.ok.injEq, Work.to.injEq] at h
    exact .inl ⟨hs.1, hs.2, h.symm⟩
  · rename_i hs
    split at h
    · cases h
    · split at h
      · cases h
      · split at h
        · cases h
        · rename_i s' hs'
          simp only [Except.ok.injEq, Work.to.injEq] at h
          exact .inr ⟨by simpa using hs, by omega, by omega, s', hs', h.symm⟩

/-- A back-reference: two source bytes, then its token. -/
theorem lzsBackref_to {stopv : Bool} {g : LzsState} {bucket : BitVec 9} {pos : Nat} {s t : State}
    (h : lzsBackref stopv g bucket pos s = .ok (.to t)) :
    pos + 1 < s.x.srcLen.toNat ∧ ∃ b0 b1, srcByte s pos = .ok b0 ∧ srcByte s (pos + 1) = .ok b1 ∧
      lzsToken stopv g bucket (pos + 2) (le16 b0 b1) s = .ok (.to t) := by
  unfold lzsBackref at h
  split at h
  · cases h
  · split at h
    · cases h
    · split at h
      · cases h
      · exact ⟨by omega, _, _, ‹_›, ‹_›, h⟩

/-- A work step: the control bit comes from the bucket, or from the control byte that refills it. -/
theorem lzsWork_to {stopv : Bool} {g : LzsState} {s t : State} (h : lzsWork stopv g s = .ok (.to t)) :
    (g.bucket ≠ 1#9 ∧ lzsItem stopv g g.bucket g.srcpos.toNat s = .ok (.to t)) ∨
      (g.bucket = 1#9 ∧ g.srcpos.toNat < s.x.srcLen.toNat ∧ ∃ ctl, srcByte s g.srcpos.toNat = .ok ctl ∧
        lzsItem stopv g (1#1 ++ ctl) (g.srcpos.toNat + 1) s = .ok (.to t)) := by
  unfold lzsWork at h
  split at h
  · split at h
    · cases h
    · split at h
      · cases h
      · exact .inr ⟨‹_›, by omega, _, ‹_›, h⟩
  · exact .inl ⟨‹_›, h⟩

end Sys2Proof.Machine
end

