-- ==== Sys2Proof/Laws/Exec.lean ====
section
/-! SUPPORT. What `exec` and `step` are, said once for all instructions: at the host's turn a write of CMD, at the
engine's turn an engine step of the operation in progress. Later proofs cite these and unfold neither. -/

namespace Sys2Proof.Machine

/-- The work step of an operation, by the definition its meaning calls. -/
def workStep (s : State) : Operation → Except Fault Work
  | .hufLdt _ => hufLoadWork s
  | .hufExp h => hufWork h s
  | .lzsDec stopv h => lzsWork stopv h s
  | .bpcLdp _ => bpcLoadWork s
  | .bpcRgb24 i => bpcWork rgb24Bytes 3 .bpcRgb24 i s
  | .bpcRgb32 i => bpcWork rgb32Bytes 4 .bpcRgb32 i s
  | .scl2x bpp k => sclWork (kernel2x s.platform.k2x) bpp.toNat 2 (.scl2x bpp) k s
  | .scl2x3 bpp k => sclWork (kernel2x3 s.platform.k2x3) bpp.toNat 3 (.scl2x3 bpp) k s
  | .rleLine bpp h => rleWork bpp.toNat 0 (.rleLine bpp) h s
  | .rleImg bpp topdown h =>
    rleWork bpp.toNat (imgRow topdown s.x.height.toNat h.row.toNat) (.rleImg bpp topdown) h s

/-- The done test of a meaning, as a test of naturals. -/
def doneTest (s : State) : Operation → Bool
  | .hufLdt loaded | .bpcLdp loaded => loaded
  | .hufExp h => h.remaining.toNat == 0
  | .lzsDec _ h => h.remaining.toNat == 0 || h.stop
  | .bpcRgb24 i | .bpcRgb32 i => i.toNat == pixelCount s.x
  | .scl2x _ k | .scl2x3 _ k => k.toNat == s.x.width.toNat * s.x.height.toNat
  | .rleLine _ h => rleDone 1 h s.x
  | .rleImg _ _ h => rleDone s.x.height.toNat h s.x

/-- At the engine's turn the meaning of the operation in progress is one engine step of it. -/
theorem exec_engine {s : State} {op : Operation} (ht : s.hostTurn = false) (he : s.engine = some op) :
    exec op.instr s = engineStep (doneTest s.pop op) (workStep s.pop op) s.pop := by
  cases op <;>
    simp [exec, Operation.instr, execHufLdt, execHufExp, execLzsDec, execBpcLdp, execBpcRgb24, execBpcRgb32, execScl2x,
      execScl2x3, execRleLine, execRleImg, command_engine ht, hufLoadStep, hufExpStep, lzsStep, bpcLoadStep,
      bpcRgb24Step, bpcRgb32Step, scl2xStep, scl2x3Step, rleLineStep, rleImgStep, he, doneTest, workStep]

/-- At the host's turn the meaning of a command is a write of its word to CMD. -/
theorem exec_host {s : State} {i : Instr} (hi : isCommand i = true) (ht : s.hostTurn = true) :
    ∃ start : State → Operation, exec i s = .next (writeCmd i.word (launchCheck i) start s.pop) ∧
      ∀ a, launchOperation a.x i = some (start a) := by
  cases i <;>
    simp only [exec, execHufLdt, execHufExp, execLzsDec, execBpcLdp, execBpcRgb24, execBpcRgb32, execScl2x, execScl2x3,
      execRleLine, execRleImg, command_host ht, isCommand, reduceCtorEq] at hi ⊢ <;>
    exact ⟨_, rfl, fun a => rfl⟩

/-- A step is the meaning of the instruction it fetches, or a transition without one. -/
theorem step_cases (s : State) :
    (∃ i, fetch s = some i ∧ step s = exec i s) ∨ (fetch s = none ∧ step s = otherTransition s) := by
  cases h : fetch s with
  | none => exact .inr ⟨rfl, by simp [step, h]⟩
  | some i => exact .inl ⟨i, rfl, by simp [step, h]⟩

/-- What is fetched is the instruction of the host's next write, or at the engine's turn that of the operation in
progress. -/
theorem fetch_cases {s : State} {i : Instr} (h : fetch s = some i) :
    (∃ o v rest, s.inbox = .write o v :: rest ∧ decode o v = .ok i ∧ s.hostTurn = true) ∨
      (s.hostTurn = false ∧ ∃ op, s.engine = some op ∧ op.instr = i) := by
  unfold fetch at h
  split at h
  · rename_i o v rest hin
    refine .inl ⟨o, v, rest, hin, ?_, by simp [State.hostTurn, hin]⟩
    cases hd : decode o v with
    | error e => rw [hd] at h; cases h
    | ok j => rw [hd] at h; cases h; rfl
  all_goals first
    | cases h
    | (rename_i hin
       refine .inr ⟨by simp [State.hostTurn, hin], ?_⟩
       simpa using h)

/-- The host's acknowledgement of a fault, a write of STATUS with bit 2 set, is leaving the faulted state (R310). -/
theorem step_ackFault {s : State} {rest : List Access} (h : s.inbox = .write 0x08 0x4#32 :: rest) :
    step s = .next (ackFault s.pop) := by
  simp [step, fetch, h, decode, cmdOffset, ctrlOffset, Except.toOption, otherTransition, plainWrite, portReg, ackFault]

end Sys2Proof.Machine
end

