-- ==== Sys2Proof/Laws/Invariant.lean ====
section
/-! SUPPORT. What the invariant says of the two remarks of spec/10_state.md that other rules do not bear out in full: EARLY
and DONE (R24, log 24), and the row count of RLE.LINE (R45, log 25). -/

namespace Sys2Proof.Machine

/-- The invariant holds of the operation in progress. -/
theorem invariant_operation {s : State} {op : Operation} (hi : invariant s = true) (he : s.engine = some op) :
    progressOk s op = true ∧ ((∀ stopv h, op ≠ .lzsDec stopv h) → s.early = false) := by
  have ho : operationOk s = true := by
    simp only [invariant, Bool.and_eq_true] at hi
    exact hi.2
  simp only [operationOk, he, Bool.and_eq_true] at ho
  refine ⟨ho.1.2, fun hn => ?_⟩
  have hlast := ho.2
  cases op <;> simp_all

/-- While EARLY is 1 in a running operation, it is LZS.DEC that has met its stop sentinel (R24, R183). -/
theorem early_busy_stopped {s : State} {op : Operation} (hi : invariant s = true) (he : s.engine = some op)
    (hearly : s.early = true) : ∃ stopv h, op = .lzsDec stopv h ∧ h.stop = true := by
  obtain ⟨hp, hother⟩ := invariant_operation hi he
  by_cases hn : ∀ stopv h, op ≠ .lzsDec stopv h
  · rw [hother hn] at hearly
    cases hearly
  · push Not at hn
    obtain ⟨stopv, h, rfl⟩ := hn
    simp only [progressOk, Bool.and_eq_true, beq_iff_eq] at hp
    exact ⟨stopv, h, rfl, hp.1.1.2 ▸ hearly⟩

/-- What holds of R24's remark: once EARLY is 1 in a running operation, the engine's next step sets DONE (log 24). -/
theorem early_then_done {s : State} {op : Operation} (hi : invariant s = true) (ht : s.hostTurn = false)
    (he : s.engine = some op) (hearly : s.early = true) : exec op.instr s = .next (complete s.pop) := by
  obtain ⟨stopv, h, rfl, hstop⟩ := early_busy_stopped hi he hearly
  rw [exec_engine ht he]
  simp [doneTest, hstop, engineStep]

/-- What holds of R45's remark: wherever RLE.LINE takes a work step, its row count is 0 (log 25). -/
theorem rleLine_work_row {s : State} {bpp : BitVec 3} {h : RleState} (hi : invariant s = true)
    (he : s.engine = some (.rleLine bpp h)) (hwork : doneTest s (.rleLine bpp h) = false) : h.row = 0 := by
  have hp := (invariant_operation hi he).1
  simp only [progressOk, progressOk.rleOk, Bool.and_eq_true, decide_eq_true_eq] at hp
  simp only [doneTest, rleDone, Bool.or_eq_false_iff, beq_eq_false_iff_ne] at hwork
  have hrow : h.row.toNat = 0 := by omega
  exact BitVec.eq_of_toNat_eq (by simpa using hrow)

end Sys2Proof.Machine
end

