-- ==== Sys2Proof/Laws/PerInstr.lean ====
section
/-! SUPPORT. Statements about every instruction as syntax, one lemma per constructor. -/

namespace Sys2Proof.Laws

/-- An instruction's value belongs to its own row of spec/opcode_table.json (R95), whatever its operands. -/
def EncodesToRow.Statement (i : Instr) : Prop := i.row.admits i.word = true

theorem EncodesToRow.hufLdt : EncodesToRow.Statement .hufLdt := by unfold EncodesToRow.Statement; decide

theorem EncodesToRow.hufExp : EncodesToRow.Statement .hufExp := by unfold EncodesToRow.Statement; decide

theorem EncodesToRow.lzsDec (stopv : Bool) : EncodesToRow.Statement (.lzsDec stopv) := by
  unfold EncodesToRow.Statement; revert stopv; decide

theorem EncodesToRow.bpcLdp : EncodesToRow.Statement .bpcLdp := by unfold EncodesToRow.Statement; decide

theorem EncodesToRow.bpcRgb24 : EncodesToRow.Statement .bpcRgb24 := by unfold EncodesToRow.Statement; decide

theorem EncodesToRow.bpcRgb32 : EncodesToRow.Statement .bpcRgb32 := by unfold EncodesToRow.Statement; decide

theorem EncodesToRow.scl2x (bpp : BitVec 3) : EncodesToRow.Statement (.scl2x bpp) := by
  unfold EncodesToRow.Statement; revert bpp; decide

theorem EncodesToRow.scl2x3 (bpp : BitVec 3) : EncodesToRow.Statement (.scl2x3 bpp) := by
  unfold EncodesToRow.Statement; revert bpp; decide

theorem EncodesToRow.rleLine (bpp : BitVec 3) : EncodesToRow.Statement (.rleLine bpp) := by
  unfold EncodesToRow.Statement; revert bpp; decide

theorem EncodesToRow.rleImg (bpp : BitVec 3) (topdown : Bool) : EncodesToRow.Statement (.rleImg bpp topdown) := by
  unfold EncodesToRow.Statement; revert bpp topdown; decide

theorem EncodesToRow.srst (ign : BitVec 31) : EncodesToRow.Statement (.srst ign) := by
  unfold EncodesToRow.Statement Row.admits Instr.row Instr.word
  rw [beq_iff_eq]
  ext j hj
  simp only [BitVec.getElem_and, BitVec.getElem_append]
  rcases Nat.eq_zero_or_pos j with rfl | hj0
  · simp
  · have h1 : (1#32)[j] = false := by simp [BitVec.getElem_one]; omega
    rw [h1, Bool.and_false]

end Sys2Proof.Laws
end

