-- ==== Sys2Proof/Tests/Slice0.lean ====
section
/-! SUPPORT. Tests: expected values from spec/30_encoding.md and the vectors of spec/95_test_vectors.md, and a state that
meets the hypotheses of each statement of Certificates/Slice0/Obligations.lean. -/

namespace Sys2Proof.Tests

open Sys2Proof.Machine

/-! ### Well-formedness: a term with a field value R91 does not list is refused -/

theorem test_wf_scl2x_bpp3 : Instr.wf (.scl2x 3#3) = false := by decide

theorem test_wf_scl2x3_bpp0 : Instr.wf (.scl2x3 0#3) = false := by decide

theorem test_wf_rleLine_bpp2 : Instr.wf (.rleLine 2#3) = false := by decide

theorem test_wf_rleImg_bpp5 : Instr.wf (.rleImg 5#3 true) = false := by decide

/-! ### Decoding: words written out from R90 to R96 and spec/95_test_vectors.md section 7 -/

theorem test_decode_hufLdt : decode 0x04 0x00000010#32 = .ok .hufLdt := by decide

theorem test_decode_hufExp : decode 0x04 0x00000011#32 = .ok .hufExp := by decide

theorem test_decode_lzsDec : decode 0x04 0x00000020#32 = .ok (.lzsDec false) := by decide

theorem test_decode_lzsDec_stopv : decode 0x04 0x00020020#32 = .ok (.lzsDec true) := by decide

theorem test_decode_bpcLdp : decode 0x04 0x00000030#32 = .ok .bpcLdp := by decide

theorem test_decode_bpcRgb24 : decode 0x04 0x00000031#32 = .ok .bpcRgb24 := by decide

theorem test_decode_bpcRgb32 : decode 0x04 0x00000032#32 = .ok .bpcRgb32 := by decide

theorem test_decode_scl2x : decode 0x04 0x00000440#32 = .ok (.scl2x 4#3) := by decide

theorem test_decode_scl2x3 : decode 0x04 0x00000241#32 = .ok (.scl2x3 2#3) := by decide

theorem test_decode_rleLine : decode 0x04 0x00000350#32 = .ok (.rleLine 3#3) := by decide

theorem test_decode_rleImg : decode 0x04 0x00000151#32 = .ok (.rleImg 1#3 false) := by decide

theorem test_decode_rleImg_topdown : decode 0x04 0x00010451#32 = .ok (.rleImg 4#3 true) := by decide

theorem test_decode_srst : decode 0x34 0x00000001#32 = .ok (.srst 0#31) := by decide

theorem test_decode_srst_ignored_bits : decode 0x34 0x80000001#32 = .ok (.srst 0x40000000#31) := by decide

theorem test_decode_ctrl_bit0_clear : decode 0x34 0xFFFFFFFE#32 = .error .resetBitClear := by decide

/-- The illegal words of section 7, each with the reason R94 gives. -/
theorem test_decode_illegal :
    (decodeCmd 0x00000110#32, decodeCmd 0x00000012#32, decodeCmd 0x00010020#32, decodeCmd 0x00020031#32) =
      (.error .illegalBpp, .error .unknownOpcode, .error .illegalTopdown, .error .illegalStopv) ∧
    (decodeCmd 0x00000340#32, decodeCmd 0x00000142#32, decodeCmd 0x00000250#32, decodeCmd 0x00030151#32) =
      (.error .illegalBpp, .error .unknownOpcode, .error .illegalBpp, .error .illegalStopv) ∧
    (decodeCmd 0x00000810#32, decodeCmd 0x00040010#32, decodeCmd 0x80000010#32, decodeCmd 0x00000000#32) =
      (.error .zeroBitSet, .error .zeroBitSet, .error .zeroBitSet, .error .unknownOpcode) := by decide

theorem test_table_word_command : decodeTableWord 32 0x00000140 = some (.scl2x 1#3) := by decide

theorem test_table_word_srst : decodeTableWord 32 0x00000001 = some (.srst 0#31) := by decide

/-! ### Small states -/

/-- Operand registers in the order of R22. -/
def ops (sb sl db dc ol w h ss ds : Nat) : Operands :=
  { srcBase := BitVec.ofNat 32 sb, srcLen := BitVec.ofNat 32 sl, dstBase := BitVec.ofNat 32 db
    dstCap := BitVec.ofNat 32 dc, outLen := BitVec.ofNat 32 ol, width := BitVec.ofNat 16 w
    height := BitVec.ofNat 16 h, srcStride := BitVec.ofNat 32 ss, dstStride := BitVec.ofNat 32 ds }

/-- The table T of section 2 of spec/95_test_vectors.md with another root. -/
def tableT (root : Node) : Vector Node 255 :=
  ((((Vector.replicate 255 ⟨0, 0⟩).set 254 root).set 253 ⟨0x42, 508⟩).set 252 ⟨0x43, 0x44⟩)

/-- A palette whose entry 0x10 is (0x10, 0x20, 0xEF), as in section 4, every other entry 0. -/
def palP : Vector Rgb 256 := (Vector.replicate 256 ⟨0, 0, 0⟩).set 0x10 ⟨0x10, 0x20, 0xEF⟩

/-- The reset state with both tables loaded, the given operands, source bytes at S = 0x1000 and an operation. -/
def st (x : Operands) (src : List Byte) (op : Option Operation) : State :=
  { State.reset with
    tbl := tableT ⟨0x41, 509⟩, pal := palP, tblValid := true, palValid := true, x := x
    mem := Memory.writeAll [] 0x1000 src, engine := op }

/-- `s` with a list of accesses to come. -/
def withInbox (s : State) (l : List Access) : State := { s with inbox := l }

/-- What `f` says of the next state, if there is one. -/
def look {α : Type} (o : Host.Outcome State Fault Refusal) (f : State → α) : Option α :=
  match o with
  | .next t => some (f t)
  | .fault _ => none
  | .refused _ => none

/-! ### One step of each instruction, from the vectors -/

/-- The image of section 2's R160 example: bytes `41 00 FD 01` at offset 1016. -/
def hufImage : List Byte := List.replicate 1016 0x00#8 ++ [0x41#8, 0x00#8, 0xFD#8, 0x01#8]

/-- R160's example: node 254 of the image is (0x0041, 509). -/
theorem test_hufLdt_image : imageNode hufImage 254 = ⟨0x0041#16, 509#16⟩ := by decide +kernel

/-- HUF.LDT with SRC_LEN 1019 faults at launch (H16). -/
theorem test_hufLdt_short : look (exec .hufLdt (withInbox (st (ops 0x1000 1019 0 0 0 0 0 0 0) [] none)
    [.write 0x04 0x10#32])) (fun t => (t.statusWord, t.cause, t.finfo)) = some (0x34#32, .srcOverrun, 1020#32) := by
  decide

/-- Step 1 of H1: bit 0 at the root is the literal 41. -/
theorem test_hufExp_literal : look (exec .hufExp (st (ops 0x1000 2 0x8000 16 5 0 0 0 0) [0xDA, 0x01]
      (some (.hufExp ⟨254, 0, 5⟩)))) (fun t => (t.mem.read 0x8000, t.outCnt, t.srcPos, t.engine)) =
    some (some 0x41#8, 1#32, 1#32, some (.hufExp ⟨254, 1, 4⟩)) := by decide

/-- Step 2 of H1: bit 1 at the root leads to node 253. -/
theorem test_hufExp_node : look (exec .hufExp (st (ops 0x1000 2 0x8000 16 5 0 0 0 0) [0xDA, 0x01]
      (some (.hufExp ⟨254, 1, 4⟩)))) (fun t => t.engine) = some (some (.hufExp ⟨253, 2, 4⟩)) := by decide

/-- Step 2 of L1: an overlapping run of 5 at distance 1. -/
theorem test_lzsDec_overlap :
    let s := st (ops 0x1000 4 0x8000 16 6 0 0 0 0) [0x01, 0x41, 0xFF, 0x2F]
      (some (.lzsDec false ⟨0x80#9, 2#32, 5#32, false⟩))
    look (exec (.lzsDec false) { s with mem := s.mem.write 0x8000 0x41#8, outCnt := 1 })
      (fun t => ((List.range 7).map fun k => t.mem.read (0x8000 + k), t.outCnt, t.srcPos)) =
    some ([some 0x41#8, some 0x41#8, some 0x41#8, some 0x41#8, some 0x41#8, some 0x41#8, none], 6#32, 4#32) := by
  decide

/-- L6: a back-reference before the start of the output faults, the refill undone. -/
theorem test_lzsDec_window : look (exec (.lzsDec false) (st (ops 0x1000 3 0x8000 16 3 0 0 0 0) [0x00, 0xFF, 0x0F]
      (some (.lzsDec false ⟨1#9, 0#32, 3#32, false⟩)))) (fun t => (t.cause, t.finfo, t.outCnt, t.srcPos)) =
    some (.windowUnderrun, 0x0FFF#32, 0#32, 0#32) := by decide

/-- R200's example: image bytes 3 to 5 are entry 1. -/
theorem test_bpcLdp_image : (imagePalette ([0, 0, 0, 0x01, 0x02, 0xFE] ++ List.replicate 762 0#8))[1] =
    ⟨0x01#8, 0x02#8, 0xFE#8⟩ := by decide +kernel

/-- B1, source index 2 of a 4 by 2 picture lands at byte offset 3. -/
theorem test_bpcRgb24_pixel : look (exec .bpcRgb24 (st (ops 0x1000 8 0x8000 24 0 4 2 0 0)
      [0, 0, 0x10, 0, 0, 0, 0, 0] (some (.bpcRgb24 2)))) (fun t =>
        ((List.range 5).map fun k => t.mem.read (0x8002 + k), t.outCnt)) =
    some ([none, some 0x10#8, some 0x20#8, some 0xEF#8, none], 9#32) := by decide

/-- R203's example: entry 0x10 gives `10 20 EF FF`. -/
theorem test_bpcRgb32_pixel : look (exec .bpcRgb32 (st (ops 0x1000 8 0x8000 32 0 4 2 0 0)
      [0x10, 0, 0, 0, 0, 0, 0, 0] (some (.bpcRgb32 0)))) (fun t =>
        ((List.range 5).map fun k => t.mem.read (0x8000 + k), t.outCnt)) =
    some ([some 0x10#8, some 0x20#8, some 0xEF#8, some 0xFF#8, none], 4#32) := by decide

/-- X5, centre pixel of SCL.2X: block `01 02` / `02 03` at rows 2 and 3, columns 2 and 3. -/
theorem test_scl2x_edge : look (exec (.scl2x 1#3) (st (ops 0x1000 9 0x8000 36 0 3 3 3 6)
      [0x00, 0x01, 0x00, 0x01, 0x02, 0x03, 0x04, 0x03, 0x05] (some (.scl2x 1#3 4)))) (fun t =>
        [0x800E, 0x800F, 0x8014, 0x8015, 0x8016].map t.mem.read) =
    some [some 0x01#8, some 0x02#8, some 0x02#8, some 0x03#8, none] := by decide

/-- X5, centre pixel of SCL.2X3: block `01 02` / `01 03` / `02 03` at rows 3 to 5, columns 2 and 3. -/
theorem test_scl2x3_edge : look (exec (.scl2x3 1#3) (st (ops 0x1000 9 0x8000 54 0 3 3 3 6)
      [0x00, 0x01, 0x00, 0x01, 0x02, 0x03, 0x04, 0x03, 0x05] (some (.scl2x3 1#3 4)))) (fun t =>
        [0x8014, 0x8015, 0x801A, 0x801B, 0x8020, 0x8021].map t.mem.read) =
    some [some 0x01#8, some 0x02#8, some 0x01#8, some 0x03#8, some 0x02#8, some 0x03#8] := by decide

/-- E8, step 2: the repeat packet `81 42`. -/
theorem test_rleLine_repeat : look (exec (.rleLine 1#3) (st (ops 0x1000 4 0x8000 16 0 4 0 0 0)
      [0x41, 0x42, 0x42, 0x43] (some (.rleLine 1#3 ⟨0, 1, 2⟩)))) (fun t =>
        ([0x8002, 0x8003, 0x8004].map t.mem.read, t.outCnt, t.srcPos)) =
    some ([some 0x81#8, some 0x42#8, none], 4#32, 3#32) := by decide

/-- E24, step 3: a packet that does not fit is not written. -/
theorem test_rleLine_overrun : look (exec (.rleLine 1#3) (st (ops 0x1000 4 0x8000 5 0 4 0 0 0)
      [0x41, 0x42, 0x42, 0x43] (some (.rleLine 1#3 ⟨0, 3, 4⟩)))) (fun t =>
        (t.mem.read 0x8004, t.cause, t.finfo)) = some (none, .dstOverrun, 6#32) := by decide

/-- E20, step 1: without TOPDOWN the bottom row comes first, `01 02 03`. -/
theorem test_rleImg_bottom_first : look (exec (.rleImg 1#3 false) (st (ops 0x1000 4 0x8000 16 0 2 2 0 0)
      [0x01, 0x01, 0x02, 0x03] (some (.rleImg 1#3 false ⟨0, 0, 0⟩)))) (fun t =>
        ([0x8000, 0x8001, 0x8002, 0x8003].map t.mem.read, t.engine)) =
    some ([some 0x01#8, some 0x02#8, some 0x03#8, none], some (.rleImg 1#3 false ⟨1, 0, 3⟩)) := by decide

/-- E21, step 1: with TOPDOWN the top row comes first, `81 01`. -/
theorem test_rleImg_topdown : look (exec (.rleImg 1#3 true) (st (ops 0x1000 4 0x8000 16 0 2 2 0 0)
      [0x01, 0x01, 0x02, 0x03] (some (.rleImg 1#3 true ⟨0, 0, 0⟩)))) (fun t =>
        [0x8000, 0x8001, 0x8002].map t.mem.read) = some [some 0x81#8, some 0x01#8, none] := by decide

/-- A soft reset in mid-operation: idle, not done, not faulted, memory as it was (R342). -/
theorem test_srst_running : look (exec (.srst 0#31) (withInbox (st (ops 0x1000 2 0x8000 16 5 0 0 0 0) [0xDA, 0x01]
      (some (.hufExp ⟨254, 0, 5⟩))) [.write 0x34 1#32])) (fun t => (t.statusWord, t.engine, t.mem.read 0x1000)) =
    some (0#32, none, some 0xDA#8) := by decide

/-! ### Witnesses: for each statement with hypotheses, a state and operands that meet them, one for each clause -/

theorem witness_DecodeInvertsEncode : Instr.wf (.rleImg 4#3 true) = true ∧ Instr.wf (.srst 0x7FFFFFFF#31) = true := by
  decide

theorem witness_EncodeInvertsDecode :
    decode 0x04 0x00010451#32 = .ok (.rleImg 4#3 true) ∧ decode 0x34 0xFFFFFFFF#32 = .ok (.srst 0x7FFFFFFF#31) := by
  decide

theorem witness_CommandRowsDisjoint : decodeCmd 0x00000440#32 = .ok (.scl2x 4#3) ∧
    (Instr.row (.scl2x 4#3)) ∈ commandRows ∧ (Instr.row (.scl2x 4#3)).admits 0x00000440#32 = true := by decide

/-- A running HUF.EXP. -/
def sHuf : State := st (ops 0x1000 2 0x8000 16 5 0 0 0 0) [0xDA, 0x01] (some (.hufExp ⟨254, 0, 5⟩))

/-- An idle block with operands every command accepts but for its own needs. -/
def sIdle : State := st (ops 0x1000 2 0x8000 16 5 4 1 0 0) [0xDA, 0x01] none

/-- A faulted block. -/
def sFault : State := { sIdle with fault := true, cause := .illegalCmd }

theorem witness_StepRunsDecoded :
    (withInbox sHuf [.write 0x04 0x20#32]).inbox = .write 0x04 0x20#32 :: [] ∧
    decode 0x04 0x20#32 = .ok (.lzsDec false) ∧ decodeTableWord 32 1 = some (.srst 0#31) := by decide

theorem witness_StepRunsEngine : sHuf.inbox = [] ∧ sHuf.engine = some (.hufExp ⟨254, 0, 5⟩) ∧
    (withInbox sIdle [.pass]).inbox = .pass :: [] ∧ sIdle.engine = none := by decide

/-- Every offset and every cause has its state, the offsets at the ends of the clauses' ranges too; no offset is under two
clauses. -/
theorem witness_PortReadAnswers (o : Nat) (c : Cause) :
    let s := { withInbox sHuf [.read o] with cause := c }
    s.inbox = .read o :: [] ∧ s.cause = c := ⟨rfl, rfl⟩

theorem witness_FlagRegisterWrites :
    (withInbox sFault [.write 0x08 0xE#32]).inbox = .write 0x08 0xE#32 :: [] ∧
    (withInbox sFault [.write 0x0C 3#32]).inbox = .write 0x0C 3#32 :: [] := by decide

theorem witness_OperandWrites_busy (r : OperandReg) :
    (withInbox sHuf [.write (0x10 + 4 * r.index) 7#32]).inbox = .write (0x10 + 4 * r.index) 7#32 :: [] ∧
    (withInbox sHuf [.write (0x10 + 4 * r.index) 7#32]).busy = true := ⟨rfl, rfl⟩

theorem witness_OperandWrites_idle (r : OperandReg) :
    (withInbox sIdle [.write (0x10 + 4 * r.index) 0x10003#32]).inbox =
      .write (0x10 + 4 * r.index) 0x10003#32 :: [] ∧
    (withInbox sIdle [.write (0x10 + 4 * r.index) 0x10003#32]).busy = false := ⟨rfl, rfl⟩

theorem witness_IgnoredWrites : ∀ o ∈ [0x00, 0x38, 0x3C, 0x40, 0x4C, 0x50, 0x06],
    (withInbox sHuf [.write o 7#32]).inbox = .write o 7#32 :: [] ∧
    o ∉ [0x04, 0x08, 0x0C, 0x10, 0x14, 0x18, 0x1C, 0x20, 0x24, 0x28, 0x2C, 0x30, 0x34] := by decide

theorem witness_IgnoredWrites_ctrl :
    (withInbox sHuf [.write 0x34 0xFFFFFFFE#32]).inbox = .write 0x34 0xFFFFFFFE#32 :: [] ∧
    (0xFFFFFFFE#32).getLsbD 0 = false := by decide

/-- A write that ends at the last address there is, while an operation runs. -/
theorem witness_MemoryPortAccesses_write : 0xFFFFE + [1#8, 2#8].length ≤ sHuf.platform.memBytes ∧
    (withInbox sHuf [.memWrite 0xFFFFE [1#8, 2#8]]).inbox = .memWrite 0xFFFFE [1#8, 2#8] :: [] ∧
    ∀ k, k < [1#8, 2#8].length → sHuf.liveByte (0xFFFFE + k) = false := by decide

theorem witness_MemoryPortAccesses_read : 0x1000 + [0xDA#8, 0x01#8].length ≤ sHuf.platform.memBytes ∧
    (withInbox sHuf [.memRead 0x1000 2]).inbox = .memRead 0x1000 [0xDA#8, 0x01#8].length :: [] ∧
    sHuf.mem.holds 0x1000 [0xDA#8, 0x01#8] := by decide

theorem witness_HardwareResetStep : (withInbox sHuf [.hardReset]).inbox = .hardReset :: [] := rfl

theorem witness_IrqOnlyWhenIdle : invariant { sIdle with done := true, ieDone := true } = true ∧
    State.irq { sIdle with done := true, ieDone := true } = true := by decide

theorem witness_CommandWriteAcceptance_dropped :
    (withInbox sHuf [.write 0x04 0x20#32]).inbox = .write 0x04 0x20#32 :: [] ∧ sHuf.busy = true ∧
    (withInbox sFault [.write 0x04 0#32]).inbox = .write 0x04 0#32 :: [] ∧ sFault.fault = true := by decide

theorem witness_CommandWriteAcceptance_accepted :
    (withInbox sIdle [.write 0x04 0x20#32]).inbox = .write 0x04 0x20#32 :: [] ∧ sIdle.busy = false ∧
    sIdle.fault = false := by decide

/-- An idle block on which each of the ten commands passes its launch checks. -/
def sReady : State := st (ops 0x1000 0x1000 0x8000 0x1000 5 4 2 16 32) [] none

theorem witness_LaunchStartsOperation :
    ∀ i ∈ [Instr.hufLdt, .hufExp, .lzsDec false, .lzsDec true, .bpcLdp, .bpcRgb24, .bpcRgb32, .scl2x 4#3, .scl2x3 4#3,
        .rleLine 4#3, .rleImg 4#3 true],
      (withInbox sReady [.write i.offset i.word]).inbox = .write i.offset i.word :: [] ∧ sReady.busy = false ∧
      sReady.fault = false ∧ launchCheck i sReady = none ∧ (launchOperation sReady.x i).isSome = true := by
  decide

/-- One launch fault of each cause a launch can report. -/
theorem witness_LaunchFaultEntry :
    (∀ i ∈ [Instr.rleLine 2#3, .bpcRgb24, .bpcLdp],
      isCommand i = true ∧ (withInbox sIdle [.write i.offset i.word]).inbox = .write i.offset i.word :: [] ∧
      sIdle.busy = false ∧ sIdle.fault = false) ∧
    launchCheck (.rleLine 2#3) sIdle = some (.illegalCmd, 0x250) ∧
    launchCheck .bpcRgb24 { sIdle with palValid := false } = some (.notLoaded, 1) ∧
    launchCheck .bpcRgb24 { sIdle with x := ops 0x1000 2 0x8000 16 5 6 1 0 0 } = some (.badParam, 5) ∧
    launchCheck .bpcLdp { sIdle with x := ops 0xFFFFF 2 0 0 0 0 0 0 0 } = some (.badRegion, 0) ∧
    launchCheck .bpcLdp sIdle = some (.srcOverrun, 768) ∧
    launchCheck .hufExp { sIdle with x := ops 0x1000 2 0x8000 4 5 0 0 0 0 } = some (.dstOverrun, 5) := by decide

theorem witness_IllegalCommandFaults :
    (withInbox sIdle [.write 0x04 0x142#32]).inbox = .write 0x04 0x142#32 :: [] ∧
    decodeCmd 0x142#32 = .error .unknownOpcode ∧ sIdle.busy = false ∧ sIdle.fault = false := by decide

/-- Every clause of the region tests at a boundary: one byte too long, exactly at the end, one address shared (G10 to
G14). -/
theorem witness_RegionChecks :
    regionCheck 0x100000 (ops 0xFFFFF 2 0 0 0 0 0 0 0) (.lzsDec false) = some (.badRegion, 0) ∧
    regionCheck 0x100000 (ops 0x100000 0 0xFFFFF 2 0 0 0 0 0) (.lzsDec false) = some (.badRegion, 1) ∧
    regionCheck 0x100000 (ops 0x1000 2 0x1001 16 0 0 0 0 0) (.lzsDec false) = some (.badRegion, 2) ∧
    regionCheck 0x100000 (ops 0x1000 2 0x1002 16 0 0 0 0 0) (.lzsDec false) = none := by decide

theorem witness_TableAndRangeChecks :
    paramCheck (ops 0 0 0 0 0 0 0 0 0) .hufLdt = none ∧
    (Instr.bpcRgb32 = .bpcRgb24 ∨ Instr.bpcRgb32 = .bpcRgb32) ∧
    (Instr.scl2x3 4#3 = .scl2x 4#3 ∨ Instr.scl2x3 4#3 = .scl2x3 4#3) := by decide

/-- One state for each place in the order of the checks. -/
theorem witness_LaunchCheckOrder :
    Instr.wf (.rleLine 2#3) = false ∧
    (Instr.wf .bpcRgb24 = true ∧ tableCheck { sIdle with palValid := false } .bpcRgb24 = some (.notLoaded, 1)) ∧
    (Instr.wf (.scl2x 1#3) = true ∧ tableCheck sIdle (.scl2x 1#3) = none ∧
      paramCheck sIdle.x (.scl2x 1#3) = some (.badParam, 6)) ∧
    (tableCheck sIdle .hufExp = none ∧ paramCheck (ops 0x1000 2 0x1001 16 0 0 0 0 0) .hufExp = none ∧
      regionCheck 0x100000 (ops 0x1000 2 0x1001 16 0 0 0 0 0) .hufExp = some (.badRegion, 2)) ∧
    (tableCheck sIdle .bpcRgb24 = none ∧ paramCheck sIdle.x .bpcRgb24 = none ∧
      regionCheck sIdle.platform.memBytes sIdle.x .bpcRgb24 = none ∧ needSrc sIdle.x .bpcRgb24 = some 4 ∧
      sIdle.x.srcLen.toNat < 4) ∧
    ((∀ k, needSrc (ops 0x1000 4 0x8000 11 0 4 1 0 0) .bpcRgb24 = some k → k ≤ 4) ∧
      needDst (ops 0x1000 4 0x8000 11 0 4 1 0 0) .bpcRgb24 = some 12) := by
  refine ⟨by decide, by decide, by decide, by decide, by decide, ?_, by decide⟩
  intro k h
  have : needSrc (ops 0x1000 4 0x8000 11 0 4 1 0 0) .bpcRgb24 = some 4 := by decide
  rw [this] at h
  cases h
  decide

/-- Both needs are met to the last byte, and the launch passes. -/
theorem witness_LaunchCheckOrder_fits :
    let s := { sIdle with x := ops 0x1000 4 0x8000 12 0 4 1 0 0 }
    Instr.wf .bpcRgb24 = true ∧ tableCheck s .bpcRgb24 = none ∧ paramCheck s.x .bpcRgb24 = none ∧
    regionCheck s.platform.memBytes s.x .bpcRgb24 = none ∧
    (∀ k, needSrc s.x .bpcRgb24 = some k → k ≤ s.x.srcLen.toNat) ∧
    (∀ n, needDst s.x .bpcRgb24 = some n → n ≤ s.x.dstCap.toNat) ∧ 4 = s.x.width.toNat ∧ 1 = s.x.height.toNat := by
  refine ⟨by decide, by decide, by decide, by decide, fun k h => ?_, fun n h => ?_, by decide⟩
  · cases h.symm.trans (show needSrc _ .bpcRgb24 = some 4 by decide)
    decide
  · cases h.symm.trans (show needDst _ .bpcRgb24 = some 12 by decide)
    decide

theorem witness_AcceptedLaunchFacts : launchCheck .bpcRgb32 sReady = none ∧ launchCheck (.scl2x 4#3) sReady = none ∧
    launchCheck (.scl2x3 2#3) sReady = none ∧ launchCheck (.rleImg 3#3 false) sReady = none ∧
    launchCheck (.rleLine 1#3) sReady = none := by decide

/-- Each of the ten operations, done and not done. -/
theorem witness_CompletingStep :
    (∀ op ∈ [Operation.hufLdt true, .hufExp ⟨254, 3, 0⟩, .lzsDec true ⟨1, 4, 1, true⟩, .bpcLdp true, .bpcRgb24 8,
        .bpcRgb32 8, .scl2x 4#3 8, .scl2x3 4#3 8, .rleLine 4#3 ⟨1, 0, 9⟩, .rleImg 4#3 true ⟨2, 0, 9⟩],
      doneCondition sReady.x op = true) ∧
    (∀ op ∈ [Operation.hufLdt false, .hufExp ⟨254, 3, 1⟩, .lzsDec true ⟨1, 4, 1, false⟩, .bpcLdp false, .bpcRgb24 7,
        .bpcRgb32 7, .scl2x 4#3 7, .scl2x3 4#3 7, .rleLine 4#3 ⟨0, 3, 9⟩, .rleImg 4#3 true ⟨1, 3, 9⟩],
      doneCondition sReady.x op = false) ∧ sReady.hostTurn = false := by decide

/-- A table load over any image, one of the right length among them. -/
theorem witness_TableLoadStep :
    let s := fun img : List Byte => st (ops 0x1000 1020 0 0 0 0 0 0 0) img (some (.hufLdt false))
    ∀ img : List Byte, (s img).hostTurn = false ∧ (s img).engine = some (.hufLdt false) ∧
      (s img).mem.holds (s img).x.srcBase.toNat img ∧
      (s img).x.srcBase.toNat + 1020 ≤ (s img).platform.memBytes ∧ (List.replicate 1020 5#8).length = 1020 :=
  fun img => ⟨rfl, rfl, fun k h => Memory.read_writeAll_inside img [] 0x1000 k h, by
    show (BitVec.ofNat 32 0x1000).toNat + _ ≤ 0x100000
    decide, List.length_replicate⟩

theorem witness_PaletteLoadStep :
    let s := fun img : List Byte => st (ops 0x1000 768 0 0 0 0 0 0 0) img (some (.bpcLdp false))
    ∀ img : List Byte, (s img).hostTurn = false ∧ (s img).engine = some (.bpcLdp false) ∧
      (s img).mem.holds (s img).x.srcBase.toNat img ∧
      (s img).x.srcBase.toNat + 768 ≤ (s img).platform.memBytes ∧ (List.replicate 768 5#8).length = 768 :=
  fun img => ⟨rfl, rfl, fun k h => Memory.read_writeAll_inside img [] 0x1000 k h, by
    show (BitVec.ofNat 32 0x1000).toNat + _ ≤ 0x100000
    decide, List.length_replicate⟩

/-- The first bit that is missing. -/
theorem witness_HufExpandWorkStep_overrun :
    let h : HufState := ⟨254, 16, 1⟩
    sHuf.hostTurn = false ∧ 0 < h.remaining.toNat ∧ sHuf.x.srcLen.toNat ≤ h.bitcnt.toNat / 8 := by decide

/-- The last bit of the source, the root's two entries at the ends of their ranges: 255 and 510, then 511. -/
theorem witness_HufExpandWorkStep_entries :
    let h : HufState := ⟨254, 15, 1⟩
    let s := { sHuf with engine := some (.hufExp h), tbl := tableT ⟨255, 510⟩ }
    s.hostTurn = false ∧ s.engine = some (.hufExp h) ∧ 0 < h.remaining.toNat ∧
    h.bitcnt.toNat / 8 < s.x.srcLen.toNat ∧ s.byteAt (s.x.srcBase.toNat + h.bitcnt.toNat / 8) 0x01#8 ∧
    (0x01#8).getLsbD (h.bitcnt.toNat % 8) = false ∧ (s.tbl[h.node].bit0).toNat < 256 ∧
    s.x.dstBase.toNat + s.outCnt.toNat < s.platform.memBytes ∧ (0x80#8).getLsbD (h.bitcnt.toNat % 8) = true ∧
    (s.tbl[h.node].bit1).toNat = 256 + 254 ∧
    ((tableT ⟨255, 511⟩)[h.node].bit1).toNat = 511 := by decide

/-- A running LZS.DEC on the source of L1, before its first step, OUT_LEN `ol`. -/
def sLzs (src : List Byte) (out : List Byte) (h : LzsState) : State :=
  let s := st (ops 0x1000 4 0x8000 16 6 0 0 0 0) src (some (.lzsDec true h))
  { s with mem := s.mem.writeAll 0x8000 out, outCnt := BitVec.ofNat 32 out.length }

theorem witness_LzsLiteralStep_refill :
    let h : LzsState := ⟨1, 0, 6, false⟩
    let s := sLzs [0x01, 0x41, 0xFF, 0x2F] [] h
    s.hostTurn = false ∧ s.engine = some (.lzsDec true h) ∧ 0 < h.remaining.toNat ∧ h.stop = false ∧
    LzsControl s h 0x101 1 ∧ (0x101#9).getLsbD 0 = true ∧ 1 < s.x.srcLen.toNat ∧
    s.byteAt (s.x.srcBase.toNat + 1) 0x41#8 ∧ s.x.dstBase.toNat + s.outCnt.toNat < s.platform.memBytes := by
  refine ⟨by decide, by decide, by decide, rfl, .inr ⟨rfl, by decide, rfl, 0x01#8, ?_, ?_⟩, ?_⟩
  all_goals decide

theorem witness_LzsLiteralStep_bucket :
    let h : LzsState := ⟨3, 3, 1, false⟩
    let s := sLzs [0x01, 0x41, 0xFF, 0x2F] [] h
    LzsControl s h 3 3 ∧ (3#9).getLsbD 0 = true ∧ 3 < s.x.srcLen.toNat ∧
    s.byteAt (s.x.srcBase.toNat + 3) 0x2F#8 := by
  refine ⟨.inl ⟨by decide, rfl, rfl⟩, ?_⟩
  decide

/-- The token of L1, 0x2FFF: distance 1 with one byte of output, length 5 with five bytes to go. -/
theorem witness_LzsCopyStep :
    let h : LzsState := ⟨0x80, 2, 5, false⟩
    let s := sLzs [0x01, 0x41, 0xFF, 0x2F] [0x41] h
    let tok := 0x2FFF#16
    s.hostTurn = false ∧ s.engine = some (.lzsDec true h) ∧ LzsMeets s h 0x80 2 tok ∧
    (true && lzsStop s.platform.stopPred tok) = false ∧ 1 = 0x1000 - tok.toNat % 0x1000 ∧
    5 = tok.toNat / 0x1000 + 3 ∧ 1 ≤ s.outCnt.toNat ∧ 5 ≤ h.remaining.toNat ∧
    s.x.dstBase.toNat + s.outCnt.toNat + 5 ≤ s.platform.memBytes ∧
    ∀ k, k < 1 → (s.mem.read (s.x.dstBase.toNat + s.outCnt.toNat - 1 + k)).isSome = true := by
  refine ⟨by decide, by decide, ⟨by decide, rfl, .inl ⟨by decide, rfl, rfl⟩, by decide, by decide,
    0xFF#8, 0x2F#8, by decide, by decide, by decide⟩, ?_⟩
  decide

/-- The token of L17, 0x1FFF, with the default predicate. -/
theorem witness_LzsStopStep :
    let h : LzsState := ⟨0x80, 2, 5, false⟩
    let s := sLzs [0x01, 0x41, 0xFF, 0x1F] [0x41] h
    s.hostTurn = false ∧ s.engine = some (.lzsDec true h) ∧ LzsMeets s h 0x80 2 0x1FFF#16 ∧
    lzsStop s.platform.stopPred 0x1FFF#16 = true ∧
    look (exec (.lzsDec true) s) (fun t => t.hostTurn) = some false := by
  refine ⟨by decide, by decide, ⟨by decide, rfl, .inl ⟨by decide, rfl, rfl⟩, by decide, by decide,
    0xFF#8, 0x1F#8, by decide, by decide, by decide⟩, ?_⟩
  decide

/-- The three source overruns of LZS.DEC at their first offset: the control byte, the literal, the token's second
byte. -/
theorem witness_LzsFaultSteps_source :
    let s := sLzs [0x01, 0x41, 0xFF, 0x2F] [] ⟨1, 4, 1, false⟩
    s.hostTurn = false ∧ (0 < (1#32).toNat) ∧ s.x.srcLen.toNat ≤ (4#32).toNat ∧
    LzsControl s ⟨3, 4, 1, false⟩ 3 4 ∧ (3#9).getLsbD 0 = true ∧ s.x.srcLen.toNat ≤ 4 ∧
    LzsControl s ⟨2, 3, 1, false⟩ 2 3 ∧ (2#9).getLsbD 0 = false ∧ s.x.srcLen.toNat ≤ 3 + 1 := by
  refine ⟨by decide, by decide, by decide, .inl ⟨by decide, rfl, rfl⟩, by decide, by decide,
    .inl ⟨by decide, rfl, rfl⟩, by decide, by decide⟩

/-- A distance one more than the output, and a length one more than what remains. -/
theorem witness_LzsFaultSteps_token :
    let h : LzsState := ⟨0x80, 2, 4, false⟩
    let s := sLzs [0x01, 0x41, 0xFF, 0x2F] [] h
    LzsMeets s h 0x80 2 0x2FFF#16 ∧ (true && lzsStop s.platform.stopPred 0x2FFF#16) = false ∧
    s.outCnt.toNat < 0x1000 - (0x2FFF#16).toNat % 0x1000 ∧
    0x1000 - (0x2FFF#16).toNat % 0x1000 ≤ (sLzs [0x01, 0x41, 0xFF, 0x2F] [0x41] h).outCnt.toNat ∧
    h.remaining.toNat < (0x2FFF#16).toNat / 0x1000 + 3 := by
  refine ⟨⟨by decide, rfl, .inl ⟨by decide, rfl, rfl⟩, by decide, by decide,
    0xFF#8, 0x2F#8, by decide, by decide, by decide⟩, ?_⟩
  decide

/-- The last pixel of a 4 by 2 picture in both conversions. -/
theorem witness_PlanePixelSteps :
    let s := st (ops 0x1000 8 0x8000 32 0 4 2 0 0) [0, 0, 0, 0, 0, 0, 0, 0x10] (some (.bpcRgb24 7))
    s.hostTurn = false ∧ 4 = s.x.width.toNat ∧ 2 = s.x.height.toNat ∧ (7#32).toNat ≠ 4 * 2 ∧
    s.byteAt (s.x.srcBase.toNat + (7#32).toNat) 0x10#8 ∧ ⟨0x10, 0x20, 0xEF⟩ = s.pal[(0x10#8).toNat]'(by decide) ∧
    7 = ((7#32).toNat / (4 / 4) % 2) * 4 + ((7#32).toNat % (4 / 4) * 4 + (7#32).toNat / (4 * 2 / 4)) ∧
    s.engine = some (.bpcRgb24 7) ∧ s.x.dstBase.toNat + 7 * 3 + 3 ≤ s.platform.memBytes ∧
    s.x.dstBase.toNat + 7 * 4 + 4 ≤ s.platform.memBytes := by decide

theorem witness_PlaneMapBijective : 4 % 4 = 0 ∧ 4 ≤ 4 ∧ 1 ≤ 1 ∧ 3 < 4 * 1 ∧ 3 < 4 ∧ 0 < 1 ∧ 0 < 4 / 4 := by decide

/-- The 2 by 2 picture of X2. -/
def px22 (x y : Nat) : Pixel := [BitVec.ofNat 8 (1 + x + 2 * y)]

theorem witness_ScalerPixelSteps_2x :
    let s := { st (ops 0x1000 4 0x8000 16 0 2 2 2 4) [1, 2, 3, 4] (some (.scl2x 1#3 3)) with srcPos := 3, outCnt := 12 }
    invariant s = true ∧ s.hostTurn = false ∧ (3#32).toNat ≠ s.x.width.toNat * s.x.height.toNat ∧
    1 = (3#32).toNat % s.x.width.toNat ∧ 1 = (3#32).toNat / s.x.width.toNat ∧
    HoldsImage s.mem s.x.srcBase.toNat s.x.srcStride.toNat (1#3).toNat s.x.width.toNat s.x.height.toNat px22 ∧
    s.engine = some (.scl2x 1#3 3) := by decide

theorem witness_ScalerPixelSteps_2x3 :
    let s := { st (ops 0x1000 4 0x8000 24 0 2 2 2 4) [1, 2, 3, 4] (some (.scl2x3 1#3 0)) with srcPos := 0, outCnt := 0 }
    invariant s = true ∧ s.hostTurn = false ∧ (0#32).toNat ≠ s.x.width.toNat * s.x.height.toNat ∧
    HoldsImage s.mem s.x.srcBase.toNat s.x.srcStride.toNat (1#3).toNat s.x.width.toNat s.x.height.toNat px22 ∧
    s.engine = some (.scl2x3 1#3 0) := by decide

theorem witness_KernelsPickNeighbours : ∃ n : Nbhd, n.b = n.e ∧ n.d = n.e ∧ n.f = n.e ∧ n.h = n.e :=
  ⟨⟨[1#8], [7#8], [2#8], [7#8], [7#8], [7#8], [3#8], [7#8], [4#8]⟩, rfl, rfl, rfl, rfl⟩

/-- A scanline in one row of memory. -/
def row (l : List Byte) (x _y : Nat) : Pixel := [l.getD x 0]

/-- The repeat packet `81 42` of E8, which fills the destination region to its last byte; one byte less, it does not
fit. -/
theorem witness_RleLineWorkStep_repeat :
    let l := [0x41#8, 0x42#8, 0x42#8, 0x43#8]
    let h : RleState := ⟨0, 1, 2⟩
    let s := { st (ops 0x1000 4 0x8000 4 0 4 0 0 0) l (some (.rleLine 1#3 h)) with srcPos := 1, outCnt := 2 }
    invariant s = true ∧ s.hostTurn = false ∧ s.engine = some (.rleLine 1#3 h) ∧ s.x.width ≠ 0#16 ∧ h.row = 0#16 ∧
    HoldsImage s.mem s.x.srcBase.toNat (s.x.width.toNat * (1#3).toNat) (1#3).toNat s.x.width.toNat 1 (row l) ∧
    Reference.RepeatPacket (fun q => row l q 0) s.x.width.toNat h.p.toNat 2 [0x81, 0x42] ∧
    h.outpos.toNat + [0x81#8, 0x42#8].length ≤ s.x.dstCap.toNat := by
  refine ⟨by decide, by decide, by decide, by decide, rfl, by decide,
    ⟨by decide, by decide, by decide, ?_, .inr (.inr (by decide)), by decide⟩, by decide⟩
  intro q h1 h2
  have h1 : 1 ≤ q := h1
  have h2 : q < 3 := h2
  interval_cases q <;> decide

/-- The last raw packet of E24, one byte too long for its region. -/
theorem witness_RleLineWorkStep_overrun :
    let l := [0x41#8, 0x42#8, 0x42#8, 0x43#8]
    let h : RleState := ⟨0, 3, 4⟩
    let s := { st (ops 0x1000 4 0x8000 5 0 4 0 0 0) l (some (.rleLine 1#3 h)) with srcPos := 3, outCnt := 4 }
    invariant s = true ∧ s.engine = some (.rleLine 1#3 h) ∧
    Reference.RawPacket (fun q => row l q 0) s.x.width.toNat h.p.toNat 1 [0x00, 0x43] ∧
    s.x.dstCap.toNat < h.outpos.toNat + [0x00#8, 0x43#8].length := by
  refine ⟨by decide, by decide,
    ⟨by decide, by decide, by decide, ?_, .inr (.inl (by decide)), by decide⟩, by decide⟩
  intro q h1 h2 h3
  have h1 : 3 ≤ q := h1
  have h3 : q + 1 < 4 := h3
  omega

/-- The picture of E20 by rows. -/
def px20 (x y : Nat) : Pixel := [[0x01#8, 0x01#8, 0x02#8, 0x03#8].getD (2 * y + x) 0]

/-- The first packet of E20, the bottom row, raw, with a region it fills; and with a region one byte short. -/
theorem witness_RleImageWorkStep :
    let h : RleState := ⟨0, 0, 0⟩
    let s := st (ops 0x1000 4 0x8000 3 0 2 2 0 0) [0x01, 0x01, 0x02, 0x03] (some (.rleImg 1#3 false h))
    invariant s = true ∧ s.hostTurn = false ∧ s.engine = some (.rleImg 1#3 false h) ∧ s.x.width ≠ 0#16 ∧
    h.row ≠ s.x.height ∧ 1 = (if false = true then h.row.toNat else s.x.height.toNat - 1 - h.row.toNat) ∧
    HoldsImage s.mem s.x.srcBase.toNat (s.x.width.toNat * (1#3).toNat) (1#3).toNat s.x.width.toNat s.x.height.toNat
      px20 ∧
    Reference.RawPacket (fun q => px20 q 1) s.x.width.toNat h.p.toNat 2 [0x01, 0x02, 0x03] ∧
    h.outpos.toNat + [0x01#8, 0x02#8, 0x03#8].length ≤ s.x.dstCap.toNat ∧
    (ops 0x1000 4 0x8000 2 0 2 2 0 0).dstCap.toNat < h.outpos.toNat + [0x01#8, 0x02#8, 0x03#8].length := by
  refine ⟨by decide, by decide, by decide, by decide, by decide,
    by decide, by decide,
    ⟨by decide, by decide, by decide, ?_, .inr (.inl (by decide)), by decide⟩, by decide⟩
  intro q h1 h2 h3
  have h3 : q + 1 < 2 := h3
  have : q = 0 := by omega
  subst this
  decide

/-- H12's last step: the bit after the source is missing. -/
theorem witness_FaultsArePrecise :
    let s := { sHuf with engine := some (.hufExp ⟨254, 16, 1⟩) }
    s.hostTurn = false ∧ s.engine = some (.hufExp ⟨254, 16, 1⟩) ∧ s.fault = false ∧
    look (exec .hufExp s) (fun t => (t.fault, t.cause)) = some (true, .srcOverrun) := by decide

theorem witness_FaultCausesPerCommand : isCommand .bpcLdp = true ∧ launchCheck .bpcLdp sIdle = some (.srcOverrun, 768) ∧
    isCommand (.rleImg 5#3 true) = true ∧ (launchCheck (.rleImg 5#3 true) sIdle).isSome = true := by decide

theorem witness_FaultHeldUntilCleared :
    let s := withInbox sFault [.write 0x08 0x4#32]
    invariant s = true ∧ s.fault = true ∧ resetNext s = false ∧ look (step s) (fun t => t.fault) = some false ∧
    look (step (withInbox sFault [.write 0x04 0x20#32])) (fun t => (t.fault, t.ovr)) = some (true, true) := by
  decide

theorem witness_LaunchFrame : (withInbox sReady [.write 0x04 0x10#32]).hostTurn = true ∧
    look (exec .hufLdt (withInbox sReady [.write 0x04 0x10#32])) (fun t => t.engine) = some (some (.hufLdt false)) := by
  decide

theorem witness_TableLoadFrame :
    look (exec .hufLdt { sReady with engine := some (.hufLdt true) }) (fun t => t.done) = some true ∧
    look (exec .bpcLdp { sReady with engine := some (.bpcLdp true) }) (fun t => t.done) = some true ∧
    sReady.hostTurn = false := by decide

theorem witness_StreamFrame : invariant sHuf = true ∧ sHuf.hostTurn = false ∧ sHuf.engine = some (.hufExp ⟨254, 0, 5⟩) ∧
    look (exec .hufExp sHuf) (fun t => t.outCnt) = some 1#32 := by decide

theorem witness_PixelFrame :
    let s := st (ops 0x1000 8 0x8000 24 0 4 2 0 0) [0x10, 0, 0, 0, 0, 0, 0, 0] (some (.bpcRgb24 0))
    invariant s = true ∧ s.hostTurn = false ∧ s.engine = some (.bpcRgb24 0) ∧
    look (exec .bpcRgb24 s) (fun t => t.outCnt) = some 3#32 := by decide

theorem witness_OperandsChangeByHostOnly :
    look (step (withInbox sIdle [.write 0x24 0x10003#32])) (fun t => t.x.width) = some 3#16 ∧
    look (step (withInbox sHuf [.write 0x24 0x10003#32])) (fun t => (t.x.width, t.ovr)) = some (0#16, true) ∧
    look (step (withInbox sIdle [.hardReset])) (fun t => t.x) = some Operands.reset := by decide

/-- A table load whose work step succeeds sets the flag; a reset clears both flags. -/
theorem witness_TablesChangeByLoadsOnly :
    look (step (withInbox sIdle [.write 0x34 1#32])) (fun t => (t.tblValid, t.palValid)) = some (false, false) ∧
    resetNext (withInbox sIdle [.write 0x34 1#32]) = true := by decide

theorem witness_StepKeepsInvariant : invariant sHuf = true ∧ look (step sHuf) (fun t => invariant t) = some true := by
  decide

/-- LZS.DEC in the middle of L1: its one output byte is written, and the run after it writes the other five. -/
theorem witness_StepKeepsInvariant_lzs :
    let s := { sLzs [0x01, 0x41, 0xFF, 0x2F] [0x41] ⟨0x80, 2, 5, false⟩ with srcPos := 2 }
    invariant s = true ∧ look (step s) (fun t => (invariant t, t.outCnt)) = some (true, 6#32) := by decide

/-- A step that goes on, and one that stops on a byte nothing has written. -/
theorem witness_EngineStaysInRegions : invariant sHuf = true ∧ sHuf.hostTurn = false ∧
    sHuf.engine = some (.hufExp ⟨254, 0, 5⟩) ∧
    exec .hufExp { sHuf with mem := [] } = .fault (.unwrittenRead 0x1000) := by
  refine ⟨by decide, by decide, by decide, rfl⟩

theorem witness_OperationsEnd : invariant sHuf = true ∧ sHuf.inbox = [] ∧ sHuf.engine = some (.hufExp ⟨254, 0, 5⟩) ∧
    launchOperation sHuf.x .hufExp = some (.hufExp ⟨254, 0, 5⟩) := by decide

/-- Two states that differ in memory outside the regions, in the table HUF.EXP does not use and in other registers. -/
theorem witness_SameInputsSameStep :
    let s' := { sHuf with mem := sHuf.mem.write 0x9000 7#8, pal := Vector.replicate 256 ⟨9, 9, 9⟩, cmd := 0x20#32 }
    invariant sHuf = true ∧ invariant s' = true ∧ sHuf.hostTurn = false ∧ s'.hostTurn = false ∧
    sHuf.engine = some (.hufExp ⟨254, 0, 5⟩) ∧ SameInputs sHuf s' ∧
    look (exec .hufExp sHuf) (fun t => t.outCnt) = some 1#32 := by
  refine ⟨by decide, by decide, rfl, rfl, rfl,
    ⟨rfl, rfl, rfl, rfl, rfl, fun _ _ _ => rfl, fun _ h hu => (by cases h; cases hu), fun a h => ?_,
      fun _ _ h => by cases h⟩, by decide⟩
  have h : (decide (0x1000 ≤ a) && decide (a < 0x1000 + 2)) = true := h
  simp only [Bool.and_eq_true, decide_eq_true_eq] at h
  have h9 : a ≠ 0x9000 := by omega
  exact (Memory.read_write_other _ _ h9).symm

/-- Before the work step of either load no table is an input: here both differ. -/
theorem witness_SameInputsSameStep_loads (img : List Byte) :
    let s := fun op => st (ops 0x1000 1020 0 0 0 0 0 0 0) img (some op)
    let s' := fun op => { s op with tbl := Vector.replicate 255 ⟨7, 7⟩, pal := Vector.replicate 256 ⟨9, 9, 9⟩ }
    SameInputs (s (.hufLdt false)) (s' (.hufLdt false)) ∧ SameInputs (s (.bpcLdp false)) (s' (.bpcLdp false)) :=
  ⟨⟨rfl, rfl, rfl, rfl, rfl, fun _ h hu => (by cases h; cases hu), fun _ h hu => (by cases h; cases hu), fun _ _ => rfl,
      fun _ _ h => by cases h⟩,
    ⟨rfl, rfl, rfl, rfl, rfl, fun _ h hu => (by cases h; cases hu), fun _ h hu => (by cases h; cases hu), fun _ _ => rfl,
      fun _ _ h => by cases h⟩⟩

theorem witness_UnloadedTablesUnobservable :
    let s := { sIdle with tblValid := false, palValid := false }
    invariant s = true ∧ s.tblValid = false ∧ s.palValid = false ∧ look (step s) (fun t => t.busy) = some false := by
  decide

/-- H1: table T, `DA 01`, five bytes in ten bits. -/
theorem witness_HufExpandsReference :
    invariant sHuf = true ∧ sHuf.inbox = [] ∧
    sHuf.engine = some (.hufExp { node := 254, bitcnt := 0, remaining := sHuf.x.outLen }) ∧
    (∀ k, k < sHuf.x.srcLen.toNat →
      sHuf.mem.read (sHuf.x.srcBase.toNat + k) = some ([0xDA#8, 0x01#8].getD k 0)) ∧
    Reference.expand sHuf.tbl (fun k => [0xDA#8, 0x01#8].getD k 0) 3 sHuf.x.outLen.toNat 0 =
      some ([0x41, 0x42, 0x43, 0x44, 0x41], 10) ∧
    10 ≤ 8 * sHuf.x.srcLen.toNat := by decide

/-- L1: `01 41 FF 2F`, six bytes. -/
theorem witness_LzsExpandsReference :
    let src := [0x01#8, 0x41#8, 0xFF#8, 0x2F#8]
    let s := st (ops 0x1000 4 0x8000 6 6 0 0 0 0) src (some (.lzsDec false ⟨1, 0, 6, false⟩))
    invariant s = true ∧ s.inbox = [] ∧
    s.engine = some (.lzsDec false { bucket := 1, srcpos := 0, remaining := s.x.outLen, stop := false }) ∧
    (∀ k, k < s.x.srcLen.toNat → s.mem.read (s.x.srcBase.toNat + k) = some (src.getD k 0)) ∧
    Reference.lzss (fun k => src.getD k 0) s.x.outLen.toNat 4 [] 0 [] =
      some ([0x41, 0x41, 0x41, 0x41, 0x41, 0x41], 4) ∧
    4 ≤ s.x.srcLen.toNat := by decide

theorem witness_PlanarPictureConverted :
    let s := st (ops 0x1000 4 0x8000 16 0 4 1 0 0) [0x10, 0x11, 0x12, 0x13] (some (.bpcRgb32 0))
    invariant s = true ∧ s.inbox = [] ∧ 4 = s.x.width.toNat ∧ 1 = s.x.height.toNat ∧
    (∀ k, k < 4 * 1 → s.mem.read (s.x.srcBase.toNat + k) = some (BitVec.ofNat 8 (0x10 + k))) ∧
    s.engine = some (.bpcRgb32 0) ∧ invariant { s with engine := some (.bpcRgb24 0) } = true := by decide

/-- X1. -/
theorem witness_FlatPictureScales :
    let s := st (ops 0x1000 4 0x8000 24 0 2 2 2 4) [7, 7, 7, 7] (some (.scl2x 1#3 0))
    invariant s = true ∧ s.inbox = [] ∧ 2 = s.x.width.toNat ∧ 2 = s.x.height.toNat ∧
    HoldsImage s.mem s.x.srcBase.toNat s.x.srcStride.toNat (1#3).toNat 2 2 (fun _ _ => [7#8]) ∧
    s.engine = some (.scl2x 1#3 0) ∧ invariant { s with engine := some (.scl2x3 1#3 0) } = true := by decide

/-- E8, with the smallest region that R257 says is enough. -/
theorem witness_ScanlineExpandsBack :
    let l := [0x41#8, 0x42#8, 0x42#8, 0x43#8]
    let s := st (ops 0x1000 4 0x8000 7 0 4 0 0 0) l (some (.rleLine 1#3 ⟨0, 0, 0⟩))
    invariant s = true ∧ s.inbox = [] ∧ 4 = s.x.width.toNat ∧
    HoldsImage s.mem s.x.srcBase.toNat (4 * (1#3).toNat) (1#3).toNat 4 1 (row l) ∧
    4 * (1#3).toNat + (2 * 4 + 2) / 3 ≤ s.x.dstCap.toNat := by decide

end Sys2Proof.Tests
end

section
/-! Settles O51: every step keeps the invariant. The invariant is split into its memory part, the flags and the
operation in progress (`invariant_iff`); then each kind of transition (a host access, a launch, a completing step, a
fault, the work step of each command) is shown to keep it by the lemma that says once what that transition does. -/

namespace Sys2Proof.Machine

/-! ### Buffer memory in order -/

/-- Buffer memory is in its canonical form and inside the first `n` addresses (R34). -/
def Memory.InOrder (n : Nat) (m : Memory) : Prop := m.wf = true ∧ ∀ c ∈ m, c.1 < n

theorem Memory.inOrder_nil (n : Nat) : Memory.InOrder n [] := ⟨rfl, by simp⟩

theorem Memory.InOrder.writeAll {n : Nat} {m : Memory} (hm : Memory.InOrder n m) {a : Nat} {bs : List Byte}
    (ha : a + bs.length ≤ n) : Memory.InOrder n (m.writeAll a bs) :=
  ⟨Memory.writeAll_wf bs m a hm.1, Memory.writeAll_below n bs m a ha hm.2⟩

theorem Memory.InOrder.write {n : Nat} {m : Memory} (hm : Memory.InOrder n m) {a : Nat} {b : Byte} (ha : a + 1 ≤ n) :
    Memory.InOrder n (m.write a b) := hm.writeAll (bs := [b]) ha

/-- Every byte that is written in `m` is written in `m'`: no store makes a byte unwritten again (R71). -/
def Memory.KeepsWritten (m m' : Memory) : Prop := ∀ a, (m.read a).isSome = true → (m'.read a).isSome = true

/-- A memory that differs from `m` only at `n` bytes from `a` up, which it has written, keeps what `m` has written. -/
theorem Memory.keepsWritten_of_range {m m' : Memory} {a n : Nat}
    (hout : ∀ c, c < a ∨ a + n ≤ c → m'.read c = m.read c) (hin : ∀ k, k < n → (m'.read (a + k)).isSome = true) :
    m.KeepsWritten m' := by
  intro c hc
  by_cases h : c < a ∨ a + n ≤ c
  · rwa [hout c h]
  · have := hin (c - a) (by omega)
    rwa [show a + (c - a) = c by omega] at this

theorem Memory.isSome_read_writeAll (m : Memory) (a : Nat) (bs : List Byte) {k : Nat} (hk : k < bs.length) :
    ((m.writeAll a bs).read (a + k)).isSome = true := by
  rw [Memory.read_writeAll_inside bs m a k hk]
  rfl

theorem Memory.keepsWritten_writeAll (m : Memory) (a : Nat) (bs : List Byte) : m.KeepsWritten (m.writeAll a bs) :=
  Memory.keepsWritten_of_range (Memory.read_writeAll_outside bs m a) fun _ => Memory.isSome_read_writeAll m a bs

/-- The copy of a back-reference writes every byte of its run. -/
theorem copyRun_written (dist : Nat) : ∀ {n o : Nat} {s s' : State}, copyRun s dist o n = .ok s' →
    ∀ k, k < n → (s'.mem.read (s.x.dstBase.toNat + o + k)).isSome = true := by
  intro n
  induction n with
  | zero => intro o s s' _ k hk; omega
  | succ n ih =>
    intro o s s' h k hk
    simp only [copyRun] at h
    split at h
    · cases h
    · split at h
      · cases h
      · rename_i b _ _ s1 hs1
        obtain ⟨-, rfl⟩ := dstWrite_ok hs1
        cases k with
        | zero =>
          obtain ⟨-, m, rfl, hout, -, -⟩ := copyRun_ok dist h
          have hfirst := hout (s.x.dstBase.toNat + o) (.inl (by simp only; omega))
          simp only [Nat.add_zero]
          rw [hfirst]
          simp
        | succ k =>
          have hrest := ih h k (by omega)
          rwa [show s.x.dstBase.toNat + (o + 1) + k = s.x.dstBase.toNat + o + (k + 1) by omega] at hrest

/-! ### The invariant and its parts -/

/-- The invariant, part by part. -/
theorem invariant_iff {s : State} :
    invariant s = true ↔ s.mem.InOrder s.platform.memBytes ∧ s.platform.wf = true ∧ flagsExclusive s = true ∧
      operationOk s = true := by
  simp only [invariant, Memory.InOrder, Bool.and_eq_true, List.all_eq_true, decide_eq_true_eq, and_assoc]

/-- At most one of the three flags is 1, as implications. -/
theorem flagsExclusive_iff {s : State} :
    flagsExclusive s = true ↔ (s.busy = true → s.done = false ∧ s.fault = false) ∧
      (s.done = true → s.fault = false) := by
  cases hb : s.busy <;> cases hd : s.done <;> cases hf : s.fault <;> simp [flagsExclusive, hb, hd, hf]

theorem busy_of_engine {s : State} {op : Operation} (he : s.engine = some op) : s.busy = true := by
  simp [State.busy, he]

theorem engine_of_not_busy {s : State} (h : s.busy = false) : s.engine = none := by
  simpa [State.busy] using h

/-- While an operation is in progress, DONE and FAULT are 0 (R24). -/
theorem invariant_flags {s : State} {op : Operation} (hi : invariant s = true) (he : s.engine = some op) :
    s.done = false ∧ s.fault = false :=
  (flagsExclusive_iff.1 (invariant_iff.1 hi).2.2.1).1 (busy_of_engine he)

/-- The invariant of the operation in progress, part by part. -/
theorem operationOk_iff {s : State} {op : Operation} (he : s.engine = some op) :
    operationOk s = true ↔ launchCheck op.instr s = none ∧ s.cause = .none ∧ s.finfo = 0#32 ∧
      progressOk s op = true ∧ ((∀ stopv h, op ≠ .lzsDec stopv h) → s.early = false) := by
  cases op <;> simp [operationOk, he, and_assoc]

/-- The launch checks of the operation in progress would still pass (R139). -/
theorem invariant_launchCheck {s : State} {op : Operation} (hi : invariant s = true) (he : s.engine = some op) :
    launchCheck op.instr s = none :=
  ((operationOk_iff he).1 (invariant_iff.1 hi).2.2.2).1

/-- With no operation in progress the invariant asks nothing of the hidden state. -/
theorem invariant_of_idle {s : State} (he : s.engine = none) (hm : s.mem.InOrder s.platform.memBytes)
    (hp : s.platform.wf = true) (hf : s.done = true → s.fault = false) : invariant s = true :=
  invariant_iff.2 ⟨hm, hp, flagsExclusive_iff.2 ⟨by simp [State.busy, he], hf⟩, by simp [operationOk, he]⟩

/-! ### What the invariant does not look at -/

@[simp] theorem invariant_pop (s : State) : invariant s.pop = invariant s := rfl
@[simp] theorem invariant_setOvr (s : State) (b : Bool) : invariant { s with ovr := b } = invariant s := rfl
@[simp] theorem invariant_writeIe (v : Word) (s : State) : invariant (writeIe v s) = invariant s := rfl
@[simp] theorem invariant_portRead (o : Nat) (s : State) : invariant (portRead o s) = invariant s := rfl
@[simp] theorem invariant_setMemOut (s : State) (bs : List Byte) :
    invariant { s with memOut := bs } = invariant s := rfl
@[simp] theorem operationOk_writeStatus (v : Word) (s : State) : operationOk (writeStatus v s) = operationOk s := rfl

/-! ### The progress of each operation, as propositions -/

theorem progressOk_hufExp {s : State} {h : HufState} :
    progressOk s (.hufExp h) = true ↔ s.outCnt.toNat + h.remaining.toNat = s.x.outLen.toNat ∧
      s.srcPos.toNat = (h.bitcnt.toNat + 7) / 8 ∧ h.bitcnt.toNat ≤ 8 * s.x.srcLen.toNat := by
  simp only [progressOk, Bool.and_eq_true, beq_iff_eq, decide_eq_true_eq, and_assoc]

theorem progressOk_lzsDec {s : State} {stopv : Bool} {h : LzsState} :
    progressOk s (.lzsDec stopv h) = true ↔ s.outCnt.toNat + h.remaining.toNat = s.x.outLen.toNat ∧
      s.srcPos = h.srcpos ∧ h.srcpos.toNat ≤ s.x.srcLen.toNat ∧ h.bucket ≠ 0#9 ∧ s.early = h.stop ∧
      (h.stop = true → stopv = true ∧ 0 < h.remaining.toNat) ∧
      ∀ k, k < s.outCnt.toNat → (s.mem.read (s.x.dstBase.toNat + k)).isSome = true := by
  cases hs : h.stop <;> simp [progressOk, hs, and_assoc]

theorem progressOk_bpcRgb24 {s : State} {i : Word} :
    progressOk s (.bpcRgb24 i) = true ↔ i.toNat ≤ pixelCount s.x ∧ s.srcPos = i ∧ s.outCnt.toNat = 3 * i.toNat := by
  simp only [progressOk, Bool.and_eq_true, beq_iff_eq, decide_eq_true_eq, and_assoc]

theorem progressOk_bpcRgb32 {s : State} {i : Word} :
    progressOk s (.bpcRgb32 i) = true ↔ i.toNat ≤ pixelCount s.x ∧ s.srcPos = i ∧ s.outCnt.toNat = 4 * i.toNat := by
  simp only [progressOk, Bool.and_eq_true, beq_iff_eq, decide_eq_true_eq, and_assoc]

theorem progressOk_scl2x {s : State} {bpp : BitVec 3} {k : Word} :
    progressOk s (.scl2x bpp k) = true ↔ k.toNat ≤ pixelCount s.x ∧ s.srcPos.toNat = k.toNat * bpp.toNat ∧
      s.outCnt.toNat = k.toNat * bpp.toNat * 4 := by
  simp only [progressOk, Bool.and_eq_true, beq_iff_eq, decide_eq_true_eq, and_assoc]

theorem progressOk_scl2x3 {s : State} {bpp : BitVec 3} {k : Word} :
    progressOk s (.scl2x3 bpp k) = true ↔ k.toNat ≤ pixelCount s.x ∧ s.srcPos.toNat = k.toNat * bpp.toNat ∧
      s.outCnt.toNat = k.toNat * bpp.toNat * 6 := by
  simp only [progressOk, Bool.and_eq_true, beq_iff_eq, decide_eq_true_eq, and_assoc]

theorem rleOk_iff {s : State} {rows : Nat} {bpp : BitVec 3} {h : RleState} :
    progressOk.rleOk s rows bpp h = true ↔ s.outCnt = h.outpos ∧ h.outpos.toNat ≤ s.x.dstCap.toNat ∧
      s.srcPos.toNat = (h.row.toNat * s.x.width.toNat + h.p.toNat) * bpp.toNat ∧ h.row.toNat ≤ rows ∧
      (h.p.toNat = 0 ∨ h.p.toNat < s.x.width.toNat ∧ h.row.toNat < rows) := by
  have hp : h.p = 0#16 ↔ h.p.toNat = 0 := by simp [BitVec.toNat_eq]
  simp only [progressOk.rleOk, Bool.and_eq_true, Bool.or_eq_true, beq_iff_eq, decide_eq_true_eq, and_assoc, hp]

/-! ### Host accesses -/

/-- A host write of STATUS can only clear flags (R143). -/
theorem invariant_writeStatus {s : State} (v : Word) (hi : invariant s = true) : invariant (writeStatus v s) = true := by
  obtain ⟨hm, hp, hf, ho⟩ := invariant_iff.1 hi
  obtain ⟨hbusy, hdone⟩ := flagsExclusive_iff.1 hf
  refine invariant_iff.2 ⟨hm, hp, flagsExclusive_iff.2 ⟨fun hb => ?_, fun hd => ?_⟩, by rwa [operationOk_writeStatus]⟩
  · simp [hbusy hb]
  · simp only [writeStatus_done, Bool.and_eq_true] at hd
    simp [hdone hd.1]

/-- A host write of an operand register changes it only while no operation is in progress (R146). -/
theorem invariant_writeOperand {s : State} (v : Word) (r : OperandReg) (hi : invariant s = true) :
    invariant (writeOperand v r s) = true := by
  unfold writeOperand
  split
  · rwa [invariant_setOvr]
  · rename_i hbusy
    obtain ⟨hm, hp, hf, -⟩ := invariant_iff.1 hi
    have he : s.engine = none := engine_of_not_busy (by simpa using hbusy)
    exact invariant_of_idle he hm hp (flagsExclusive_iff.1 hf).2

/-- Fault entry from a state with DONE 0 (R304). -/
theorem invariant_takeFault {s : State} (c : Cause) (info : Nat) (hm : s.mem.InOrder s.platform.memBytes)
    (hp : s.platform.wf = true) (hd : s.done = false) : invariant (takeFault c info s) = true :=
  invariant_of_idle rfl hm hp fun h => absurd (hd.symm.trans h) (by decide)

theorem invariant_softReset {s : State} (hi : invariant s = true) : invariant (softReset s) = true := by
  obtain ⟨hm, hp, -, -⟩ := invariant_iff.1 hi
  exact invariant_of_idle rfl hm hp fun _ => rfl

theorem invariant_hardReset {s : State} (hi : invariant s = true) : invariant (hardReset s) = true := by
  obtain ⟨-, hp, -, -⟩ := invariant_iff.1 hi
  exact invariant_of_idle rfl (Memory.inOrder_nil _) hp fun _ => rfl

theorem invariant_writeIllegal {s : State} (v : Word) (hi : invariant s = true) :
    invariant (writeIllegal v s) = true := by
  obtain ⟨hm, hp, -, -⟩ := invariant_iff.1 hi
  rcases writeIllegal_cases v s with ⟨-, heq⟩ | ⟨-, -, heq⟩
  · rwa [heq, invariant_setOvr]
  · rw [heq]
    exact invariant_takeFault _ _ hm hp rfl

/-- A control-port write that is no instruction keeps the invariant (R131). -/
theorem invariant_plainWrite {s : State} (o : Nat) (v : Word) (hi : invariant s = true) :
    invariant (plainWrite o v s) = true := by
  unfold plainWrite
  cases portReg o with
  | cmd => exact invariant_writeIllegal v hi
  | status => exact invariant_writeStatus v hi
  | ie => rwa [invariant_writeIe]
  | operand r => exact invariant_writeOperand v r hi
  | id | ctrl | cause | finfo | srcPos | outCnt | nothing => exact hi

/-- More written bytes of buffer memory leave the operation in progress in order. -/
theorem operationOk_of_keepsWritten {s : State} {m : Memory} (hk : s.mem.KeepsWritten m) (ho : operationOk s = true) :
    operationOk { s with mem := m } = true := by
  rcases Option.eq_none_or_eq_some s.engine with he | ⟨op, he⟩
  · simp [operationOk, he]
  · obtain ⟨hl, hc, hf, hp, hearly⟩ := (operationOk_iff he).1 ho
    refine (operationOk_iff (s := { s with mem := m }) he).2 ⟨?_, hc, hf, ?_, hearly⟩
    · exact (launchCheck_congr rfl rfl rfl rfl).trans hl
    · cases op with
      | lzsDec stopv h =>
        obtain ⟨hcnt, hsrc, hlen, hbucket, hstop, hstopv, hwritten⟩ := progressOk_lzsDec.1 hp
        exact progressOk_lzsDec.2
          ⟨hcnt, hsrc, hlen, hbucket, hstop, hstopv, fun k hlt => hk _ (hwritten k hlt)⟩
      | hufLdt | hufExp | bpcLdp | bpcRgb24 | bpcRgb32 | scl2x | scl2x3 | rleLine | rleImg => exact hp

/-- A host write of buffer memory keeps the invariant (R34, R47). -/
theorem invariant_hostWrite {s t : State} {a : Nat} {bs : List Byte} (hi : invariant s = true)
    (h : hostWrite a bs s = .next t) : invariant t = true := by
  obtain ⟨hm, hp, hf, ho⟩ := invariant_iff.1 hi
  unfold hostWrite at h
  split at h
  · cases h
  · split at h
    · cases h
    · rename_i s' hs'
      obtain ⟨ha, rfl⟩ := memWrite_ok hs'
      simp only [Host.Outcome.next.injEq] at h
      subst h
      exact invariant_iff.2
        ⟨hm.writeAll ha, hp, hf, operationOk_of_keepsWritten (Memory.keepsWritten_writeAll s.mem a bs) ho⟩

/-- A host read of buffer memory keeps the invariant (R34, R47). -/
theorem invariant_hostRead {s t : State} {a n : Nat} (hi : invariant s = true) (h : hostRead a n s = .next t) :
    invariant t = true := by
  unfold hostRead at h
  split at h
  · simp only [Host.Outcome.next.injEq] at h
    subst h
    rwa [invariant_setMemOut]
  · cases h

/-- A transition that runs no instruction keeps the invariant. -/
theorem invariant_otherTransition {s t : State} (hi : invariant s = true) (h : otherTransition s = .next t) :
    invariant t = true := by
  have hpop : invariant s.pop = true := (invariant_pop s).trans hi
  unfold otherTransition at h
  split at h
  case h_1 => cases h; exact invariant_plainWrite _ _ hpop
  case h_2 => cases h; rwa [invariant_portRead]
  case h_3 => exact invariant_hostRead hpop h
  case h_4 => exact invariant_hostWrite hpop h
  case h_5 => cases h; exact invariant_hardReset hpop
  case h_6 => cases h; exact hpop
  case h_7 => cases h; exact hi

/-! ### Launches -/

/-- What a launch starts is the operation of the command (R133). -/
theorem launchOperation_instr {x : Operands} {i : Instr} {op : Operation} (h : launchOperation x i = some op) :
    op.instr = i := by
  cases i <;> cases h <;> rfl

/-- The launch values are in order: SRC_POS, OUT_CNT and EARLY are 0 (R41 to R45, R133). -/
theorem progressOk_launch {s : State} {i : Instr} {op : Operation} (hsrc : s.srcPos = 0) (hout : s.outCnt = 0)
    (hearly : s.early = false) (h : launchOperation s.x i = some op) : progressOk s op = true := by
  cases i <;> cases h <;> simp [progressOk, progressOk.rleOk, hsrc, hout, hearly]

/-- A write of a command to CMD keeps the invariant: it is dropped, faults at launch, or starts the operation. -/
theorem invariant_writeCmd {s : State} {v : Word} {i : Instr} {start : State → Operation} (hi : invariant s = true)
    (hstart : ∀ a, launchOperation a.x i = some (start a)) :
    invariant (writeCmd v (launchCheck i) start s) = true := by
  obtain ⟨hm, hp, -, -⟩ := invariant_iff.1 hi
  rcases writeCmd_cases v (launchCheck i) start s with
    ⟨-, heq⟩ | ⟨-, -, c, info, -, heq⟩ | ⟨-, hfault, hcheck, heq⟩
  · rwa [heq, invariant_setOvr]
  · rw [heq]
    exact invariant_takeFault c info hm hp rfl
  · rw [heq]
    have hop := hstart (acceptCmd v s)
    refine invariant_iff.2 ⟨hm, hp, flagsExclusive_iff.2 ⟨fun _ => ⟨rfl, hfault⟩, fun _ => hfault⟩,
      (operationOk_iff rfl).2 ⟨?_, rfl, rfl, progressOk_launch rfl rfl rfl hop, fun _ => rfl⟩⟩
    rw [launchOperation_instr hop]
    exact (launchCheck_congr rfl rfl rfl rfl).trans hcheck

/-! ### What the passed launch checks say of the regions -/

/-- The source bytes a command needs lie in its source region once the launch checks passed (R138). -/
theorem needSrc_le {s : State} {i : Instr} {n : Nat} (hl : launchCheck i s = none) (hn : needSrc s.x i = some n) :
    n ≤ s.x.srcLen.toNat := by
  obtain ⟨-, -, -, -, hneed⟩ := launchCheck_none.1 hl
  exact (needCheck_none.1 hneed).1 n hn

/-- The destination bytes a command needs lie in its destination region once the launch checks passed (R138). -/
theorem needDst_le {s : State} {i : Instr} {n : Nat} (hl : launchCheck i s = none) (hn : needDst s.x i = some n) :
    n ≤ s.x.dstCap.toNat := by
  obtain ⟨-, -, -, -, hneed⟩ := launchCheck_none.1 hl
  exact (needCheck_none.1 hneed).2 n hn

/-! ### Work steps -/

/-- What every work step leaves unchanged (R140). -/
structure WorkFrame (s t : State) : Prop where
  x : t.x = s.x
  platform : t.platform = s.platform
  cause : t.cause = s.cause
  finfo : t.finfo = s.finfo
  done : t.done = s.done
  fault : t.fault = s.fault

/-- A work step from `op` to `op'` keeps the invariant once memory stays in order, the launch checks still pass, EARLY
rises for LZS.DEC only, and the progress of `op'` is in order. -/
theorem invariant_of_work {s t : State} {op op' : Operation} (hi : invariant s = true) (he : s.engine = some op)
    (hframe : WorkFrame s t) (he' : t.engine = some op') (hl : launchCheck op'.instr t = launchCheck op.instr s)
    (hm : t.mem.InOrder s.platform.memBytes) (hearly : (∀ stopv h, op' ≠ .lzsDec stopv h) → t.early = false)
    (hp : progressOk t op' = true) : invariant t = true := by
  obtain ⟨-, hpl, hf, ho⟩ := invariant_iff.1 hi
  obtain ⟨hcheck, hc, hinfo, -, -⟩ := (operationOk_iff he).1 ho
  obtain ⟨hdone, hfault⟩ := invariant_flags hi he
  have hfault' : t.fault = false := hframe.fault.trans hfault
  refine invariant_iff.2 ⟨by rwa [hframe.platform], by rwa [hframe.platform],
    flagsExclusive_iff.2 ⟨fun _ => ⟨hframe.done.trans hdone, hfault'⟩, fun _ => hfault'⟩,
    (operationOk_iff he').2 ⟨hl.trans hcheck, hframe.cause.trans hc, hframe.finfo.trans hinfo, hp, hearly⟩⟩

/-- HUF.LDT's work step (R160). -/
theorem invariant_hufLoadWork {s t : State} {loaded : Bool} (hi : invariant s = true)
    (he : s.engine = some (.hufLdt loaded)) (h : hufLoadWork s = .ok (.to t)) : invariant t = true := by
  obtain ⟨img, -, rfl⟩ := hufLoadWork_to h
  have hearly : s.early = false := (invariant_operation hi he).2 (by simp)
  exact invariant_of_work (op' := .hufLdt true) hi he ⟨rfl, rfl, rfl, rfl, rfl, rfl⟩ rfl rfl (invariant_iff.1 hi).1
    (fun _ => hearly) (by simp [progressOk])

/-- BPC.LDP's work step (R200). -/
theorem invariant_bpcLoadWork {s t : State} {loaded : Bool} (hi : invariant s = true)
    (he : s.engine = some (.bpcLdp loaded)) (h : bpcLoadWork s = .ok (.to t)) : invariant t = true := by
  obtain ⟨img, -, rfl⟩ := bpcLoadWork_to h
  have hearly : s.early = false := (invariant_operation hi he).2 (by simp)
  exact invariant_of_work (op' := .bpcLdp true) hi he ⟨rfl, rfl, rfl, rfl, rfl, rfl⟩ rfl rfl (invariant_iff.1 hi).1
    (fun _ => hearly) (by simp [progressOk])

/-- The registers after a HUF.EXP step count one stream bit more (R41, R162). -/
theorem HufState.advance_counts {h : HufState} {srcLen : Word} (node : Fin 255) (remaining : Word)
    (hlen : h.bitcnt.toNat / 8 < srcLen.toNat) :
    h.nextSrcPos.toNat = ((h.advance node remaining).bitcnt.toNat + 7) / 8 ∧
      (h.advance node remaining).bitcnt.toNat ≤ 8 * srcLen.toNat := by
  have hsrc := srcLen.isLt
  have hbit : (h.advance node remaining).bitcnt.toNat = h.bitcnt.toNat + 1 := by
    simp only [HufState.advance, BitVec.toNat_ofNat]
    omega
  rw [hbit]
  refine ⟨?_, by omega⟩
  simp only [HufState.nextSrcPos, BitVec.toNat_ofNat]
  omega

/-- HUF.EXP's work step (R162). -/
theorem invariant_hufWork {s t : State} {g : HufState} (hi : invariant s = true) (he : s.engine = some (.hufExp g))
    (hwork : doneTest s (.hufExp g) = false) (h : hufWork g s = .ok (.to t)) : invariant t = true := by
  obtain ⟨hp, hearly⟩ := invariant_operation hi he
  obtain ⟨hcnt, -, -⟩ := progressOk_hufExp.1 hp
  have hm := (invariant_iff.1 hi).1
  have hrem : g.remaining.toNat ≠ 0 := by simpa [doneTest] using hwork
  obtain ⟨hlen, byte, -, ⟨b, hb, -, rfl⟩ | ⟨node, -, rfl⟩⟩ := hufWork_to h
  · have hout := s.x.outLen.isLt
    obtain ⟨hsrc, hbits⟩ := g.advance_counts 254 (BitVec.ofNat 32 (g.remaining.toNat - 1)) hlen
    refine invariant_of_work hi he ⟨rfl, rfl, rfl, rfl, rfl, rfl⟩ rfl rfl (hm.write hb)
      (fun _ => hearly (by simp)) (progressOk_hufExp.2 ⟨?_, hsrc, hbits⟩)
    simp only [HufState.advance, BitVec.toNat_ofNat]
    omega
  · obtain ⟨hsrc, hbits⟩ := g.advance_counts node g.remaining hlen
    exact invariant_of_work hi he ⟨rfl, rfl, rfl, rfl, rfl, rfl⟩ rfl rfl hm
      (fun _ => hearly (by simp)) (progressOk_hufExp.2 ⟨hcnt, hsrc, hbits⟩)


/-! ### The work step of LZS.DEC -/

/-- What one token of LZS.DEC does: it stores `n` bytes at the output position, moves the source position to `pos`, and
sets `stop` and EARLY together, which the stop sentinel alone does (R181, R183; log 24). -/
structure LzsTokenEffect (stopv : Bool) (g : LzsState) (bucket : BitVec 9) (s t : State) (m : Memory) (n pos : Nat)
    (stop : Bool) : Prop where
  state : t = lzsAdvance stopv stop bucket pos (g.remaining.toNat - n)
    { s with mem := m, outCnt := BitVec.ofNat 32 (s.outCnt.toNat + n), early := stop }
  count_le : n ≤ g.remaining.toNat
  pos_le : pos ≤ s.x.srcLen.toNat
  stopped : stop = true → stopv = true ∧ n = 0
  inOrder : s.mem.InOrder s.platform.memBytes → m.InOrder s.platform.memBytes
  keepsWritten : s.mem.KeepsWritten m
  written : ∀ k, k < n → (m.read (s.x.dstBase.toNat + s.outCnt.toNat + k)).isSome = true

theorem lzsLiteral_effect {stopv : Bool} {g : LzsState} {bucket : BitVec 9} {pos : Nat} {s t : State}
    (hearly : s.early = false) (hstop : g.stop = false) (hrem : 0 < g.remaining.toNat)
    (h : lzsLiteral stopv g bucket pos s = .ok (.to t)) :
    ∃ m n pos' stop, LzsTokenEffect stopv g bucket s t m n pos' stop := by
  obtain ⟨hlen, b, -, hb, rfl⟩ := lzsLiteral_to h
  refine ⟨s.mem.writeAll (s.x.dstBase.toNat + s.outCnt.toNat) [b], 1, pos + 1, false, ?_⟩
  exact {
    state := by simp [hstop, hearly]
    count_le := hrem
    pos_le := hlen
    stopped := by simp
    inOrder := fun hm => hm.writeAll hb
    keepsWritten := Memory.keepsWritten_writeAll _ _ _
    written := fun _ hk => Memory.isSome_read_writeAll _ _ _ hk }

theorem lzsToken_effect {stopv : Bool} {g : LzsState} {bucket : BitVec 9} {pos : Nat} {tok : Half} {s t : State}
    (hearly : s.early = false) (hstop : g.stop = false) (hlen : pos ≤ s.x.srcLen.toNat)
    (h : lzsToken stopv g bucket pos tok s = .ok (.to t)) :
    ∃ m n pos' stop, LzsTokenEffect stopv g bucket s t m n pos' stop := by
  rcases lzsToken_to h with ⟨hstopv, -, rfl⟩ | ⟨-, -, hfits, s', hcopy, rfl⟩
  · refine ⟨s.mem, 0, pos, true, ?_⟩
    exact {
      state := by simp
      count_le := Nat.zero_le _
      pos_le := hlen
      stopped := fun _ => ⟨hstopv, rfl⟩
      inOrder := id
      keepsWritten := fun _ => id
      written := fun k hk => absurd hk (Nat.not_lt_zero k) }
  · have hwritten := copyRun_written _ hcopy
    obtain ⟨-, m, rfl, hout, hwf, hbelow⟩ := copyRun_ok _ hcopy
    refine ⟨m, tokenLen tok, pos, false, ?_⟩
    exact {
      state := by simp [hstop, hearly]
      count_le := hfits
      pos_le := hlen
      stopped := by simp
      inOrder := fun hm => ⟨hwf hm.1, hbelow hm.2⟩
      keepsWritten := Memory.keepsWritten_of_range hout hwritten
      written := hwritten }

/-- A control bit and its token, literal or back-reference, have one such effect (R181). -/
theorem lzsItem_effect {stopv : Bool} {g : LzsState} {bucket : BitVec 9} {pos : Nat} {s t : State}
    (hearly : s.early = false) (hstop : g.stop = false) (hrem : 0 < g.remaining.toNat)
    (h : lzsItem stopv g bucket pos s = .ok (.to t)) :
    ∃ m n pos' stop, LzsTokenEffect stopv g (bucket >>> 1) s t m n pos' stop := by
  unfold lzsItem at h
  split at h
  · exact lzsLiteral_effect hearly hstop hrem h
  · obtain ⟨hlen, b0, b1, -, -, htok⟩ := lzsBackref_to h
    exact lzsToken_effect hearly hstop hlen htok

/-- A token taken with a bucket that does not run out of its marker bit keeps the invariant. -/
theorem invariant_lzsItem {s t : State} {stopv : Bool} {g : LzsState} {bucket : BitVec 9} {pos : Nat}
    (hi : invariant s = true) (he : s.engine = some (.lzsDec stopv g)) (hwork : doneTest s (.lzsDec stopv g) = false)
    (hbucket : bucket >>> 1 ≠ 0#9) (h : lzsItem stopv g bucket pos s = .ok (.to t)) : invariant t = true := by
  obtain ⟨hcnt, -, -, -, hearly, -, hwritten⟩ := progressOk_lzsDec.1 (invariant_operation hi he).1
  simp only [doneTest, Bool.or_eq_false_iff, beq_eq_false_iff_ne] at hwork
  obtain ⟨hrem, hstop⟩ := hwork
  obtain ⟨m, n, pos', stop, heff⟩ := lzsItem_effect (hearly.trans hstop) hstop (by omega) h
  obtain rfl := heff.state
  have hcount := heff.count_le
  have hpos := heff.pos_le
  have hout := s.x.outLen.isLt
  have hsrc := s.x.srcLen.isLt
  have houtCnt : (BitVec.ofNat 32 (s.outCnt.toNat + n)).toNat = s.outCnt.toNat + n := by
    simp only [BitVec.toNat_ofNat]; omega
  have hremaining : (BitVec.ofNat 32 (g.remaining.toNat - n)).toNat = g.remaining.toNat - n := by
    simp only [BitVec.toNat_ofNat]; omega
  refine invariant_of_work hi he ⟨rfl, rfl, rfl, rfl, rfl, rfl⟩ rfl rfl (heff.inOrder (invariant_iff.1 hi).1)
    (fun hn => absurd rfl (hn _ _)) (progressOk_lzsDec.2 ⟨?_, rfl, ?_, hbucket, rfl, fun hs => ?_, fun k hk => ?_⟩)
  · simp only [lzsAdvance_outCnt, lzsAdvance_x, houtCnt, hremaining]
    omega
  · simp only [lzsAdvance_x, BitVec.toNat_ofNat]
    omega
  · obtain ⟨hstopv, hn⟩ := heff.stopped hs
    refine ⟨hstopv, ?_⟩
    simp only [hremaining]
    omega
  · simp only [lzsAdvance_outCnt, houtCnt] at hk
    simp only [lzsAdvance_mem, lzsAdvance_x]
    by_cases hlt : k < s.outCnt.toNat
    · exact heff.keepsWritten _ (hwritten k hlt)
    · have hnew := heff.written (k - s.outCnt.toNat) (by omega)
      rwa [show s.x.dstBase.toNat + s.outCnt.toNat + (k - s.outCnt.toNat) = s.x.dstBase.toNat + k by omega] at hnew

/-- A bucket above its marker bit still holds the marker after a shift. -/
theorem bucket_shift_ne_zero {b : BitVec 9} (h0 : b ≠ 0#9) (h1 : b ≠ 1#9) : b >>> 1 ≠ 0#9 := by
  bv_omega

/-- A refilled bucket holds the marker above its eight control bits (R181). -/
theorem refill_shift_ne_zero (ctl : Byte) : (1#1 ++ ctl) >>> 1 ≠ 0#9 := by
  revert ctl
  decide

/-- LZS.DEC's work step (R181). -/
theorem invariant_lzsWork {s t : State} {stopv : Bool} {g : LzsState} (hi : invariant s = true)
    (he : s.engine = some (.lzsDec stopv g)) (hwork : doneTest s (.lzsDec stopv g) = false)
    (h : lzsWork stopv g s = .ok (.to t)) : invariant t = true := by
  obtain ⟨-, -, -, hbucket, -, -, -⟩ := progressOk_lzsDec.1 (invariant_operation hi he).1
  rcases lzsWork_to h with ⟨hmore, hitem⟩ | ⟨-, -, ctl, -, hitem⟩
  · exact invariant_lzsItem hi he hwork (bucket_shift_ne_zero hbucket hmore) hitem
  · exact invariant_lzsItem hi he hwork (refill_shift_ne_zero ctl) hitem

/-! ### The work steps that count pixels -/

/-- WIDTH and HEIGHT have 16 bits, so a pixel count fits in a register (R22). -/
theorem pixelCount_lt (x : Operands) : pixelCount x < 2 ^ 32 :=
  (Nat.mul_lt_mul'' x.width.isLt x.height.isLt : _ < 2 ^ 16 * 2 ^ 16)

/-- The next pixel number does not wrap while pixels are left. -/
theorem toNat_nextPixel {x : Operands} {i : Word} (h : i.toNat < pixelCount x) :
    (BitVec.ofNat 32 (i.toNat + 1)).toNat = i.toNat + 1 := by
  have := pixelCount_lt x
  simp only [BitVec.toNat_ofNat]
  omega

/-- A conversion step counts one pixel more and stores one pixel of `bpp` bytes (R202, R203). -/
theorem bpcWork_counts {pixel : Rgb → List Byte} {bpp : Nat} {next : Word → Operation} {i : Word} {s t : State}
    (hlt : i.toNat < pixelCount s.x) (hbytes : pixelCount s.x * bpp ≤ s.x.dstCap.toNat)
    (h : bpcWork pixel bpp next i s = .ok (.to t)) :
    (BitVec.ofNat 32 (i.toNat + 1)).toNat ≤ pixelCount t.x ∧ t.srcPos = BitVec.ofNat 32 (i.toNat + 1) ∧
      t.outCnt.toNat = bpp * (BitVec.ofNat 32 (i.toNat + 1)).toNat := by
  obtain ⟨c, -, -, rfl⟩ := bpcWork_to h
  have hcap := s.x.dstCap.isLt
  have hfits : bpp * (i.toNat + 1) ≤ pixelCount s.x * bpp := by
    rw [Nat.mul_comm]
    exact Nat.mul_le_mul_right bpp hlt
  rw [toNat_nextPixel hlt]
  refine ⟨hlt, rfl, ?_⟩
  simp only [BitVec.toNat_ofNat]
  omega

/-- A conversion step keeps the invariant once the progress after it is in order. -/
theorem invariant_bpcWork {pixel : Rgb → List Byte} {bpp : Nat} {next : Word → Operation} {i : Word} {s t : State}
    (hi : invariant s = true) (he : s.engine = some (next i)) (hinstr : ∀ j, (next j).instr = (next i).instr)
    (hearly : s.early = false) (h : bpcWork pixel bpp next i s = .ok (.to t))
    (hp : progressOk t (next (BitVec.ofNat 32 (i.toNat + 1))) = true) : invariant t = true := by
  obtain ⟨c, -, hm, rfl⟩ := bpcWork_to h
  refine invariant_of_work hi he ⟨rfl, rfl, rfl, rfl, rfl, rfl⟩ rfl ?_ ((invariant_iff.1 hi).1.writeAll hm)
    (fun _ => hearly) hp
  rw [hinstr]
  exact launchCheck_congr rfl rfl rfl rfl

/-- BPC.RGB24's work step (R202). -/
theorem invariant_bpcRgb24Work {s t : State} {i : Word} (hi : invariant s = true)
    (he : s.engine = some (.bpcRgb24 i)) (hwork : doneTest s (.bpcRgb24 i) = false)
    (h : bpcWork rgb24Bytes 3 .bpcRgb24 i s = .ok (.to t)) : invariant t = true := by
  obtain ⟨hp, hearly⟩ := invariant_operation hi he
  have hlt : i.toNat < pixelCount s.x :=
    lt_of_le_of_ne (progressOk_bpcRgb24.1 hp).1 (by simpa [doneTest] using hwork)
  have hbytes := needDst_le (invariant_launchCheck hi he) rfl
  exact invariant_bpcWork hi he (fun _ => rfl) (hearly (by simp)) h
    (progressOk_bpcRgb24.2 (bpcWork_counts hlt hbytes h))

/-- BPC.RGB32's work step (R203). -/
theorem invariant_bpcRgb32Work {s t : State} {i : Word} (hi : invariant s = true)
    (he : s.engine = some (.bpcRgb32 i)) (hwork : doneTest s (.bpcRgb32 i) = false)
    (h : bpcWork rgb32Bytes 4 .bpcRgb32 i s = .ok (.to t)) : invariant t = true := by
  obtain ⟨hp, hearly⟩ := invariant_operation hi he
  have hlt : i.toNat < pixelCount s.x :=
    lt_of_le_of_ne (progressOk_bpcRgb32.1 hp).1 (by simpa [doneTest] using hwork)
  have hbytes := needDst_le (invariant_launchCheck hi he) rfl
  exact invariant_bpcWork hi he (fun _ => rfl) (hearly (by simp)) h
    (progressOk_bpcRgb32.2 (bpcWork_counts hlt hbytes h))

/-- Rows of `w` bytes that lie `stride ≥ w` bytes apart within `len` bytes have no more than `len` bytes in all. -/
theorem rows_bytes_le {rows stride w len : Nat} (hrows : 0 < rows) (hw : w ≤ stride)
    (hlen : (rows - 1) * stride + w ≤ len) : rows * w ≤ len := by
  obtain ⟨r, rfl⟩ : ∃ r, rows = r + 1 := ⟨rows - 1, by omega⟩
  calc (r + 1) * w = r * w + w := Nat.succ_mul r w
    _ ≤ r * stride + w := Nat.add_le_add_right (Nat.mul_le_mul_left r hw) w
    _ ≤ len := hlen

/-- The image and its scaled copy, `f` rows a block, fit their regions once the scaler's launch checks passed (R136,
R138). -/
theorem scl_bytes_le {s : State} {i : Instr} {bpp : BitVec 3} {f : Nat} (hf : 0 < f) (hl : launchCheck i s = none)
    (hparam : paramCheck s.x i = sclParams s.x bpp)
    (hsrc : needSrc s.x i = some ((s.x.height.toNat - 1) * s.x.srcStride.toNat + s.x.width.toNat * bpp.toNat))
    (hdst : needDst s.x i = some ((f * s.x.height.toNat - 1) * s.x.dstStride.toNat + 2 * s.x.width.toNat * bpp.toNat)) :
    pixelCount s.x * bpp.toNat ≤ s.x.srcLen.toNat ∧ pixelCount s.x * bpp.toNat * 2 * f ≤ s.x.dstCap.toNat := by
  obtain ⟨-, -, hp, -, -⟩ := launchCheck_none.1 hl
  rw [hparam, sclParams, firstFail_none] at hp
  simp only [List.mem_cons, List.not_mem_nil, or_false, forall_eq_or_imp, forall_eq, decide_eq_false_iff_not,
    not_lt] at hp
  obtain ⟨-, hheight, hsrcStride, hdstStride⟩ := hp
  have hfrows : 0 < f * s.x.height.toNat := Nat.mul_pos hf (by omega)
  have hsrcBytes := rows_bytes_le (by omega) hsrcStride (needSrc_le hl hsrc)
  have hdstBytes := rows_bytes_le hfrows hdstStride (needDst_le hl hdst)
  constructor
  · calc pixelCount s.x * bpp.toNat = s.x.height.toNat * (s.x.width.toNat * bpp.toNat) := by unfold pixelCount; ring
      _ ≤ s.x.srcLen.toNat := hsrcBytes
  · calc pixelCount s.x * bpp.toNat * 2 * f = f * s.x.height.toNat * (2 * s.x.width.toNat * bpp.toNat) := by
          unfold pixelCount; ring
      _ ≤ s.x.dstCap.toNat := hdstBytes

/-- A scaler step counts one source pixel more and one block more (R44, R224). -/
theorem sclWork_counts {kernel : Nbhd → List Pixel} {bpp f : Nat} {next : Word → Operation} {k : Word} {s t : State}
    (hlt : k.toNat < pixelCount s.x) (hsrc : pixelCount s.x * bpp ≤ s.x.srcLen.toNat)
    (hdst : pixelCount s.x * bpp * 2 * f ≤ s.x.dstCap.toNat) (h : sclWork kernel bpp f next k s = .ok (.to t)) :
    (BitVec.ofNat 32 (k.toNat + 1)).toNat ≤ pixelCount t.x ∧
      t.srcPos.toNat = (BitVec.ofNat 32 (k.toNat + 1)).toNat * bpp ∧
      t.outCnt.toNat = (BitVec.ofNat 32 (k.toNat + 1)).toNat * bpp * (2 * f) := by
  obtain ⟨n, s', -, hblock, rfl⟩ := sclWork_to h
  obtain ⟨m, rfl, -, -, -⟩ := writeBlock_ok _ _ _ _ hblock
  have hlen := s.x.srcLen.isLt
  have hcap := s.x.dstCap.isLt
  have hpos : (k.toNat + 1) * bpp ≤ pixelCount s.x * bpp := Nat.mul_le_mul_right bpp hlt
  have hout : (k.toNat + 1) * bpp * 2 * f ≤ pixelCount s.x * bpp * 2 * f :=
    Nat.mul_le_mul_right f (Nat.mul_le_mul_right 2 hpos)
  rw [toNat_nextPixel hlt, ← Nat.mul_assoc]
  refine ⟨hlt, ?_, ?_⟩ <;>
    simp only [BitVec.toNat_ofNat] <;>
    omega

/-- A scaler step keeps the invariant once the progress after it is in order. -/
theorem invariant_sclWork {kernel : Nbhd → List Pixel} {bpp f : Nat} {next : Word → Operation} {k : Word} {s t : State}
    (hi : invariant s = true) (he : s.engine = some (next k)) (hinstr : ∀ j, (next j).instr = (next k).instr)
    (hearly : s.early = false) (h : sclWork kernel bpp f next k s = .ok (.to t))
    (hp : progressOk t (next (BitVec.ofNat 32 (k.toNat + 1))) = true) : invariant t = true := by
  obtain ⟨n, s', -, hblock, rfl⟩ := sclWork_to h
  obtain ⟨m, rfl, -, hwf, hbelow⟩ := writeBlock_ok _ _ _ _ hblock
  obtain ⟨hcanon, hlt⟩ := (invariant_iff.1 hi).1
  refine invariant_of_work hi he ⟨rfl, rfl, rfl, rfl, rfl, rfl⟩ rfl ?_ ⟨hwf hcanon, hbelow hlt⟩ (fun _ => hearly) hp
  rw [hinstr]
  exact launchCheck_congr rfl rfl rfl rfl

/-- SCL.2X's work step (R222, R224). -/
theorem invariant_scl2xWork {s t : State} {bpp : BitVec 3} {k : Word} (hi : invariant s = true)
    (he : s.engine = some (.scl2x bpp k)) (hwork : doneTest s (.scl2x bpp k) = false)
    (h : sclWork (kernel2x s.platform.k2x) bpp.toNat 2 (.scl2x bpp) k s = .ok (.to t)) : invariant t = true := by
  obtain ⟨hp, hearly⟩ := invariant_operation hi he
  have hlt : k.toNat < pixelCount s.x :=
    lt_of_le_of_ne (progressOk_scl2x.1 hp).1 (by simpa [doneTest, pixelCount] using hwork)
  obtain ⟨hsrc, hdst⟩ := scl_bytes_le (by decide) (invariant_launchCheck hi he) rfl rfl rfl
  exact invariant_sclWork hi he (fun _ => rfl) (hearly (by simp)) h
    (progressOk_scl2x.2 (sclWork_counts hlt hsrc hdst h))

/-- SCL.2X3's work step (R223, R224). -/
theorem invariant_scl2x3Work {s t : State} {bpp : BitVec 3} {k : Word} (hi : invariant s = true)
    (he : s.engine = some (.scl2x3 bpp k)) (hwork : doneTest s (.scl2x3 bpp k) = false)
    (h : sclWork (kernel2x3 s.platform.k2x3) bpp.toNat 3 (.scl2x3 bpp) k s = .ok (.to t)) : invariant t = true := by
  obtain ⟨hp, hearly⟩ := invariant_operation hi he
  have hlt : k.toNat < pixelCount s.x :=
    lt_of_le_of_ne (progressOk_scl2x3.1 hp).1 (by simpa [doneTest, pixelCount] using hwork)
  obtain ⟨hsrc, hdst⟩ := scl_bytes_le (by decide) (invariant_launchCheck hi he) rfl rfl rfl
  exact invariant_sclWork hi he (fun _ => rfl) (hearly (by simp)) h
    (progressOk_scl2x3.2 (sclWork_counts hlt hsrc hdst h))

/-! ### The work steps of RLE.LINE and RLE.IMG -/

/-- After a packet that ends inside or at the end of a row, the cursor lies in the image: at the start of a row, or in
a row that is left (R45, R252). -/
theorem rleNext_cursor {g : RleState} {w rows n : Nat} (hrow : g.row.toNat < rows) (hn : g.p.toNat + n ≤ w) :
    rleNextRow w g n ≤ rows ∧ (rleNextP w g n = 0 ∨ rleNextP w g n < w ∧ rleNextRow w g n < rows) := by
  unfold rleNextRow rleNextP
  split
  · exact ⟨hrow, .inl rfl⟩
  · exact ⟨hrow.le, .inr ⟨by omega, hrow⟩⟩

/-- A cursor in an image of `rows` rows of `w` pixels has at most all pixels before it. -/
theorem cursor_le {w rows row p : Nat} (hrow : row ≤ rows) (hp : p = 0 ∨ p < w ∧ row < rows) :
    row * w + p ≤ rows * w := by
  rcases hp with rfl | ⟨hp, hlt⟩
  · exact Nat.mul_le_mul_right w hrow
  · calc row * w + p ≤ row * w + w := Nat.add_le_add_left hp.le _
      _ = (row + 1) * w := (Nat.succ_mul row w).symm
      _ ≤ rows * w := Nat.mul_le_mul_right w hlt

/-- A work step of an RLE operation of `rows` rows moves its cursors within the image and the destination region. -/
theorem rleWork_progress {bpp : BitVec 3} {y rows : Nat} {next : RleState → Operation} {g : RleState} {s t : State}
    (hrows : rows < 2 ^ 16) (hbytes : rows * s.x.width.toNat * bpp.toNat ≤ s.x.srcLen.toNat)
    (hp : progressOk.rleOk s rows bpp g = true) (hwork : rleDone rows g s.x = false)
    (h : rleWork bpp.toNat y next g s = .ok (.to t)) :
    t.x = s.x ∧ ∃ g', t.engine = some (next g') ∧ progressOk.rleOk t rows bpp g' = true := by
  obtain ⟨-, -, -, hrow, hcol⟩ := rleOk_iff.1 hp
  simp only [rleDone, Bool.or_eq_false_iff, beq_eq_false_iff_ne] at hwork
  obtain ⟨hwidth, hleft⟩ := hwork
  have hlt : g.row.toNat < rows := lt_of_le_of_ne hrow hleft
  obtain ⟨k, bs, hk, -, hfits, -, rfl⟩ := rleWork_to h
  obtain ⟨-, -, hcount, -⟩ := choosePacket_ok (fun _ _ => rowPixel_length) (by omega) hk
  refine ⟨rfl, g.advance s.x.width.toNat k, rfl, ?_⟩
  obtain ⟨hrow', hcol'⟩ := rleNext_cursor hlt hcount
  have hcap := s.x.dstCap.isLt
  have hlen := s.x.srcLen.isLt
  have hw := s.x.width.isLt
  have hpos := (Nat.mul_le_mul_right bpp.toNat (cursor_le hrow' hcol')).trans hbytes
  have hrowN : (g.advance s.x.width.toNat k).row.toNat = rleNextRow s.x.width.toNat g k.count := by
    simp only [RleState.advance, BitVec.toNat_ofNat]
    omega
  have hpN : (g.advance s.x.width.toNat k).p.toNat = rleNextP s.x.width.toNat g k.count := by
    simp only [RleState.advance, BitVec.toNat_ofNat]
    omega
  refine rleOk_iff.2 ⟨rfl, ?_, ?_, ?_⟩
  · simp only [RleState.advance, BitVec.toNat_ofNat, rleNext_x]
    omega
  · simp only [rleNext_srcPos, rleNext_x, BitVec.toNat_ofNat, hrowN, hpN]
    omega
  · rw [hrowN, hpN]
    exact ⟨hrow', hcol'⟩

/-- An RLE step keeps the invariant once the progress after it is in order. -/
theorem invariant_rleWork {bpp y : Nat} {next : RleState → Operation} {g : RleState} {s t : State}
    (hi : invariant s = true) (he : s.engine = some (next g)) (hinstr : ∀ j, (next j).instr = (next g).instr)
    (hearly : s.early = false) (h : rleWork bpp y next g s = .ok (.to t))
    (hp : ∃ g', t.engine = some (next g') ∧ progressOk t (next g') = true) : invariant t = true := by
  obtain ⟨k, bs, -, -, -, hm, rfl⟩ := rleWork_to h
  obtain ⟨g', he', hp⟩ := hp
  refine invariant_of_work hi he ⟨rfl, rfl, rfl, rfl, rfl, rfl⟩ he' ?_ ((invariant_iff.1 hi).1.writeAll hm)
    (fun _ => hearly) hp
  rw [hinstr]
  exact launchCheck_congr rfl rfl rfl rfl

/-- RLE.LINE's work step (R252, R253). -/
theorem invariant_rleLineWork {s t : State} {bpp : BitVec 3} {g : RleState} (hi : invariant s = true)
    (he : s.engine = some (.rleLine bpp g)) (hwork : doneTest s (.rleLine bpp g) = false)
    (h : rleWork bpp.toNat 0 (.rleLine bpp) g s = .ok (.to t)) : invariant t = true := by
  obtain ⟨hp, hearly⟩ := invariant_operation hi he
  have hbytes := needSrc_le (invariant_launchCheck hi he) rfl
  obtain ⟨-, hp'⟩ := rleWork_progress (rows := 1) (by decide) (by rwa [Nat.one_mul]) hp hwork h
  exact invariant_rleWork hi he (fun _ => rfl) (hearly (by simp)) h hp'

/-- RLE.IMG's work step (R252, R254). -/
theorem invariant_rleImgWork {s t : State} {bpp : BitVec 3} {topdown : Bool} {y : Nat} {g : RleState}
    (hi : invariant s = true) (he : s.engine = some (.rleImg bpp topdown g))
    (hwork : doneTest s (.rleImg bpp topdown g) = false)
    (h : rleWork bpp.toNat y (.rleImg bpp topdown) g s = .ok (.to t)) : invariant t = true := by
  obtain ⟨hp, hearly⟩ := invariant_operation hi he
  have hbytes := needSrc_le (invariant_launchCheck hi he) rfl
  rw [Nat.mul_comm s.x.width.toNat] at hbytes
  obtain ⟨hx, hp'⟩ := rleWork_progress s.x.height.isLt hbytes hp hwork h
  rw [← hx] at hp'
  exact invariant_rleWork hi he (fun _ => rfl) (hearly (by simp)) h hp'

/-! ### Every step -/

/-- The work step of every operation keeps the invariant. -/
theorem invariant_workStep {s t : State} {op : Operation} (hi : invariant s = true) (he : s.engine = some op)
    (hwork : doneTest s op = false) (h : workStep s op = .ok (.to t)) : invariant t = true := by
  cases op with
  | hufLdt loaded => exact invariant_hufLoadWork hi he h
  | hufExp g => exact invariant_hufWork hi he hwork h
  | lzsDec stopv g => exact invariant_lzsWork hi he hwork h
  | bpcLdp loaded => exact invariant_bpcLoadWork hi he h
  | bpcRgb24 i => exact invariant_bpcRgb24Work hi he hwork h
  | bpcRgb32 i => exact invariant_bpcRgb32Work hi he hwork h
  | scl2x bpp k => exact invariant_scl2xWork hi he hwork h
  | scl2x3 bpp k => exact invariant_scl2x3Work hi he hwork h
  | rleLine bpp g => exact invariant_rleLineWork hi he hwork h
  | rleImg bpp topdown g => exact invariant_rleImgWork hi he hwork h

/-- An engine step of the operation in progress keeps the invariant: it completes, works, or faults (R140). -/
theorem invariant_engineStep {s t : State} {op : Operation} (hi : invariant s = true) (he : s.engine = some op)
    (h : engineStep (doneTest s op) (workStep s op) s = .next t) : invariant t = true := by
  obtain ⟨hm, hp, -, -⟩ := invariant_iff.1 hi
  obtain ⟨hdone, hfault⟩ := invariant_flags hi he
  rcases engineStep_next h with ⟨-, rfl⟩ | ⟨hwork, hto⟩ | ⟨-, c, info, -, rfl⟩
  · exact invariant_of_idle rfl hm hp fun _ => hfault
  · exact invariant_workStep hi he hwork hto
  · exact invariant_takeFault c info hm hp hdone

/-- The host's write of an instruction keeps the invariant: a command's word, or the soft reset. -/
theorem invariant_exec_host {s t : State} {i : Instr} (hi : invariant s = true) (ht : s.hostTurn = true)
    (h : exec i s = .next t) : invariant t = true := by
  have hpop : invariant s.pop = true := (invariant_pop s).trans hi
  cases hc : isCommand i with
  | true =>
    obtain ⟨start, hexec, hstart⟩ := exec_host hc ht
    rw [hexec, Host.Outcome.next.injEq] at h
    rw [← h]
    exact invariant_writeCmd hpop hstart
  | false =>
    cases i with
    | srst ign =>
      rw [exec, execSrst, Host.Outcome.next.injEq] at h
      rw [← h]
      exact invariant_softReset hpop
    | hufLdt | hufExp | lzsDec | bpcLdp | bpcRgb24 | bpcRgb32 | scl2x | scl2x3 | rleLine | rleImg => cases hc

end Sys2Proof.Machine

namespace Sys2Proof.Proofs

open Sys2Proof.Machine

/-- Settles O51: a step is the host's write of an instruction, an engine step of the operation in progress, or a
transition without an instruction, and each of the three keeps the invariant. -/
theorem stepKeepsInvariant : Obligations.StepKeepsInvariant := by
  intro s t hi h
  rcases step_cases s with ⟨i, hfetch, hstep⟩ | ⟨-, hstep⟩
  · rw [hstep] at h
    rcases fetch_cases hfetch with ⟨-, -, -, -, -, ht⟩ | ⟨ht, op, he, rfl⟩
    · exact invariant_exec_host hi ht h
    · rw [exec_engine ht he] at h
      exact invariant_engineStep ((invariant_pop s).trans hi) he h
  · rw [hstep] at h
    exact invariant_otherTransition hi h

end Sys2Proof.Proofs
end

section
/-! Settles O2: what decodes is rebuilt from its fields. -/

namespace Sys2Proof

/-! ### Decoding -/

/-- A command word is put together from its fields (R90). -/
theorem commandWord_fields {v : Word} (hz : zeroFieldsClear v = true) :
    commandWord (opcOf v) (bppOf v) (topdownOf v) (stopvOf v) = v := by
  simp only [zeroFieldsClear, Bool.and_eq_true, beq_iff_eq] at hz
  obtain ⟨hlow, hhigh⟩ := hz
  rw [commandWord, ← hhigh, ← hlow]
  ext j hj
  simp only [opcOf, bppOf, topdownOf, stopvOf, BitVec.getElem_append, BitVec.getElem_extractLsb']
  rw [← BitVec.getLsbD_eq_getElem]
  split_ifs with hopc hbpp hzero htopdown hstopv
  · simp
  · congr 1; omega
  · congr 1; omega
  · obtain rfl : j = 16 := by omega
    simp
  · obtain rfl : j = 17 := by omega
    simp
  · congr 1; omega

/-- The row of R91 with opcode `n` accepts a word: its instruction, the BPP it allows, and the fields it lets vary. -/
theorem legalRow_ok {v : Word} {bpps : List (BitVec 3)} {topdownOk stopvOk : Bool} {i j : Instr} {n : Nat}
    (hz : zeroFieldsClear v = true) (hopc : (opcOf v).toNat = n) (h : legalRow v bpps topdownOk stopvOk i = .ok j) :
    i = j ∧ bppOf v ∈ bpps ∧
      commandWord (BitVec.ofNat 8 n) (bppOf v) (topdownOf v && topdownOk) (stopvOf v && stopvOk) = v := by
  have hopc' : BitVec.ofNat 8 n = opcOf v := BitVec.eq_of_toNat_eq (by simp [← hopc])
  unfold legalRow at h
  split_ifs at h with hbpp htd hsv
  refine ⟨by simpa using h, by simpa using hbpp, ?_⟩
  have htd' : (topdownOf v && topdownOk) = topdownOf v := by cases topdownOk <;> simp_all
  have hsv' : (stopvOf v && stopvOk) = stopvOf v := by cases stopvOk <;> simp_all
  rw [hopc', htd', hsv']
  exact commandWord_fields hz

/-- A command word that decodes is the word of what it decodes to, a well-formed instruction of CMD (R91, R92). -/
theorem decodeCmd_ok {v : Word} {i : Instr} (h : decodeCmd v = .ok i) :
    i.wf = true ∧ i.offset = cmdOffset ∧ i.word = v := by
  unfold decodeCmd at h
  split at h
  · cases h
  · rename_i hz
    simp only [Bool.not_eq_true, Bool.not_eq_false'] at hz
    split at h
    case h_11 => cases h
    case h_1 | h_2 | h_3 | h_4 | h_5 | h_6 =>
      rename_i hopc
      obtain ⟨rfl, hbpp, hword⟩ := legalRow_ok hz hopc h
      rw [List.mem_singleton.1 hbpp] at hword
      exact ⟨rfl, rfl, by simpa [Instr.word] using hword⟩
    case h_7 | h_8 | h_9 | h_10 =>
      rename_i hopc
      obtain ⟨rfl, hbpp, hword⟩ := legalRow_ok hz hopc h
      exact ⟨List.contains_iff_mem.2 hbpp, rfl, by simpa [Instr.word] using hword⟩

/-- A value with bit 0 set is its bits 31:1 with a 1 below them. -/
theorem high_bits_append_one {v : Word} (h : v.getLsbD 0 = true) : v.extractLsb' 1 31 ++ 1#1 = v := by
  ext j hj
  rw [BitVec.getElem_append, ← BitVec.getLsbD_eq_getElem hj]
  split_ifs with hlow
  · obtain rfl : j = 0 := by omega
    simpa using h.symm
  · rw [BitVec.getElem_extractLsb']
    congr 1
    omega

/-- A control-port write decodes to a command at CMD, or to the soft reset at CTRL (R96, R131, R145). -/
theorem decode_ok {o : Nat} {v : Word} {i : Instr} (h : decode o v = .ok i) :
    (o = cmdOffset ∧ decodeCmd v = .ok i) ∨
      (o = ctrlOffset ∧ v.getLsbD 0 = true ∧ i = .srst (v.extractLsb' 1 31)) := by
  unfold decode at h
  split_ifs at h with hcmd hctrl hbit
  · exact .inl ⟨hcmd, h⟩
  · exact .inr ⟨hctrl, hbit, by simpa using h.symm⟩

end Sys2Proof

namespace Sys2Proof.Proofs

/-- Settles O2: a command word is rebuilt from its fields (`decodeCmd_ok`), a write of CTRL from its bit 0 and the
ignored bits. -/
theorem encodeInvertsDecode : Obligations.EncodeInvertsDecode := by
  intro o v i h
  rcases decode_ok h with ⟨rfl, hcmd⟩ | ⟨rfl, hbit, rfl⟩
  · obtain ⟨hwf, hoffset, hword⟩ := decodeCmd_ok hcmd
    exact ⟨hwf, by rw [encode, hoffset, hword]⟩
  · exact ⟨rfl, by rw [encode, Instr.word, high_bits_append_one hbit]; rfl⟩

end Sys2Proof.Proofs
end

section
/-! Settles O8, O12 to O17 and O50: what each access of the host does in one step, and the state after a reset. -/

namespace Sys2Proof.Machine

/-! ### The step of each kind of access -/

theorem pop_eq {s : State} {access : Access} {rest : List Access} (h : s.inbox = access :: rest) :
    s.pop = { s with inbox := rest } := by
  simp [State.pop, h]

/-- A control-port read is answered, and nothing else happens (R130). -/
theorem step_read {s : State} {o : Nat} {rest : List Access} (h : s.inbox = .read o :: rest) :
    step s = .next (portRead o s.pop) := by
  simp [step, fetch, otherTransition, h]

theorem step_memRead {s : State} {a n : Nat} {rest : List Access} (h : s.inbox = .memRead a n :: rest) :
    step s = hostRead a n s.pop := by
  simp [step, fetch, otherTransition, h]

theorem step_memWrite {s : State} {a : Nat} {bs : List Byte} {rest : List Access}
    (h : s.inbox = .memWrite a bs :: rest) : step s = hostWrite a bs s.pop := by
  simp [step, fetch, otherTransition, h]

theorem step_hardReset {s : State} {rest : List Access} (h : s.inbox = .hardReset :: rest) :
    step s = .next (hardReset s.pop) := by
  simp [step, fetch, otherTransition, h]

/-- A control-port write that decodes runs its instruction (R131). -/
theorem step_write_decoded {s : State} {o : Nat} {v : Word} {rest : List Access} {i : Instr}
    (h : s.inbox = .write o v :: rest) (hd : decode o v = .ok i) : step s = exec i s := by
  simp [step, fetch, h, hd, Except.toOption]

/-- A control-port write that does not decode is a plain write (R131). -/
theorem step_write_plain {s : State} {o : Nat} {v : Word} {rest : List Access} {e : DecodeError}
    (h : s.inbox = .write o v :: rest) (hd : decode o v = .error e) : step s = .next (plainWrite o v s.pop) := by
  simp [step, fetch, otherTransition, h, hd, Except.toOption]

/-! ### Writes of CMD -/

/-- What is written to CMD is a command, not the soft reset (R96). -/
theorem isCommand_of_offset {i : Instr} (h : i.offset = cmdOffset) : isCommand i = true := by
  cases i with
  | srst => cases h
  | hufLdt | hufExp | lzsDec | bpcLdp | bpcRgb24 | bpcRgb32 | scl2x | scl2x3 | rleLine | rleImg => rfl

/-- A write of an illegal word is a write of CMD whose launch check fails with ILLEGAL_CMD (R134). -/
theorem writeIllegal_eq_writeCmd (v : Word) (start : State → Operation) (s : State) :
    writeIllegal v s = writeCmd v (fun _ => some (.illegalCmd, v.toNat)) start s := rfl

/-- A write to the offset of CMD, legal word or not, is one write of CMD (R132, R133, R134). -/
theorem step_write_cmd {s : State} {v : Word} {rest : List Access} (h : s.inbox = .write cmdOffset v :: rest) :
    ∃ check start, step s = .next (writeCmd v check start s.pop) := by
  cases hd : decodeCmd v with
  | ok i =>
    obtain ⟨-, hoffset, hword⟩ := decodeCmd_ok hd
    obtain ⟨start, hexec, -⟩ := exec_host (isCommand_of_offset hoffset) (s := s) (by simp [State.hostTurn, h])
    exact ⟨_, start, by rw [step_write_decoded h hd, hexec, hword]⟩
  | error e =>
    exact ⟨fun _ => some (.illegalCmd, v.toNat), fun _ => .hufLdt false, step_write_plain h hd⟩

/-- A write of CMD is dropped with OVR set while BUSY or FAULT is 1 (R132). -/
theorem writeCmd_dropped {v : Word} {check : State → Option Raise} {start : State → Operation} {s : State}
    (h : s.busy = true ∨ s.fault = true) : writeCmd v check start s = { s with ovr := true } := by
  rw [writeCmd, if_pos (by simpa using h)]

/-- An accepted write of CMD leaves what the acceptance wrote, whether its launch faults or not (R133). -/
theorem writeCmd_accepted {v : Word} {check : State → Option Raise} {start : State → Operation} {s : State}
    (hb : s.busy = false) (hf : s.fault = false) :
    (writeCmd v check start s).cmd = v ∧ (writeCmd v check start s).done = false ∧
      (writeCmd v check start s).early = false ∧ (writeCmd v check start s).ovr = s.ovr := by
  rcases writeCmd_cases v check start s with ⟨hdrop, -⟩ | ⟨-, -, c, info, -, heq⟩ | ⟨-, -, -, heq⟩
  · simp [hb, hf] at hdrop
  · rw [heq]; exact ⟨rfl, rfl, rfl, rfl⟩
  · rw [heq]; exact ⟨rfl, rfl, rfl, rfl⟩

/-! ### Reads of the control port -/

/-- The bits of STATUS from bit 0 up (R24). -/
theorem statusWord_bits (s : State) : (List.range 32).map s.statusWord.getLsbD =
    [s.busy, s.done, s.fault, s.ovr, s.tblValid, s.palValid, s.early] ++ List.replicate 25 false := by
  rw [State.statusWord]
  generalize s.busy = busy, s.done = done, s.fault = fault, s.ovr = ovr, s.tblValid = tblValid,
    s.palValid = palValid, s.early = early
  revert busy done fault ovr tblValid palValid early
  decide

/-- The bits of IE from bit 0 up (R25). -/
theorem ieWord_bits (s : State) : (List.range 32).map s.ieWord.getLsbD =
    [s.ieDone, s.ieFault] ++ List.replicate 30 false := by
  rw [State.ieWord]
  generalize s.ieDone = done, s.ieFault = fault
  revert done fault
  decide

/-- CTRL, the reserved offsets and those that name no register read as 0 (R26, R29). -/
theorem regValue_unnamed {s : State} {o : Nat} (h : o = 0x34 ∨ o = 0x38 ∨ o = 0x3C ∨ 0x50 ≤ o ∨ o % 4 ≠ 0) :
    regValue s (portReg o) = 0 := by
  unfold portReg
  split
  case h_14 | h_19 => rfl
  all_goals omega

/-! ### The memory port -/

/-- Bytes that memory holds are what a host read answers (R62). -/
theorem hostRead_of_holds {s : State} {a : Nat} {bs : List Byte} (hn : a + bs.length ≤ s.platform.memBytes)
    (h : s.mem.holds a bs) : hostRead a bs.length s = .next { s with memOut := bs } := by
  have hbytes : (List.range bs.length).map (fun k => hostByte s (a + k)) = bs :=
    List.ext_getElem (by simp) fun k _ hk => by simp [hostByte, h k hk]
  rw [hostRead, if_pos hn, hbytes]

/-- A host write outside the regions of a running operation stores its bytes (R47, R63). -/
theorem hostWrite_of_not_live {s : State} {a : Nat} {bs : List Byte} (hn : a + bs.length ≤ s.platform.memBytes)
    (h : ∀ k, k < bs.length → s.liveByte (a + k) = false) :
    hostWrite a bs s = .next { s with mem := s.mem.writeAll a bs } := by
  have hfind : (List.range bs.length).find? (fun k => s.liveByte (a + k)) = none := by
    simpa using h
  simp only [hostWrite, hfind, memWrite_of_le hn]

/-! ### Reset -/

theorem resetRegisters_reset : ResetRegisters State.reset :=
  ⟨rfl, by decide, by decide, fun r => by cases r <;> rfl, rfl, rfl, rfl, rfl, rfl, rfl⟩

/-- A soft reset leaves every register as the state after hardware reset has it (R341). -/
theorem resetRegisters_softReset (s : State) : ResetRegisters (softReset s) := resetRegisters_reset

theorem resetRegisters_hardReset (s : State) : ResetRegisters (hardReset s) := resetRegisters_reset

end Sys2Proof.Machine

namespace Sys2Proof.Proofs

open Sys2Proof.Machine

/-- Settles O12: the access pops the inbox, then stores or answers the bytes. -/
theorem memoryPortAccesses : Obligations.MemoryPortAccesses := by
  refine fun s a bs rest hn => ⟨fun h hlive => ?_, fun h hbytes => ?_⟩
  · refine ⟨s.mem.writeAll a bs, ?_, Memory.read_writeAll_inside bs s.mem a, Memory.read_writeAll_outside bs s.mem a,
      Memory.writeAll_wf bs s.mem a⟩
    rw [step_memWrite h, hostWrite_of_not_live (s := s.pop) hn hlive, pop_eq h]
  · rw [step_memRead h, hostRead_of_holds (s := s.pop) hn hbytes, pop_eq h]

/-- Settles O17: a write to the offset of CMD is one write of CMD, dropped or accepted. -/
theorem commandWriteAcceptance : Obligations.CommandWriteAcceptance := by
  intro s v rest h
  obtain ⟨check, start, hstep⟩ := step_write_cmd h
  refine ⟨fun hdrop => ?_, fun hb hf => ⟨_, hstep, writeCmd_accepted hb hf⟩⟩
  rw [hstep, writeCmd_dropped (s := s.pop) hdrop, pop_eq h]

/-- Settles O8: the answer is the value of the register at the offset. The cases that are not `rfl` are STATUS and IE, read
bit by bit; WIDTH and HEIGHT, read as 32 bits; and CAUSE, read as its code. -/
theorem portReadAnswers : Obligations.PortReadAnswers := by
  intro s o rest h
  refine ⟨regValue s (portReg o), by rw [step_read h, pop_eq h]; rfl, ?_⟩
  refine ⟨?_, ?_, ?_, ?_, ?_, ?_, ?_, ?_, ?_, ?_, ?_, ?_, ?_, ?_, ?_, ?_, ?_, regValue_unnamed⟩ <;> rintro rfl
  case refine_3 => exact statusWord_bits s
  case refine_4 => exact ieWord_bits s
  case refine_10 | refine_11 => exact BitVec.toNat_setWidth_of_le (by decide)
  case refine_17 =>
    have hcode (c : Cause) (hc : s.cause = c) : s.causeWord = c.code.setWidth 32 := by rw [State.causeWord, hc]
    exact ⟨hcode _, hcode _, hcode _, hcode _, hcode _, hcode _, hcode _, hcode _, hcode _⟩
  all_goals rfl

/-- Settles O13: the values of `State.reset`, field by field. -/
theorem resetValues : Obligations.ResetValues := ⟨resetRegisters_reset, Memory.read_nil⟩

/-- Settles O14: SRST is a soft reset after its write is taken from the inbox. -/
theorem softResetRuns : Obligations.SoftResetRuns := fun s _ =>
  ⟨softReset s.pop, rfl, resetRegisters_softReset s.pop, fun _ => rfl, rfl, rfl, rfl, rfl⟩

/-- Settles O15: the next access is the hardware reset. -/
theorem hardwareResetStep : Obligations.HardwareResetStep := fun s rest h =>
  ⟨hardReset s.pop, step_hardReset h, resetRegisters_hardReset s.pop, Memory.read_nil, rfl, by simp [h]⟩

/-- Settles O16: each source of the interrupt is a flag that excludes BUSY and the other source (R24). -/
theorem irqOnlyWhenIdle : Obligations.IrqOnlyWhenIdle := by
  intro s
  have hirq : s.irq = true ↔ (s.done = true ∧ s.ieDone = true) ∨ (s.fault = true ∧ s.ieFault = true) := by
    simp [State.irq]
  refine ⟨hirq, fun hi h => ?_⟩
  obtain ⟨hbusy, hdone⟩ := flagsExclusive_iff.1 (invariant_iff.1 hi).2.2.1
  have hidle : s.busy = false := by
    by_contra hb
    obtain ⟨hd, hf⟩ := hbusy (by simpa using hb)
    simp [hirq, hd, hf] at h
  refine ⟨hidle, ?_⟩
  rcases hirq.1 h with ⟨hd, -⟩ | ⟨hf, -⟩
  · simp [hd, hdone hd]
  · intro heq
    rw [hdone (heq.trans hf)] at hf
    cases hf

/-- Settles O50: after reset no operation is in progress, and no flag is set. -/
theorem invariantAtReset : Obligations.InvariantAtReset :=
  invariant_of_idle rfl (Memory.inOrder_nil _) rfl fun _ => rfl

end Sys2Proof.Proofs
end

section
/-! Settles O33: the conversion step, forwards. -/

namespace Sys2Proof.Machine

theorem srcByte_of_byteAt {s : State} {i : Nat} {c : Byte} (h : s.byteAt (s.x.srcBase.toNat + i) c) :
    srcByte s i = .ok c := byteRead_of_read h.1 h.2

theorem dstWrite_of_le {s : State} {i : Nat} {bs : List Byte}
    (h : s.x.dstBase.toNat + i + bs.length ≤ s.platform.memBytes) :
    dstWrite s i bs = .ok { s with mem := s.mem.writeAll (s.x.dstBase.toNat + i) bs } := memWrite_of_le h

/-- A conversion step whose source byte is there and whose pixel fits writes the pixel (R202, R203). -/
theorem bpcWork_of_byteAt {pixel : Rgb → List Byte} {bpp : Nat} {next : Word → Operation} {i : Word} {s : State}
    {c : Byte} (hsrc : s.byteAt (s.x.srcBase.toNat + i.toNat) c)
    (hdst : s.x.dstBase.toNat + planeOffset s.x.width.toNat s.x.height.toNat bpp i.toNat +
      (pixel (palEntry s c)).length ≤ s.platform.memBytes) :
    bpcWork pixel bpp next i s = .ok (.to { s with
      mem := s.mem.writeAll (s.x.dstBase.toNat + planeOffset s.x.width.toNat s.x.height.toNat bpp i.toNat)
        (pixel (palEntry s c))
      srcPos := i + 1, outCnt := BitVec.ofNat 32 bpp * (i + 1), engine := some (next (i + 1)) }) := by
  have hnext : BitVec.ofNat 32 (i.toNat + 1) = i + 1 := by simp [BitVec.ofNat_add]
  have hcnt : BitVec.ofNat 32 (bpp * (i.toNat + 1)) = BitVec.ofNat 32 bpp * (i + 1) := by rw [BitVec.ofNat_mul, hnext]
  simp only [bpcWork, srcByte_of_byteAt hsrc, dstWrite_of_le hdst, hnext, hcnt]

/-- While its done condition does not hold, the engine's turn takes the operation's work step (R140, R142). -/
theorem exec_work {s t : State} {op : Operation} (ht : s.hostTurn = false) (he : s.engine = some op)
    (hdone : doneTest s.pop op = false) (hw : workStep s.pop op = .ok (.to t)) : exec op.instr s = .next t := by
  rw [exec_engine ht he, hdone, engineStep_to hw]

end Sys2Proof.Machine

namespace Sys2Proof.Proofs

open Sys2Proof.Machine

/-- Settles O33: both conversions are one work step, with pixels of three bytes or four. -/
theorem planePixelSteps : Obligations.PlanePixelSteps := by
  rintro s i c e w h o ht rfl rfl hi hsrc rfl rfl
  have hdone : (i.toNat == pixelCount s.x) = false := beq_eq_false_iff_ne.2 hi
  refine ⟨fun he hdst => ?_, fun he hdst => ?_⟩
  · exact exec_work ht he hdone (bpcWork_of_byteAt (s := s.pop) hsrc hdst)
  · exact exec_work ht he hdone (bpcWork_of_byteAt (s := s.pop) hsrc hdst)

end Sys2Proof.Proofs
end

section
/-! Settles O48 and O49: which step can change an operand register, a parameter, a table or its valid flag. The kinds of
transition that can are told apart once (`step_setup_cases`); every other step keeps all six (`SetupKept`). -/

namespace Sys2Proof.Machine

/-- The parameters, the operand registers, the two tables and their valid flags are as they were: what an
operation is set up with before its launch (R22, R31 to R33, R46). -/
structure SetupKept (s t : State) : Prop where
  platform : t.platform = s.platform
  x : t.x = s.x
  tbl : t.tbl = s.tbl
  tblValid : t.tblValid = s.tblValid
  pal : t.pal = s.pal
  palValid : t.palValid = s.palValid

/-! ### Work steps -/

theorem setupKept_lzsItem {stopv : Bool} {g : LzsState} {bucket : BitVec 9} {pos : Nat} {s t : State}
    (h : lzsItem stopv g bucket pos s = .ok (.to t)) : SetupKept s t := by
  unfold lzsItem at h
  split at h
  · obtain ⟨-, b, -, -, rfl⟩ := lzsLiteral_to h
    exact ⟨rfl, rfl, rfl, rfl, rfl, rfl⟩
  · obtain ⟨-, b0, b1, -, -, htok⟩ := lzsBackref_to h
    rcases lzsToken_to htok with ⟨-, -, rfl⟩ | ⟨-, -, -, s', hcopy, rfl⟩
    · exact ⟨rfl, rfl, rfl, rfl, rfl, rfl⟩
    · obtain ⟨-, m, rfl, -⟩ := copyRun_ok _ hcopy
      exact ⟨rfl, rfl, rfl, rfl, rfl, rfl⟩

theorem setupKept_sclWork {kernel : Nbhd → List Pixel} {bpp f : Nat} {next : Word → Operation} {k : Word} {s t : State}
    (h : sclWork kernel bpp f next k s = .ok (.to t)) : SetupKept s t := by
  obtain ⟨n, s', -, hblock, rfl⟩ := sclWork_to h
  obtain ⟨m, rfl, -⟩ := writeBlock_ok _ _ _ _ hblock
  exact ⟨rfl, rfl, rfl, rfl, rfl, rfl⟩

/-- The operation is one of the two table loads. -/
def isLoad : Operation → Bool
  | .hufLdt _ | .bpcLdp _ => true
  | .hufExp _ | .lzsDec _ _ | .bpcRgb24 _ | .bpcRgb32 _ => false
  | .scl2x _ _ | .scl2x3 _ _ | .rleLine _ _ | .rleImg _ _ _ => false

/-- The work step of a command that loads no table changes nothing of the setup (R75). -/
theorem setupKept_workStep {s t : State} {op : Operation} (hop : isLoad op = false)
    (h : workStep s op = .ok (.to t)) : SetupKept s t := by
  cases op with
  | hufLdt | bpcLdp => cases hop
  | hufExp g =>
    obtain ⟨-, byte, -, ⟨b, -, -, rfl⟩ | ⟨node, -, rfl⟩⟩ := hufWork_to h
    · exact ⟨rfl, rfl, rfl, rfl, rfl, rfl⟩
    · exact ⟨rfl, rfl, rfl, rfl, rfl, rfl⟩
  | lzsDec stopv g =>
    rcases lzsWork_to h with ⟨-, hitem⟩ | ⟨-, -, ctl, -, hitem⟩
    · exact setupKept_lzsItem hitem
    · exact setupKept_lzsItem hitem
  | bpcRgb24 | bpcRgb32 =>
    obtain ⟨c, -, -, rfl⟩ := bpcWork_to h
    exact ⟨rfl, rfl, rfl, rfl, rfl, rfl⟩
  | scl2x | scl2x3 => exact setupKept_sclWork h
  | rleLine | rleImg =>
    obtain ⟨k, bs, -, -, -, -, rfl⟩ := rleWork_to h
    exact ⟨rfl, rfl, rfl, rfl, rfl, rfl⟩

/-! ### The transitions that change the setup -/

/-- A reset leaves the parameters, and neither table valid (R340, R341). -/
structure SetupReset (s t : State) : Prop where
  next : resetNext s = true
  platform : t.platform = s.platform
  tblValid : t.tblValid = false
  palValid : t.palValid = false

/-- A host write of an operand register of the idle block changes the operand registers, and nothing else of the setup
(R146). -/
structure OperandWritten (s t : State) : Prop where
  idle : s.busy = false
  written : ∃ (r : OperandReg) (v : Word) (rest : List Access), s.inbox = .write (0x10 + 4 * r.index) v :: rest
  kept : SetupKept s { t with x := s.x }

/-- The work step of HUF.LDT changes the table RAM and its flag, and nothing else of the setup (R160). -/
structure TableLoaded (s t : State) : Prop where
  engine : s.engine = some (.hufLdt false)
  tblValid : t.tblValid = true
  kept : SetupKept s { t with tbl := s.tbl, tblValid := s.tblValid }

/-- The work step of BPC.LDP changes the palette RAM and its flag, and nothing else of the setup (R200). -/
structure PaletteLoaded (s t : State) : Prop where
  engine : s.engine = some (.bpcLdp false)
  palValid : t.palValid = true
  kept : SetupKept s { t with pal := s.pal, palValid := s.palValid }

/-- What a step does to the setup: one of the four changes, or none. -/
inductive SetupStep (s t : State) : Prop where
  | reset (h : SetupReset s t)
  | operand (h : OperandWritten s t)
  | table (h : TableLoaded s t)
  | palette (h : PaletteLoaded s t)
  | kept (h : SetupKept s t)

theorem setupStep_engine {s t : State} {op : Operation} (he : s.engine = some op)
    (h : engineStep (doneTest s.pop op) (workStep s.pop op) s.pop = .next t) : SetupStep s t := by
  rcases engineStep_next h with ⟨-, rfl⟩ | ⟨hdone, hwork⟩ | ⟨-, c, info, -, rfl⟩
  · exact .kept ⟨rfl, rfl, rfl, rfl, rfl, rfl⟩
  · cases hload : isLoad op with
    | false =>
      obtain ⟨hplatform, hx, htbl, htblValid, hpal, hpalValid⟩ := setupKept_workStep hload hwork
      exact .kept ⟨hplatform, hx, htbl, htblValid, hpal, hpalValid⟩
    | true =>
      cases op with
      | hufLdt loaded =>
        obtain rfl : loaded = false := hdone
        obtain ⟨img, -, rfl⟩ := hufLoadWork_to hwork
        exact .table ⟨he, rfl, ⟨rfl, rfl, rfl, rfl, rfl, rfl⟩⟩
      | bpcLdp loaded =>
        obtain rfl : loaded = false := hdone
        obtain ⟨img, -, rfl⟩ := bpcLoadWork_to hwork
        exact .palette ⟨he, rfl, ⟨rfl, rfl, rfl, rfl, rfl, rfl⟩⟩
      | hufExp | lzsDec | bpcRgb24 | bpcRgb32 | scl2x | scl2x3 | rleLine | rleImg => cases hload
  · exact .kept ⟨rfl, rfl, rfl, rfl, rfl, rfl⟩

/-- A write of CMD changes nothing of the setup, whether dropped, faulted or started (R133). -/
theorem setupKept_writeCmd (v : Word) (check : State → Option Raise) (start : State → Operation) (s : State) :
    SetupKept s (writeCmd v check start s.pop) := by
  rcases writeCmd_cases v check start s.pop with ⟨-, heq⟩ | ⟨-, -, c, info, -, heq⟩ | ⟨-, -, -, heq⟩
  all_goals
    rw [heq]
    exact ⟨rfl, rfl, rfl, rfl, rfl, rfl⟩

/-- The offsets of the operand registers (R21, R22). -/
theorem portReg_operand {o : Nat} {r : OperandReg} (h : portReg o = .operand r) : o = 0x10 + 4 * r.index := by
  unfold portReg at h
  split at h <;> cases h <;> rfl

/-- A plain write changes an operand register of the idle block, or nothing of the setup (R131, R146). -/
theorem setupStep_plainWrite {s : State} {o : Nat} {v : Word} {rest : List Access}
    (hin : s.inbox = .write o v :: rest) : SetupStep s (plainWrite o v s.pop) := by
  unfold plainWrite
  split
  case h_1 =>
    rw [writeIllegal_eq_writeCmd v fun _ => .hufLdt false]
    exact .kept (setupKept_writeCmd _ _ _ s)
  case h_4 r hr =>
    unfold writeOperand
    split
    · exact .kept ⟨rfl, rfl, rfl, rfl, rfl, rfl⟩
    · rename_i hbusy
      exact .operand
        ⟨by simpa using hbusy, ⟨r, v, rest, by rw [hin, portReg_operand hr]⟩, ⟨rfl, rfl, rfl, rfl, rfl, rfl⟩⟩
  all_goals exact .kept ⟨rfl, rfl, rfl, rfl, rfl, rfl⟩

/-- A write that decodes is a command's launch or the soft reset (R133, R145). -/
theorem setupStep_decoded {s t : State} {o : Nat} {v : Word} {rest : List Access} {i : Instr}
    (hin : s.inbox = .write o v :: rest) (hd : decode o v = .ok i) (h : exec i s = .next t) : SetupStep s t := by
  rcases decode_ok hd with ⟨rfl, hcmd⟩ | ⟨rfl, hbit, rfl⟩
  · obtain ⟨check, start, hstep⟩ := step_write_cmd hin
    rw [step_write_decoded hin hd, h, Host.Outcome.next.injEq] at hstep
    rw [hstep]
    exact .kept (setupKept_writeCmd v check start s)
  · rw [exec, execSrst, Host.Outcome.next.injEq] at h
    subst h
    exact .reset ⟨by simp [resetNext, hin, hbit], rfl, rfl, rfl⟩

theorem setupKept_hostRead {s t : State} {a n : Nat} (h : hostRead a n s.pop = .next t) : SetupKept s t := by
  unfold hostRead at h
  split at h
  · cases h
    exact ⟨rfl, rfl, rfl, rfl, rfl, rfl⟩
  · cases h

theorem setupKept_hostWrite {s t : State} {a : Nat} {bs : List Byte} (h : hostWrite a bs s.pop = .next t) :
    SetupKept s t := by
  unfold hostWrite at h
  split at h
  · cases h
  · split at h
    · cases h
    · rename_i s' hs'
      obtain ⟨-, rfl⟩ := memWrite_ok hs'
      cases h
      exact ⟨rfl, rfl, rfl, rfl, rfl, rfl⟩

theorem setupStep_otherTransition {s t : State} (h : otherTransition s = .next t) : SetupStep s t := by
  unfold otherTransition at h
  split at h
  case h_1 hin => cases h; exact setupStep_plainWrite hin
  case h_2 => cases h; exact .kept ⟨rfl, rfl, rfl, rfl, rfl, rfl⟩
  case h_3 => exact .kept (setupKept_hostRead h)
  case h_4 => exact .kept (setupKept_hostWrite h)
  case h_5 hin => cases h; exact .reset ⟨by simp [resetNext, hin], rfl, rfl, rfl⟩
  case h_6 => cases h; exact .kept ⟨rfl, rfl, rfl, rfl, rfl, rfl⟩
  case h_7 => cases h; exact .kept ⟨rfl, rfl, rfl, rfl, rfl, rfl⟩

/-- Everything a step of the machine can do to the setup. -/
theorem step_setup_cases {s t : State} (h : step s = .next t) : SetupStep s t := by
  rcases step_cases s with ⟨i, hfetch, hstep⟩ | ⟨-, hstep⟩
  · rw [hstep] at h
    rcases fetch_cases hfetch with ⟨o, v, rest, hin, hd, -⟩ | ⟨ht, op, he, rfl⟩
    · exact setupStep_decoded hin hd h
    · rw [exec_engine ht he] at h
      exact setupStep_engine he h
  · rw [hstep] at h
    exact setupStep_otherTransition h

end Sys2Proof.Machine

namespace Sys2Proof.Proofs

open Sys2Proof.Machine

/-- Settles O48: of the steps that change the setup, only a reset and an operand write change an operand register. -/
theorem operandsChangeByHostOnly : Obligations.OperandsChangeByHostOnly := by
  intro s t h
  cases step_setup_cases h with
  | reset h => exact ⟨h.platform, .inr (.inl h.next)⟩
  | operand h => exact ⟨h.kept.platform, .inr (.inr ⟨h.idle, h.written⟩)⟩
  | table h => exact ⟨h.kept.platform, .inl h.kept.x⟩
  | palette h => exact ⟨h.kept.platform, .inl h.kept.x⟩
  | kept h => exact ⟨h.platform, .inl h.x⟩

/-- Settles O49: of the steps that change the setup, only a load and a reset change a table or its flag. -/
theorem tablesChangeByLoadsOnly : Obligations.TablesChangeByLoadsOnly := by
  intro s t h
  cases step_setup_cases h with
  | reset h => exact ⟨.inr (.inr ⟨h.next, h.tblValid⟩), .inr (.inr ⟨h.next, h.palValid⟩)⟩
  | operand h => exact ⟨.inl ⟨h.kept.tbl, h.kept.tblValid⟩, .inl ⟨h.kept.pal, h.kept.palValid⟩⟩
  | table h => exact ⟨.inr (.inl ⟨h.engine, h.tblValid⟩), .inl ⟨h.kept.pal, h.kept.palValid⟩⟩
  | palette h => exact ⟨.inl ⟨h.kept.tbl, h.kept.tblValid⟩, .inr (.inl ⟨h.engine, h.palValid⟩)⟩
  | kept h => exact ⟨.inl ⟨h.tbl, h.tblValid⟩, .inl ⟨h.pal, h.palValid⟩⟩

end Sys2Proof.Proofs
end

section
/-! Settles O55: a step commutes with a change of the tables that the operation in progress does not use. The change is
a pair of functions (`State.mapTables`), so that a table that is kept is the identity; a load or a reset, which overwrites
a table, forgets the change of it. -/

namespace Sys2Proof.Machine

/-- The state with its table RAM and its palette RAM changed. -/
def State.mapTables (f : Vector Node 255 → Vector Node 255) (g : Vector Rgb 256 → Vector Rgb 256) (s : State) : State :=
  { s with tbl := f s.tbl, pal := g s.pal }

/-- A work step's answer with the state it answers changed. -/
def Work.map (φ : State → State) : Work → Work
  | .to s => .to (φ s)
  | .raise c info => .raise c info

/-- A step's answer with the next state it answers changed. -/
def mapNext (φ : State → State) : Host.Outcome State Fault Refusal → Host.Outcome State Fault Refusal
  | .next s => .next (φ s)
  | .fault r => .fault r
  | .refused r => .refused r

variable {f : Vector Node 255 → Vector Node 255} {g : Vector Rgb 256 → Vector Rgb 256}

/-! ### What does not look at the tables -/

@[simp] theorem mapTables_pop (s : State) : (s.mapTables f g).pop = s.pop.mapTables f g := rfl
@[simp] theorem mapTables_x (s : State) : (s.mapTables f g).x = s.x := rfl
@[simp] theorem mapTables_platform (s : State) : (s.mapTables f g).platform = s.platform := rfl
@[simp] theorem mapTables_outCnt (s : State) : (s.mapTables f g).outCnt = s.outCnt := rfl
@[simp] theorem mapTables_busy (s : State) : (s.mapTables f g).busy = s.busy := rfl
@[simp] theorem mapTables_fault (s : State) : (s.mapTables f g).fault = s.fault := rfl
@[simp] theorem mapTables_inbox (s : State) : (s.mapTables f g).inbox = s.inbox := rfl
@[simp] theorem byteRead_mapTables (s : State) (a : Nat) : byteRead (s.mapTables f g) a = byteRead s a := rfl
@[simp] theorem srcByte_mapTables (s : State) (i : Nat) : srcByte (s.mapTables f g) i = srcByte s i := rfl
@[simp] theorem memRead_mapTables (s : State) (a n : Nat) : memRead (s.mapTables f g) a n = memRead s a n := rfl
@[simp] theorem rowPixel_mapTables (s : State) (bpp y : Nat) :
    rowPixel (s.mapTables f g) bpp y = rowPixel s bpp y := rfl
@[simp] theorem neighbours_mapTables (s : State) (bpp px py : Nat) :
    neighbours (s.mapTables f g) bpp px py = neighbours s bpp px py := rfl
@[simp] theorem fetch_mapTables (s : State) : fetch (s.mapTables f g) = fetch s := rfl

/-! ### Stores -/

@[simp] theorem memWrite_mapTables (s : State) (a : Nat) (bs : List Byte) :
    memWrite (s.mapTables f g) a bs = (memWrite s a bs).map (State.mapTables f g) := by
  by_cases h : a + bs.length ≤ s.platform.memBytes
  · simp only [memWrite, mapTables_platform, h, if_true]
    rfl
  · simp only [memWrite, mapTables_platform, h, if_false]
    rfl

@[simp] theorem dstWrite_mapTables (s : State) (i : Nat) (bs : List Byte) :
    dstWrite (s.mapTables f g) i bs = (dstWrite s i bs).map (State.mapTables f g) := memWrite_mapTables s _ bs

theorem copyRun_mapTables (dist : Nat) : ∀ (n o : Nat) (s : State),
    copyRun (s.mapTables f g) dist o n = (copyRun s dist o n).map (State.mapTables f g) := by
  intro n
  induction n with
  | zero => intros; rfl
  | succ n ih =>
    intro o s
    simp only [copyRun, byteRead_mapTables, mapTables_x, dstWrite_mapTables]
    cases byteRead s (s.x.dstBase.toNat + o - dist) with
    | error e => rfl
    | ok b =>
      dsimp only
      cases dstWrite s o [b] with
      | error e => rfl
      | ok s' => exact ih (o + 1) s'

theorem writeBlock_mapTables (bpp k px py : Nat) : ∀ (es : List Pixel) (j : Nat) (s : State),
    writeBlock bpp k px py es j (s.mapTables f g) = (writeBlock bpp k px py es j s).map (State.mapTables f g) := by
  intro es
  induction es with
  | nil => intros; rfl
  | cons e es ih =>
    intro j s
    simp only [writeBlock, mapTables_x, dstWrite_mapTables]
    cases dstWrite s (subOffset s.x bpp k px py j) e with
    | error e => rfl
    | ok s' => exact ih (j + 1) s'

/-! ### Work steps -/

theorem lzsLiteral_mapTables (stopv : Bool) (h : LzsState) (bucket : BitVec 9) (pos : Nat) (s : State) :
    lzsLiteral stopv h bucket pos (s.mapTables f g) =
      (lzsLiteral stopv h bucket pos s).map (Work.map (State.mapTables f g)) := by
  simp only [lzsLiteral, mapTables_x, mapTables_outCnt, srcByte_mapTables, dstWrite_mapTables]
  split
  · rfl
  · cases srcByte s pos with
    | error e => rfl
    | ok b =>
      dsimp only
      cases dstWrite s s.outCnt.toNat [b] <;> rfl

theorem lzsToken_mapTables (stopv : Bool) (h : LzsState) (bucket : BitVec 9) (pos : Nat) (t : Half) (s : State) :
    lzsToken stopv h bucket pos t (s.mapTables f g) =
      (lzsToken stopv h bucket pos t s).map (Work.map (State.mapTables f g)) := by
  simp only [lzsToken, mapTables_platform, mapTables_outCnt, copyRun_mapTables]
  split
  · rfl
  · split
    · rfl
    · split
      · rfl
      · cases copyRun s (tokenDist t) s.outCnt.toNat (tokenLen t) with
        | error e => rfl
        | ok s' => rfl

theorem lzsItem_mapTables (stopv : Bool) (h : LzsState) (bucket : BitVec 9) (pos : Nat) (s : State) :
    lzsItem stopv h bucket pos (s.mapTables f g) =
      (lzsItem stopv h bucket pos s).map (Work.map (State.mapTables f g)) := by
  unfold lzsItem
  split
  · exact lzsLiteral_mapTables stopv h _ pos s
  · simp only [lzsBackref, mapTables_x, srcByte_mapTables, lzsToken_mapTables]
    split
    · rfl
    · cases srcByte s pos with
      | error e => rfl
      | ok b0 =>
        dsimp only
        cases srcByte s (pos + 1) <;> rfl

theorem lzsWork_mapTables (stopv : Bool) (h : LzsState) (s : State) :
    lzsWork stopv h (s.mapTables f g) = (lzsWork stopv h s).map (Work.map (State.mapTables f g)) := by
  simp only [lzsWork, mapTables_x, srcByte_mapTables, lzsItem_mapTables]
  split
  · split
    · rfl
    · cases srcByte s h.srcpos.toNat with
      | error e => rfl
      | ok ctl => rfl
  · rfl

theorem sclWork_mapTables (kernel : Nbhd → List Pixel) (bpp k : Nat) (next : Word → Operation) (i : Word) (s : State) :
    sclWork kernel bpp k next i (s.mapTables f g) =
      (sclWork kernel bpp k next i s).map (Work.map (State.mapTables f g)) := by
  simp only [sclWork, mapTables_x, neighbours_mapTables, writeBlock_mapTables]
  cases neighbours s bpp (i.toNat % s.x.width.toNat) (i.toNat / s.x.width.toNat) with
  | error e => rfl
  | ok n =>
    dsimp only
    cases writeBlock bpp k (i.toNat % s.x.width.toNat) (i.toNat / s.x.width.toNat) (kernel n) 0 s
      <;> rfl

theorem rleWork_mapTables (bpp y : Nat) (next : RleState → Operation) (h : RleState) (s : State) :
    rleWork bpp y next h (s.mapTables f g) = (rleWork bpp y next h s).map (Work.map (State.mapTables f g)) := by
  simp only [rleWork, mapTables_x, rowPixel_mapTables, dstWrite_mapTables]
  cases choosePacket (rowPixel s bpp y) bpp s.x.width.toNat h.p.toNat with
  | error e => rfl
  | ok k =>
    dsimp only
    split
    · rfl
    · cases k.bytes with
      | error e => rfl
      | ok bs =>
        dsimp only
        cases dstWrite s h.outpos.toNat bs <;> rfl

/-- HUF.EXP's work step reads the table RAM and passes a change of the palette RAM on. -/
theorem hufWork_mapTables (h : HufState) (s : State) (hf : f s.tbl = s.tbl) :
    hufWork h (s.mapTables f g) = (hufWork h s).map (Work.map (State.mapTables f g)) := by
  have htbl : (s.mapTables f g).tbl = s.tbl := hf
  simp only [hufWork, mapTables_x, srcByte_mapTables, htbl]
  split
  · rfl
  · cases srcByte s (h.bitcnt.toNat / 8) with
    | error e => rfl
    | ok byte =>
      simp only [hufFollow, mapTables_outCnt, dstWrite_mapTables]
      split
      · cases dstWrite s s.outCnt.toNat [(followEntry s.tbl[h.node] (byte.getLsbD (h.bitcnt.toNat % 8))).setWidth 8]
          <;> rfl
      · split
        · rfl
        · rfl

/-- A conversion's work step reads the palette RAM and passes a change of the table RAM on. -/
theorem bpcWork_mapTables (pixel : Rgb → List Byte) (bpp : Nat) (next : Word → Operation) (i : Word) (s : State)
    (hg : g s.pal = s.pal) :
    bpcWork pixel bpp next i (s.mapTables f g) =
      (bpcWork pixel bpp next i s).map (Work.map (State.mapTables f g)) := by
  have hpal (c : Byte) : palEntry (s.mapTables f g) c = palEntry s c := by simp only [palEntry, State.mapTables, hg]
  simp only [bpcWork, mapTables_x, srcByte_mapTables, hpal, dstWrite_mapTables]
  cases srcByte s i.toNat with
  | error e => rfl
  | ok c =>
    dsimp only
    cases dstWrite s (planeOffset s.x.width.toNat s.x.height.toNat bpp i.toNat) (pixel (palEntry s c))
      <;> rfl

/-- The work step of a command that loads no table passes a change of the tables it does not use on. -/
theorem workStep_mapTables {s : State} {op : Operation} (hload : isLoad op = false)
    (hf : usesTbl op = true → f s.tbl = s.tbl) (hg : usesPal op = true → g s.pal = s.pal) :
    workStep (s.mapTables f g) op = (workStep s op).map (Work.map (State.mapTables f g)) := by
  cases op with
  | hufLdt | bpcLdp => cases hload
  | hufExp h => exact hufWork_mapTables h s (hf rfl)
  | lzsDec stopv h => exact lzsWork_mapTables stopv h s
  | bpcRgb24 i | bpcRgb32 i => exact bpcWork_mapTables _ _ _ i s (hg rfl)
  | scl2x bpp k | scl2x3 bpp k => exact sclWork_mapTables _ _ _ _ k s
  | rleLine bpp h | rleImg bpp topdown h => exact rleWork_mapTables _ _ _ h s

/-- HUF.LDT's work step overwrites the table RAM, whatever it held (R160). -/
theorem hufLoadWork_mapTables (s : State) :
    hufLoadWork (s.mapTables f g) = (hufLoadWork s).map (Work.map (State.mapTables id g)) := by
  simp only [hufLoadWork, mapTables_x, memRead_mapTables]
  cases memRead s s.x.srcBase.toNat 1020 <;> rfl

/-- BPC.LDP's work step overwrites the palette RAM, whatever it held (R200). -/
theorem bpcLoadWork_mapTables (s : State) :
    bpcLoadWork (s.mapTables f g) = (bpcLoadWork s).map (Work.map (State.mapTables f id)) := by
  simp only [bpcLoadWork, mapTables_x, memRead_mapTables]
  cases memRead s s.x.srcBase.toNat 768 <;> rfl

theorem hufLoadWork_not_raise {s : State} {c : Cause} {info : Nat} : hufLoadWork s ≠ .ok (.raise c info) := by
  unfold hufLoadWork
  split <;> simp

theorem bpcLoadWork_not_raise {s : State} {c : Cause} {info : Nat} : bpcLoadWork s ≠ .ok (.raise c info) := by
  unfold bpcLoadWork
  split <;> simp

/-! ### Steps -/

/-- The answer `o'` is the answer `o` but for the tables of the next state, each of which is changed as `f` or `g` says or
not at all. -/
def SameUpToTables (f : Vector Node 255 → Vector Node 255) (g : Vector Rgb 256 → Vector Rgb 256)
    (o o' : Host.Outcome State Fault Refusal) : Prop :=
  ∃ f' g', (f' = f ∨ f' = id) ∧ (g' = g ∨ g' = id) ∧ o' = mapNext (State.mapTables f' g') o

theorem SameUpToTables.of_eq {o o' : Host.Outcome State Fault Refusal} (h : o' = mapNext (State.mapTables f g) o) :
    SameUpToTables f g o o' := ⟨f, g, .inl rfl, .inl rfl, h⟩

/-- An engine step with a change of the tables that its work step passes on. -/
theorem engineStep_mapTables {d : Bool} {w w' : Except Fault Work} (s : State)
    (h : d = false → w' = w.map (Work.map (State.mapTables f g))) :
    engineStep d w' (s.mapTables f g) = mapNext (State.mapTables f g) (engineStep d w s) := by
  cases d with
  | true => rfl
  | false =>
    rw [h rfl]
    rcases w with e | t | ⟨c, info⟩ <;> rfl

/-- A work step that raises no fault answers the same from every state before it. -/
theorem engineStep_map_of_not_raise {φ : State → State} {w : Except Fault Work} (s s' : State)
    (h : ∀ c info, w ≠ .ok (.raise c info)) :
    engineStep false (w.map (Work.map φ)) s' = mapNext φ (engineStep false w s) := by
  rcases w with e | t | ⟨c, info⟩
  · rfl
  · rfl
  · exact absurd rfl (h c info)

theorem doneTest_mapTables (s : State) (op : Operation) : doneTest (s.mapTables f g) op = doneTest s op := by
  cases op <;> rfl

/-- An engine step of an operation passes on, or forgets, a change of the tables it does not use. -/
theorem engine_sameUpToTables {s : State} {op : Operation}
    (hf : usesTbl op = true → f s.tbl = s.tbl) (hg : usesPal op = true → g s.pal = s.pal) :
    SameUpToTables f g (engineStep (doneTest s op) (workStep s op) s)
      (engineStep (doneTest (s.mapTables f g) op) (workStep (s.mapTables f g) op) (s.mapTables f g)) := by
  rw [doneTest_mapTables]
  cases hload : isLoad op with
  | false => exact .of_eq (engineStep_mapTables s fun _ => workStep_mapTables hload hf hg)
  | true =>
    cases op with
    | hufLdt loaded =>
      cases loaded with
      | true => exact .of_eq rfl
      | false =>
        refine ⟨id, g, .inr rfl, .inl rfl, ?_⟩
        rw [workStep, hufLoadWork_mapTables]
        exact engineStep_map_of_not_raise s _ fun _ _ => hufLoadWork_not_raise
    | bpcLdp loaded =>
      cases loaded with
      | true => exact .of_eq rfl
      | false =>
        refine ⟨f, id, .inl rfl, .inr rfl, ?_⟩
        rw [workStep, bpcLoadWork_mapTables]
        exact engineStep_map_of_not_raise s _ fun _ _ => bpcLoadWork_not_raise
    | hufExp | lzsDec | bpcRgb24 | bpcRgb32 | scl2x | scl2x3 | rleLine | rleImg => cases hload

/-- A write of CMD passes a change of the tables on: its checks and its launch values do not look at them (R133). -/
theorem writeCmd_mapTables {v : Word} {check : State → Option Raise} {start : State → Operation} (s : State)
    (hcheck : ∀ a : State, check (a.mapTables f g) = check a) (hstart : ∀ a : State, start (a.mapTables f g) = start a) :
    writeCmd v check start (s.mapTables f g) = (writeCmd v check start s).mapTables f g := by
  have hc : check (acceptCmd v (s.mapTables f g)) = check (acceptCmd v s) := hcheck (acceptCmd v s)
  have hs : start (acceptCmd v (s.mapTables f g)) = start (acceptCmd v s) := hstart (acceptCmd v s)
  simp only [writeCmd, hc, hs, mapTables_busy, mapTables_fault]
  cases s.busy || s.fault with
  | true => rfl
  | false => cases check (acceptCmd v s) <;> rfl

/-- The host's write of an instruction passes a change of the tables on, or is a reset and forgets it. -/
theorem exec_host_sameUpToTables {s : State} (i : Instr) (ht : s.hostTurn = true) :
    SameUpToTables f g (exec i s) (exec i (s.mapTables f g)) := by
  cases hi : isCommand i with
  | true =>
    obtain ⟨start, hexec, hstart⟩ := exec_host hi ht
    obtain ⟨start', hexec', hstart'⟩ := exec_host (s := s.mapTables f g) hi ht
    obtain rfl : start' = start := funext fun a => Option.some.inj ((hstart' a).symm.trans (hstart a))
    refine .of_eq ?_
    rw [hexec, hexec', mapTables_pop, writeCmd_mapTables s.pop (fun a => launchCheck_congr rfl rfl rfl rfl) fun a =>
      Option.some.inj ((hstart _).symm.trans (hstart a))]
    rfl
  | false =>
    cases i with
    | srst ign => exact ⟨id, id, .inr rfl, .inr rfl, rfl⟩
    | hufLdt | hufExp | lzsDec | bpcLdp | bpcRgb24 | bpcRgb32 | scl2x | scl2x3 | rleLine | rleImg => cases hi

theorem writeOperand_mapTables (v : Word) (r : OperandReg) (s : State) :
    writeOperand v r (s.mapTables f g) = (writeOperand v r s).mapTables f g := by
  cases hb : s.busy with
  | true =>
    simp only [writeOperand, mapTables_busy, hb, if_true]
    rfl
  | false =>
    simp only [writeOperand, mapTables_busy, hb, Bool.false_eq_true, if_false]
    rfl

theorem plainWrite_mapTables (o : Nat) (v : Word) (s : State) :
    plainWrite o v (s.mapTables f g) = (plainWrite o v s).mapTables f g := by
  unfold plainWrite
  cases portReg o with
  | cmd =>
    exact writeCmd_mapTables (check := fun _ => some (.illegalCmd, v.toNat)) (start := fun _ => .hufLdt false) s
      (fun _ => rfl) fun _ => rfl
  | operand r => exact writeOperand_mapTables v r s
  | status | ie | id | ctrl | cause | finfo | srcPos | outCnt | nothing => rfl

/-- No register of the control port shows a table (R21). -/
theorem portRead_mapTables (o : Nat) (s : State) : portRead o (s.mapTables f g) = (portRead o s).mapTables f g := by
  unfold portRead
  cases portReg o <;> rfl

theorem hostRead_mapTables (a n : Nat) (s : State) :
    hostRead a n (s.mapTables f g) = mapNext (State.mapTables f g) (hostRead a n s) := by
  by_cases h : a + n ≤ s.platform.memBytes
  · simp only [hostRead, mapTables_platform, h, if_true]
    rfl
  · simp only [hostRead, mapTables_platform, h, if_false]
    rfl

theorem hostWrite_mapTables (a : Nat) (bs : List Byte) (s : State) :
    hostWrite a bs (s.mapTables f g) = mapNext (State.mapTables f g) (hostWrite a bs s) := by
  have hlive (b : Nat) : (s.mapTables f g).liveByte b = s.liveByte b := rfl
  simp only [hostWrite, hlive, memWrite_mapTables]
  cases (List.range bs.length).find? fun k => s.liveByte (a + k) with
  | some k => rfl
  | none =>
    dsimp only
    cases memWrite s a bs <;> rfl

/-- A transition without an instruction passes a change of the tables on, or is a reset and forgets it. -/
theorem otherTransition_sameUpToTables (s : State) :
    SameUpToTables f g (otherTransition s) (otherTransition (s.mapTables f g)) := by
  unfold otherTransition
  rw [mapTables_inbox]
  split
  case h_1 o v _ _ => exact .of_eq (congrArg Host.Outcome.next (plainWrite_mapTables o v s.pop))
  case h_2 o _ _ => exact .of_eq (congrArg Host.Outcome.next (portRead_mapTables o s.pop))
  case h_3 a n _ _ => exact .of_eq (hostRead_mapTables a n s.pop)
  case h_4 a bs _ _ => exact .of_eq (hostWrite_mapTables a bs s.pop)
  case h_5 => exact ⟨id, id, .inr rfl, .inr rfl, rfl⟩
  case h_6 => exact .of_eq rfl
  case h_7 => exact .of_eq rfl

/-- A step passes on, or forgets, a change of the tables that the operation in progress does not use. -/
theorem step_sameUpToTables {s : State} (hf : ∀ op, s.engine = some op → usesTbl op = true → f s.tbl = s.tbl)
    (hg : ∀ op, s.engine = some op → usesPal op = true → g s.pal = s.pal) :
    SameUpToTables f g (step s) (step (s.mapTables f g)) := by
  rcases step_cases s with ⟨i, hfetch, hstep⟩ | ⟨hfetch, hstep⟩
  · have hstep' : step (s.mapTables f g) = exec i (s.mapTables f g) := by simp [step, hfetch]
    rw [hstep, hstep']
    rcases fetch_cases hfetch with ⟨-, -, -, -, -, ht⟩ | ⟨ht, op, he, rfl⟩
    · exact exec_host_sameUpToTables i ht
    · rw [exec_engine ht he, exec_engine (s := s.mapTables f g) ht he]
      exact engine_sameUpToTables (s := s.pop) (hf op he) (hg op he)
  · have hstep' : step (s.mapTables f g) = otherTransition (s.mapTables f g) := by simp [step, hfetch]
    rw [hstep, hstep']
    exact otherTransition_sameUpToTables s

/-! ### Tables that are not loaded are not used -/

/-- HUF.EXP runs only with a valid table (R32, R135). -/
theorem tblValid_of_usesTbl {s : State} {op : Operation} (hi : invariant s = true) (he : s.engine = some op)
    (hu : usesTbl op = true) : s.tblValid = true := by
  obtain ⟨-, htable, -⟩ := launchCheck_none.1 (invariant_launchCheck hi he)
  cases op with
  | hufExp h => simpa [Operation.instr, tableCheck] using htable
  | hufLdt | lzsDec | bpcLdp | bpcRgb24 | bpcRgb32 | scl2x | scl2x3 | rleLine | rleImg => cases hu

/-- BPC.RGB24 and BPC.RGB32 run only with a valid palette (R33, R135). -/
theorem palValid_of_usesPal {s : State} {op : Operation} (hi : invariant s = true) (he : s.engine = some op)
    (hu : usesPal op = true) : s.palValid = true := by
  obtain ⟨-, htable, -⟩ := launchCheck_none.1 (invariant_launchCheck hi he)
  cases op with
  | bpcRgb24 | bpcRgb32 => simpa [Operation.instr, tableCheck] using htable
  | hufLdt | hufExp | lzsDec | bpcLdp | scl2x | scl2x3 | rleLine | rleImg => cases hu

end Sys2Proof.Machine

namespace Sys2Proof.Proofs

open Sys2Proof.Machine

/-- Settles O55: an operation in progress uses valid tables only, and a step passes a change of the others on. -/
theorem unloadedTablesUnobservable : Obligations.UnloadedTablesUnobservable := by
  refine fun s tb pl hi => ⟨fun hinvalid => ?_, fun hinvalid => ?_⟩
  · obtain ⟨f, g, -, hg, h⟩ := step_sameUpToTables (s := s) (f := fun _ => tb) (g := id)
      (fun op he hu => by simp [tblValid_of_usesTbl hi he hu] at hinvalid) fun _ _ _ => rfl
    obtain rfl : g = id := hg.elim id id
    exact ⟨fun t ht => ⟨f t.tbl, h.trans (by rw [ht]; rfl)⟩, fun r hr => h.trans (by rw [hr]; rfl)⟩
  · obtain ⟨f, g, hf, -, h⟩ := step_sameUpToTables (s := s) (f := id) (g := fun _ => pl)
      (fun _ _ _ => rfl) fun op he hu => by simp [palValid_of_usesPal hi he hu] at hinvalid
    obtain rfl : f = id := hf.elim id id
    exact ⟨fun t ht => ⟨g t.pal, h.trans (by rw [ht]; rfl)⟩, fun r hr => h.trans (by rw [hr]; rfl)⟩

end Sys2Proof.Proofs
end

section
/-! Settles O52 and O54. A work step is run from two states that have the same inputs: both reads of the source answer
alike (`ReadsAlike`), and both states take one and the same `Effect`, whose stores lie in the destination region
(`WorksAlike`). O54 is that statement; O52 is the case in which the two states are one. -/

namespace Sys2Proof.Machine

/-! ### Stores -/

/-- A store of bytes at an address. -/
abbrev Store := Nat × List Byte

/-- The store writes the byte at address `a`. -/
def Store.Covers (w : Store) (a : Nat) : Prop := w.1 ≤ a ∧ a < w.1 + w.2.length

/-- Buffer memory after a list of stores, the first one first (R63). -/
def Memory.stores (m : Memory) : List Store → Memory
  | [] => m
  | w :: ws => Memory.stores (m.writeAll w.1 w.2) ws

theorem Memory.read_stores_outside {a : Nat} : ∀ {ws : List Store} (m : Memory), (∀ w ∈ ws, ¬ Store.Covers w a) →
    (m.stores ws).read a = m.read a
  | [], _, _ => rfl
  | w :: ws, m, h => by
    obtain ⟨hw, hws⟩ := List.forall_mem_cons.1 h
    unfold Store.Covers at hw
    rw [Memory.stores, Memory.read_stores_outside _ hws, Memory.read_writeAll_outside _ _ _ _ (by omega)]

/-- A stored byte does not depend on the memory before the stores. -/
theorem Memory.read_stores_covered {a : Nat} : ∀ {ws : List Store} (m m' : Memory), (∃ w ∈ ws, Store.Covers w a) →
    (m.stores ws).read a = (m'.stores ws).read a
  | [], _, _, h => by simp at h
  | w :: ws, m, m', h => by
    by_cases hws : ∃ v ∈ ws, Store.Covers v a
    · exact Memory.read_stores_covered (ws := ws) _ _ hws
    · have hout : ∀ v ∈ ws, ¬ Store.Covers v a := fun v hv hc => hws ⟨v, hv, hc⟩
      obtain ⟨hlo, hhi⟩ : Store.Covers w a := by
        obtain ⟨v, hv, hc⟩ := h
        rcases List.mem_cons.1 hv with rfl | hv
        · exact hc
        · exact absurd hc (hout v hv)
      obtain ⟨k, rfl⟩ := Nat.exists_eq_add_of_le hlo
      have hk : k < w.2.length := by omega
      simp only [Memory.stores, Memory.read_stores_outside _ hout, Memory.read_writeAll_inside w.2 _ w.1 k hk]

/-! ### The regions of the operation in progress -/

/-- The source region of the operation in progress lies in buffer memory (R64, R137). -/
theorem srcRegion_le {s : State} {op : Operation} (hi : invariant s = true) (he : s.engine = some op) :
    s.x.srcBase.toNat + s.x.srcLen.toNat ≤ s.platform.memBytes := by
  obtain ⟨-, -, -, hregion, -⟩ := launchCheck_none.1 (invariant_launchCheck hi he)
  exact (regionCheck_none.1 hregion).1

/-- The destination region of an operation that uses it lies in buffer memory, clear of the source region
(R64, R137). -/
theorem dstRegion_le {s : State} {op : Operation} (hi : invariant s = true) (he : s.engine = some op)
    (hu : usesDst op.instr = true) :
    s.x.dstBase.toNat + s.x.dstCap.toNat ≤ s.platform.memBytes ∧ overlap s.x = false := by
  obtain ⟨-, -, -, hregion, -⟩ := launchCheck_none.1 (invariant_launchCheck hi he)
  exact (regionCheck_none.1 hregion).2 hu

theorem inSrc_iff {x : Operands} {a : Nat} :
    x.inSrc a = true ↔ x.srcBase.toNat ≤ a ∧ a < x.srcBase.toNat + x.srcLen.toNat := by
  simp [Operands.inSrc]

theorem inDst_iff {x : Operands} {a : Nat} :
    x.inDst a = true ↔ x.dstBase.toNat ≤ a ∧ a < x.dstBase.toNat + x.dstCap.toNat := by
  simp [Operands.inDst]

/-- Regions that do not overlap share no address (R137 c). -/
theorem inDst_of_inSrc {x : Operands} {a : Nat} (ho : overlap x = false) (hs : x.inSrc a = true) :
    x.inDst a = false := by
  obtain ⟨hlo, hhi⟩ := inSrc_iff.1 hs
  rw [Bool.eq_false_iff, Ne, inDst_iff]
  simp only [overlap, Bool.and_eq_false_iff, decide_eq_false_iff_not] at ho
  omega

/-! ### Two states with the same inputs -/

theorem SameInputs.platform {s s' : State} (h : SameInputs s s') : s'.platform = s.platform := h.1.symm

theorem SameInputs.x {s s' : State} (h : SameInputs s s') : s'.x = s.x := h.2.1.symm

theorem SameInputs.engine {s s' : State} (h : SameInputs s s') : s'.engine = s.engine := h.2.2.1.symm

theorem SameInputs.outCnt {s s' : State} (h : SameInputs s s') : s'.outCnt = s.outCnt := h.2.2.2.2.1.symm

theorem SameInputs.tbl {s s' : State} {op : Operation} (h : SameInputs s s') (he : s.engine = some op)
    (hu : usesTbl op = true) : s'.tbl = s.tbl := (h.2.2.2.2.2.1 op he hu).symm

theorem SameInputs.pal {s s' : State} {op : Operation} (h : SameInputs s s') (he : s.engine = some op)
    (hu : usesPal op = true) : s'.pal = s.pal := (h.2.2.2.2.2.2.1 op he hu).symm

theorem SameInputs.source {s s' : State} {a : Nat} (h : SameInputs s s') (ha : s.x.inSrc a = true) :
    s'.mem.read a = s.mem.read a := (h.2.2.2.2.2.2.2.1 a ha).symm

theorem SameInputs.window {s s' : State} {stopv : Bool} {g : LzsState} {k : Nat} (h : SameInputs s s')
    (he : s.engine = some (.lzsDec stopv g)) (hk : k < s.outCnt.toNat) :
    s'.mem.read (s.x.dstBase.toNat + k) = s.mem.read (s.x.dstBase.toNat + k) :=
  (h.2.2.2.2.2.2.2.2 stopv g he k hk).symm

theorem SameInputs.refl (s : State) : SameInputs s s :=
  ⟨rfl, rfl, rfl, rfl, rfl, fun _ _ _ => rfl, fun _ _ _ => rfl, fun _ _ => rfl, fun _ _ _ _ _ => rfl⟩

/-- Two states with the same inputs, in the first of which the work step of `op` comes next. -/
structure WorkPair (s s' : State) (op : Operation) : Prop where
  same : SameInputs s s'
  inv : invariant s = true
  engine : s.engine = some op
  working : doneTest s op = false

theorem WorkPair.progress {s s' : State} {op : Operation} (h : WorkPair s s' op) : progressOk s op = true :=
  (invariant_operation h.inv h.engine).1

theorem WorkPair.launchCheck {s s' : State} {op : Operation} (h : WorkPair s s' op) :
    launchCheck op.instr s = none := invariant_launchCheck h.inv h.engine

theorem WorkPair.needSrc {s s' : State} {op : Operation} {n : Nat} (h : WorkPair s s' op)
    (hn : needSrc s.x op.instr = some n) : n ≤ s.x.srcLen.toNat := needSrc_le h.launchCheck hn

theorem WorkPair.needDst {s s' : State} {op : Operation} {n : Nat} (h : WorkPair s s' op)
    (hn : needDst s.x op.instr = some n) : n ≤ s.x.dstCap.toNat := needDst_le h.launchCheck hn

/-! ### Reads that answer alike -/

/-- The stop of an engine step on a byte of the source region that nothing has written (R71; log 8). -/
def SrcStop (s : State) (f : Fault) : Prop :=
  ∃ a, f = .unwrittenRead a ∧ s.mem.read a = none ∧ s.x.inSrc a = true

/-- Two reads answer the same value, or both stop on the same unwritten byte of the source region of `s`. -/
def ReadsAlike {α : Type} (s : State) (r r' : Except Fault α) : Prop :=
  (∃ v, r = .ok v ∧ r' = .ok v) ∨ ∃ f, SrcStop s f ∧ r = .error f ∧ r' = .error f

theorem ReadsAlike.ok {α : Type} {s : State} (v : α) : ReadsAlike s (.ok v) (.ok v) := .inl ⟨v, rfl, rfl⟩

theorem ReadsAlike.stop {α : Type} {s : State} {f : Fault} (hf : SrcStop s f) :
    ReadsAlike (α := α) s (.error f) (.error f) := .inr ⟨f, hf, rfl, rfl⟩

theorem ReadsAlike.bind {α β : Type} {s : State} {r r' : Except Fault α} {k k' : α → Except Fault β}
    (hr : ReadsAlike s r r') (hk : ∀ v, ReadsAlike s (k v) (k' v)) : ReadsAlike s (r >>= k) (r' >>= k') := by
  rcases hr with ⟨v, rfl, rfl⟩ | ⟨f, hf, rfl, rfl⟩
  · exact hk v
  · exact .stop hf

theorem readAll_alike {s : State} {m' : Memory} : ∀ {n a : Nat},
    (∀ k, k < n → s.x.inSrc (a + k) = true ∧ m'.read (a + k) = s.mem.read (a + k)) →
    ReadsAlike s (s.mem.readAll a n) (m'.readAll a n)
  | 0, _, _ => .ok []
  | n + 1, a, h => by
    obtain ⟨hsrc, heq⟩ := h 0 (by omega)
    rw [Nat.add_zero] at hsrc heq
    have hrest : ReadsAlike s (s.mem.readAll (a + 1) n) (m'.readAll (a + 1) n) :=
      readAll_alike fun k hk => by
        rw [show a + 1 + k = a + (k + 1) by omega]
        exact h (k + 1) (by omega)
    simp only [Memory.readAll, heq]
    cases hb : s.mem.read a with
    | none => exact .stop ⟨a, rfl, hb, hsrc⟩
    | some b =>
      rcases hrest with ⟨bs, hr, hr'⟩ | ⟨f, hf, hr, hr'⟩
      · simp only [hr, hr']
        exact .ok _
      · simp only [hr, hr']
        exact .stop hf

/-- A read of bytes of the source region (R62, R64). -/
theorem memRead_alike {s s' : State} {op : Operation} {a n : Nat} (h : WorkPair s s' op)
    (hlo : s.x.srcBase.toNat ≤ a) (hhi : a + n ≤ s.x.srcBase.toNat + s.x.srcLen.toNat) :
    ReadsAlike s (memRead s a n) (memRead s' a n) := by
  have hle : a + n ≤ s.platform.memBytes := hhi.trans (srcRegion_le h.inv h.engine)
  simp only [memRead, h.same.platform, if_pos hle]
  refine readAll_alike fun k hk => ?_
  have hsrc : s.x.inSrc (a + k) = true := inSrc_iff.2 ⟨by omega, by omega⟩
  exact ⟨hsrc, h.same.source hsrc⟩

/-- A read of one byte of the source region (R12, R64). -/
theorem srcByte_alike {s s' : State} {op : Operation} {i : Nat} (h : WorkPair s s' op)
    (hlt : i < s.x.srcLen.toNat) : ReadsAlike s (srcByte s i) (srcByte s' i) := by
  have hsrc : s.x.inSrc (s.x.srcBase.toNat + i) = true := inSrc_iff.2 ⟨by omega, by omega⟩
  have hlt' : s.x.srcBase.toNat + i < s.platform.memBytes := by
    have := srcRegion_le h.inv h.engine
    omega
  simp only [srcByte, byteRead, h.same.x, h.same.platform, h.same.source hsrc, if_pos hlt']
  cases hb : s.mem.read (s.x.srcBase.toNat + i) with
  | none => exact .stop ⟨_, rfl, hb, hsrc⟩
  | some b => exact .ok b

/-- A write inside the destination region succeeds in both states (R63, R64). -/
theorem dstWrite_fits {s s' : State} {op : Operation} {i : Nat} {bs : List Byte} (h : WorkPair s s' op)
    (hu : usesDst op.instr = true) (hle : i + bs.length ≤ s.x.dstCap.toNat) :
    dstWrite s i bs = .ok { s with mem := s.mem.writeAll (s.x.dstBase.toNat + i) bs } ∧
      dstWrite s' i bs = .ok { s' with mem := s'.mem.writeAll (s.x.dstBase.toNat + i) bs } := by
  obtain ⟨hregion, -⟩ := dstRegion_le h.inv h.engine hu
  refine ⟨dstWrite_of_le (by omega), ?_⟩
  rw [dstWrite_of_le (by rw [h.same.x, h.same.platform]; omega), h.same.x]

/-! ### The effect of a work step -/

/-- What a work step does to the state, as data: its stores, the table it loads, whether EARLY rises, SRC_POS and
OUT_CNT, and the operation after it. -/
structure Effect where
  stores : List Store := []
  tbl : Option (Vector Node 255) := none
  pal : Option (Vector Rgb 256) := none
  early : Bool := false
  srcPos : Word
  outCnt : Word
  next : Operation

/-- The state after a work step with this effect. -/
def Effect.apply (e : Effect) (s : State) : State :=
  { s with
    mem := s.mem.stores e.stores
    tbl := e.tbl.getD s.tbl, tblValid := e.tbl.isSome || s.tblValid
    pal := e.pal.getD s.pal, palValid := e.pal.isSome || s.palValid
    early := e.early || s.early, srcPos := e.srcPos, outCnt := e.outCnt, engine := some e.next }

/-- The effect keeps the command and its mode fields, stores in the destination region only, loads a table only where
`op` is a load, and where `op` is LZS.DEC stores every output byte it counts (R64, R160, R181, R200). -/
structure Effect.Fits (e : Effect) (s : State) (op : Operation) : Prop where
  instr : e.next.instr = op.instr
  inDst : ∀ w ∈ e.stores, usesDst op.instr = true ∧ s.x.dstBase.toNat ≤ w.1 ∧
    w.1 + w.2.length ≤ s.x.dstBase.toNat + s.x.dstCap.toNat
  tbl : e.tbl.isSome = true ↔ op = .hufLdt false
  pal : e.pal.isSome = true ↔ op = .bpcLdp false
  output : ∀ stopv g, op = .lzsDec stopv g → ∀ k, s.outCnt.toNat ≤ k → k < e.outCnt.toNat →
    ∃ w ∈ e.stores, Store.Covers w (s.x.dstBase.toNat + k)

/-- The operation loads no table, and no later step reads the output it counts: every one but HUF.LDT, BPC.LDP and
LZS.DEC. -/
def isPlain : Operation → Bool
  | .hufLdt _ | .bpcLdp _ | .lzsDec _ _ => false
  | .hufExp _ | .bpcRgb24 _ | .bpcRgb32 _ | .scl2x _ _ | .scl2x3 _ _ | .rleLine _ _ | .rleImg _ _ _ => true

theorem usesDst_of_isPlain {op : Operation} (h : isPlain op = true) : usesDst op.instr = true := by
  cases op with
  | hufLdt | bpcLdp | lzsDec => cases h
  | hufExp | bpcRgb24 | bpcRgb32 | scl2x | scl2x3 | rleLine | rleImg => rfl

theorem isLoad_of_isPlain {op : Operation} (h : isPlain op = true) : isLoad op = false := by
  cases op with
  | hufLdt | bpcLdp | lzsDec => cases h
  | hufExp | bpcRgb24 | bpcRgb32 | scl2x | scl2x3 | rleLine | rleImg => rfl

/-- The effect of an operation that loads no table and reads no output. -/
theorem Effect.fits_of_isPlain {e : Effect} {s : State} {op : Operation} (hop : isPlain op = true)
    (hinstr : e.next.instr = op.instr) (htbl : e.tbl = none) (hpal : e.pal = none)
    (hstores : ∀ w ∈ e.stores, s.x.dstBase.toNat ≤ w.1 ∧
      w.1 + w.2.length ≤ s.x.dstBase.toNat + s.x.dstCap.toNat) : e.Fits s op where
  instr := hinstr
  inDst w hw := ⟨usesDst_of_isPlain hop, hstores w hw⟩
  tbl := iff_of_false (by simp [htbl]) (by rintro rfl; cases hop)
  pal := iff_of_false (by simp [hpal]) (by rintro rfl; cases hop)
  output := by rintro stopv g rfl; cases hop

/-- Work steps of `op` from two states: one effect on both, the same fault raised, or the same stop on an unwritten
source byte. -/
def WorksAlike (s s' : State) (op : Operation) (w w' : Except Fault Work) : Prop :=
  (∃ e : Effect, e.Fits s op ∧ w = .ok (.to (e.apply s)) ∧ w' = .ok (.to (e.apply s'))) ∨
    (∃ c info, isLoad op = false ∧ w = .ok (.raise c info) ∧ w' = .ok (.raise c info)) ∨
    ∃ f, SrcStop s f ∧ w = .error f ∧ w' = .error f

/-- The effect on the second state, with its operand registers named as those of the first. -/
theorem WorkPair.to {s s' : State} {op : Operation} (h : WorkPair s s' op) (e : Effect) (he : e.Fits s op) :
    WorksAlike s s' op (.ok (.to (e.apply s))) (.ok (.to { e.apply s' with x := s.x })) :=
  .inl ⟨e, he, rfl, by rw [← h.same.x]; rfl⟩

theorem WorksAlike.raise {s s' : State} {op : Operation} (c : Cause) (info : Nat) (h : isLoad op = false) :
    WorksAlike s s' op (.ok (.raise c info)) (.ok (.raise c info)) := .inr (.inl ⟨c, info, h, rfl, rfl⟩)

theorem WorksAlike.stop {s s' : State} {op : Operation} {f : Fault} (h : SrcStop s f) :
    WorksAlike s s' op (.error f) (.error f) := .inr (.inr ⟨f, h, rfl, rfl⟩)

/-! ### HUF.LDT, BPC.LDP and HUF.EXP -/

theorem hufLoadWork_alike {s s' : State} (h : WorkPair s s' (.hufLdt false)) :
    WorksAlike s s' (.hufLdt false) (hufLoadWork s) (hufLoadWork s') := by
  have hneed : 1020 ≤ s.x.srcLen.toNat := h.needSrc rfl
  simp only [hufLoadWork, h.same.x]
  rcases memRead_alike h le_rfl (Nat.add_le_add_left hneed _) with ⟨img, hr, hr'⟩ | ⟨f, hf, hr, hr'⟩
  · simp only [hr, hr']
    exact h.to { tbl := some (imageTable img), srcPos := 1020, outCnt := 0, next := .hufLdt true }
      ⟨rfl, by simp, iff_of_true rfl rfl, by simp, by simp⟩
  · simp only [hr, hr']
    exact .stop hf

theorem bpcLoadWork_alike {s s' : State} (h : WorkPair s s' (.bpcLdp false)) :
    WorksAlike s s' (.bpcLdp false) (bpcLoadWork s) (bpcLoadWork s') := by
  have hneed : 768 ≤ s.x.srcLen.toNat := h.needSrc rfl
  simp only [bpcLoadWork, h.same.x]
  rcases memRead_alike h le_rfl (Nat.add_le_add_left hneed _) with ⟨img, hr, hr'⟩ | ⟨f, hf, hr, hr'⟩
  · simp only [hr, hr']
    exact h.to { pal := some (imagePalette img), srcPos := 768, outCnt := 0, next := .bpcLdp true }
      ⟨rfl, by simp, by simp, iff_of_true rfl rfl, by simp⟩
  · simp only [hr, hr']
    exact .stop hf

theorem hufFollow_alike {s s' : State} {g : HufState} (h : WorkPair s s' (.hufExp g)) (v : Half) :
    WorksAlike s s' (.hufExp g) (hufFollow g v s) (hufFollow g v s') := by
  obtain ⟨hcnt, -, -⟩ := progressOk_hufExp.1 h.progress
  have hrem : g.remaining.toNat ≠ 0 := by simpa [doneTest] using h.working
  have hcap : s.x.outLen.toNat ≤ s.x.dstCap.toNat := h.needDst rfl
  have hroom : s.outCnt.toNat + 1 ≤ s.x.dstCap.toNat := by omega
  unfold hufFollow
  split
  · obtain ⟨hw, hw'⟩ := dstWrite_fits (bs := [v.setWidth 8]) h rfl hroom
    simp only [h.same.outCnt, h.same.x, hw, hw']
    exact h.to
      { stores := [(s.x.dstBase.toNat + s.outCnt.toNat, [v.setWidth 8])], srcPos := g.nextSrcPos
        outCnt := BitVec.ofNat 32 (s.outCnt.toNat + 1)
        next := .hufExp (g.advance 254 (BitVec.ofNat 32 (g.remaining.toNat - 1))) }
      (Effect.fits_of_isPlain rfl rfl rfl rfl (by simp; omega))
  · split
    · rename_i hn
      simp only [h.same.outCnt, h.same.x]
      exact h.to
        { srcPos := g.nextSrcPos, outCnt := s.outCnt
          next := .hufExp (g.advance ⟨v.toNat - 256, hn⟩ g.remaining) }
        (Effect.fits_of_isPlain rfl (by simp only [Operation.instr]) rfl rfl (by simp))
    · exact .raise _ _ rfl

theorem hufWork_alike {s s' : State} {g : HufState} (h : WorkPair s s' (.hufExp g)) :
    WorksAlike s s' (.hufExp g) (hufWork g s) (hufWork g s') := by
  simp only [hufWork, h.same.x, h.same.tbl h.engine rfl]
  split
  · exact .raise _ _ rfl
  · rename_i hlen
    rcases srcByte_alike h (i := g.bitcnt.toNat / 8) (by omega) with ⟨b, hr, hr'⟩ | ⟨f, hf, hr, hr'⟩
    · simp only [hr, hr']
      exact hufFollow_alike h _
    · simp only [hr, hr']
      exact .stop hf

/-! ### BPC.RGB24 and BPC.RGB32 -/

/-- The pixel a source index gives lies inside the picture (R201). -/
theorem planeOffset_le {w h bpp i : Nat} (hw : w % 4 = 0) (hi : i < w * h) :
    planeOffset w h bpp i + bpp ≤ w * h * bpp := by
  obtain ⟨v, rfl⟩ := Nat.dvd_of_mod_eq_zero hw
  have hpos : 0 < 4 * v * h := by omega
  have hh : 0 < h := Nat.pos_of_mul_pos_left hpos
  have hv : 0 < v := Nat.pos_of_ne_zero (by rintro rfl; simp at hpos)
  have hy : planeY (4 * v) h i < h := Nat.mod_lt _ hh
  have hx : planeX (4 * v) h i < 4 * v := by
    have hcol : i % v < v := Nat.mod_lt _ hv
    have hplane : i / (v * h) < 4 := Nat.div_lt_of_lt_mul (by rw [Nat.mul_comm, ← Nat.mul_assoc]; exact hi)
    simp only [planeX, Nat.mul_assoc, Nat.mul_div_cancel_left _ (show 0 < 4 by decide)]
    omega
  calc planeOffset (4 * v) h bpp i + bpp = (planeY (4 * v) h i * (4 * v) + planeX (4 * v) h i + 1) * bpp := by
        rw [planeOffset]; ring
    _ ≤ (planeY (4 * v) h i * (4 * v) + 4 * v) * bpp := Nat.mul_le_mul_right _ (by omega)
    _ = (planeY (4 * v) h i + 1) * (4 * v) * bpp := by ring
    _ ≤ h * (4 * v) * bpp := Nat.mul_le_mul_right _ (Nat.mul_le_mul_right _ hy)
    _ = 4 * v * h * bpp := by ring

/-- A conversion step stores one pixel of `bpp` bytes in the picture (R202, R203). -/
theorem bpcWork_alike {s s' : State} {pixel : Rgb → List Byte} {bpp : Nat} {next : Word → Operation} {i : Word}
    (h : WorkPair s s' (next i)) (hop : isPlain (next i) = true) (hinstr : ∀ j, (next j).instr = (next i).instr)
    (hparam : paramCheck s.x (next i).instr = bpcParams s.x)
    (hsrc : needSrc s.x (next i).instr = some (pixelCount s.x))
    (hdst : needDst s.x (next i).instr = some (pixelCount s.x * bpp)) (hlt : i.toNat < pixelCount s.x)
    (hpixel : ∀ c, (pixel c).length = bpp) (hpal : s'.pal = s.pal) :
    WorksAlike s s' (next i) (bpcWork pixel bpp next i s) (bpcWork pixel bpp next i s') := by
  have hsrcLe := h.needSrc hsrc
  have hdstLe := h.needDst hdst
  obtain ⟨-, -, hp, -, -⟩ := launchCheck_none.1 h.launchCheck
  rw [hparam, bpcParams, firstFail_none] at hp
  simp only [List.mem_cons, List.not_mem_nil, or_false, forall_eq_or_imp, forall_eq, Bool.or_eq_false_iff,
    decide_eq_false_iff_not, not_not] at hp
  obtain ⟨⟨-, hwidth⟩, -⟩ := hp
  have hplane := planeOffset_le (bpp := bpp) hwidth hlt
  have hentry (c : Byte) : palEntry s' c = palEntry s c := by rw [palEntry, palEntry, hpal]
  simp only [bpcWork, h.same.x, hentry]
  rcases srcByte_alike h (hlt.trans_le hsrcLe) with ⟨c, hr, hr'⟩ | ⟨f, hf, hr, hr'⟩
  · have hroom : planeOffset s.x.width.toNat s.x.height.toNat bpp i.toNat + (pixel (palEntry s c)).length ≤
        s.x.dstCap.toNat := by
      rw [hpixel]
      exact hplane.trans hdstLe
    obtain ⟨hw, hw'⟩ := dstWrite_fits h (usesDst_of_isPlain hop) hroom
    simp only [hr, hr', hw, hw', h.same.x]
    exact h.to
      { stores := [(s.x.dstBase.toNat + planeOffset s.x.width.toNat s.x.height.toNat bpp i.toNat,
          pixel (palEntry s c))]
        srcPos := BitVec.ofNat 32 (i.toNat + 1), outCnt := BitVec.ofNat 32 (bpp * (i.toNat + 1))
        next := next (BitVec.ofNat 32 (i.toNat + 1)) }
      (Effect.fits_of_isPlain hop (hinstr _) rfl rfl (by simp; omega))
  · simp only [hr, hr']
    exact .stop hf

/-! ### LZS.DEC -/

theorem tokenDist_pos (t : Half) : 1 ≤ tokenDist t := by
  have := (t.extractLsb' 0 12).isLt
  unfold tokenDist
  omega

/-- A run copied within output that is written, and the same in both states, is the same run (R181, R182). -/
theorem copyRun_alike {dist : Nat} (hdist : 1 ≤ dist) : ∀ (n o : Nat) {s s' : State}, s'.x = s.x →
    s'.platform = s.platform → dist ≤ o → s.x.dstBase.toNat + o + n ≤ s.platform.memBytes →
    (∀ k, k < o → (s.mem.read (s.x.dstBase.toNat + k)).isSome = true ∧
      s'.mem.read (s.x.dstBase.toNat + k) = s.mem.read (s.x.dstBase.toNat + k)) →
    ∃ bs : List Byte, bs.length = n ∧
      copyRun s dist o n = .ok { s with mem := s.mem.writeAll (s.x.dstBase.toNat + o) bs } ∧
      copyRun s' dist o n = .ok { s' with mem := s'.mem.writeAll (s.x.dstBase.toNat + o) bs } := by
  intro n
  induction n with
  | zero => exact fun _ _ _ _ _ _ _ _ => ⟨[], rfl, rfl, rfl⟩
  | succ n ih =>
    intro o s s' hx hp ho hroom hwin
    obtain ⟨hsome, heq⟩ := hwin (o - dist) (by omega)
    rw [← Nat.add_sub_assoc ho] at hsome heq
    obtain ⟨b, hb⟩ := Option.isSome_iff_exists.1 hsome
    have hread : byteRead s (s.x.dstBase.toNat + o - dist) = .ok b := byteRead_of_read (by omega) hb
    have hread' : byteRead s' (s'.x.dstBase.toNat + o - dist) = .ok b :=
      byteRead_of_read (by rw [hp, hx]; omega) (by rw [hx, heq, hb])
    have hwrite := dstWrite_of_le (s := s) (i := o) (bs := [b]) (by simp only [List.length_singleton]; omega)
    have hwrite' : dstWrite s' o [b] = .ok { s' with mem := s'.mem.writeAll (s.x.dstBase.toNat + o) [b] } := by
      rw [dstWrite_of_le (by rw [hx, hp, List.length_singleton]; omega), hx]
    obtain ⟨bs, hlen, hrun, hrun'⟩ := ih (o + 1)
      (s := { s with mem := s.mem.writeAll (s.x.dstBase.toNat + o) [b] })
      (s' := { s' with mem := s'.mem.writeAll (s.x.dstBase.toNat + o) [b] }) hx hp (by omega)
      (by show s.x.dstBase.toNat + (o + 1) + n ≤ s.platform.memBytes; omega) fun k hk => by
        by_cases hko : k = o
        · subst hko
          simp
        · have hne : s.x.dstBase.toNat + k ≠ s.x.dstBase.toNat + o := by omega
          simp only [Memory.writeAll_one, Memory.read_write_other _ _ hne]
          exact hwin k (by omega)
    refine ⟨b :: bs, by rw [List.length_cons, hlen], ?_, ?_⟩
    · simp only [copyRun, hread, hwrite, hrun]
      rfl
    · simp only [copyRun, hread', hwrite', hrun']
      rfl

/-- The output that LZS.DEC has still to produce fits its destination region (R138, R180). -/
theorem lzs_room {s s' : State} {stopv : Bool} {g : LzsState} (h : WorkPair s s' (.lzsDec stopv g)) :
    s.outCnt.toNat + g.remaining.toNat ≤ s.x.dstCap.toNat := by
  obtain ⟨hcnt, -⟩ := progressOk_lzsDec.1 h.progress
  exact hcnt.trans_le (h.needDst rfl)

/-- A token that stores its bytes at the output position and counts them. -/
theorem lzs_fits {s s' : State} {stopv : Bool} {g g' : LzsState} {bs : List Byte} {srcPos : Word}
    (h : WorkPair s s' (.lzsDec stopv g)) (hle : bs.length ≤ g.remaining.toNat) :
    Effect.Fits
      { stores := [(s.x.dstBase.toNat + s.outCnt.toNat, bs)], srcPos := srcPos
        outCnt := BitVec.ofNat 32 (s.outCnt.toNat + bs.length), next := .lzsDec stopv g' } s (.lzsDec stopv g) where
  instr := rfl
  inDst w hw := by
    obtain rfl := List.mem_singleton.1 hw
    have := lzs_room h
    exact ⟨rfl, by simp only; omega, by simp only; omega⟩
  tbl := by simp
  pal := by simp
  output := by
    intro _ _ _ k hlo hhi
    refine ⟨_, List.mem_singleton_self _, ?_⟩
    simp only [BitVec.toNat_ofNat, Store.Covers] at hhi ⊢
    omega

theorem lzsLiteral_alike {s s' : State} {stopv : Bool} {g : LzsState} {bucket : BitVec 9} {pos : Nat}
    (h : WorkPair s s' (.lzsDec stopv g)) (hrem : 0 < g.remaining.toNat) :
    WorksAlike s s' (.lzsDec stopv g) (lzsLiteral stopv g bucket pos s) (lzsLiteral stopv g bucket pos s') := by
  have hroom := lzs_room h
  simp only [lzsLiteral, h.same.x, h.same.outCnt]
  split
  · exact .raise _ _ rfl
  · rcases srcByte_alike h (i := pos) (by omega) with ⟨b, hr, hr'⟩ | ⟨f, hf, hr, hr'⟩
    · obtain ⟨hw, hw'⟩ := dstWrite_fits (i := s.outCnt.toNat) (bs := [b]) h rfl
        (by simp only [List.length_singleton]; omega)
      simp only [hr, hr', hw, hw', h.same.x]
      exact h.to _ (lzs_fits (bs := [b]) (srcPos := BitVec.ofNat 32 (pos + 1))
        (g' := ⟨bucket, BitVec.ofNat 32 (pos + 1), BitVec.ofNat 32 (g.remaining.toNat - 1), g.stop⟩) h hrem)
    · simp only [hr, hr']
      exact .stop hf

theorem lzsToken_alike {s s' : State} {stopv : Bool} {g : LzsState} {bucket : BitVec 9} {pos : Nat} (t : Half)
    (h : WorkPair s s' (.lzsDec stopv g)) :
    WorksAlike s s' (.lzsDec stopv g) (lzsToken stopv g bucket pos t s) (lzsToken stopv g bucket pos t s') := by
  obtain ⟨-, -, -, -, -, -, hwritten⟩ := progressOk_lzsDec.1 h.progress
  have hroom := lzs_room h
  obtain ⟨hregion, -⟩ := dstRegion_le h.inv h.engine rfl
  have hstop : lzsStop s'.platform.stopPred t = lzsStop s.platform.stopPred t := by rw [h.same.platform]
  simp only [lzsToken, hstop, h.same.outCnt, h.same.x, lzsAdvance]
  split
  · exact h.to
      { early := true, srcPos := BitVec.ofNat 32 pos, outCnt := s.outCnt
        next := .lzsDec stopv ⟨bucket, BitVec.ofNat 32 pos, BitVec.ofNat 32 g.remaining.toNat, true⟩ }
      ⟨rfl, by simp, by simp, by simp, fun _ _ _ k hlo hhi => absurd hhi (Nat.not_lt.2 hlo)⟩
  · split
    · exact .raise _ _ rfl
    · split
      · exact .raise _ _ rfl
      · obtain ⟨bs, hlen, hrun, hrun'⟩ := copyRun_alike (tokenDist_pos t) (tokenLen t) s.outCnt.toNat h.same.x
          h.same.platform (by omega) (by omega) fun k hk => ⟨hwritten k hk, h.same.window h.engine hk⟩
        simp only [hrun, hrun', h.same.x]
        rw [← hlen]
        exact h.to _ (lzs_fits (bs := bs) (srcPos := BitVec.ofNat 32 pos)
          (g' := ⟨bucket, BitVec.ofNat 32 pos, BitVec.ofNat 32 (g.remaining.toNat - bs.length), g.stop⟩) h (by omega))

theorem lzsItem_alike {s s' : State} {stopv : Bool} {g : LzsState} {bucket : BitVec 9} {pos : Nat}
    (h : WorkPair s s' (.lzsDec stopv g)) (hrem : 0 < g.remaining.toNat) :
    WorksAlike s s' (.lzsDec stopv g) (lzsItem stopv g bucket pos s) (lzsItem stopv g bucket pos s') := by
  unfold lzsItem
  split
  · exact lzsLiteral_alike h hrem
  · simp only [lzsBackref, h.same.x]
    split
    · exact .raise _ _ rfl
    · rcases srcByte_alike h (i := pos) (by omega) with ⟨b0, hr, hr'⟩ | ⟨f, hf, hr, hr'⟩
      · rcases srcByte_alike h (i := pos + 1) (by omega) with ⟨b1, hr1, hr1'⟩ | ⟨f, hf, hr1, hr1'⟩
        · simp only [hr, hr', hr1, hr1']
          exact lzsToken_alike _ h
        · simp only [hr, hr', hr1, hr1']
          exact .stop hf
      · simp only [hr, hr']
        exact .stop hf

theorem lzsWork_alike {s s' : State} {stopv : Bool} {g : LzsState} (h : WorkPair s s' (.lzsDec stopv g)) :
    WorksAlike s s' (.lzsDec stopv g) (lzsWork stopv g s) (lzsWork stopv g s') := by
  have hwork := h.working
  simp only [doneTest, Bool.or_eq_false_iff, beq_eq_false_iff_ne] at hwork
  have hrem : 0 < g.remaining.toNat := Nat.pos_of_ne_zero hwork.1
  simp only [lzsWork, h.same.x]
  split
  · split
    · exact .raise _ _ rfl
    · rcases srcByte_alike h (i := g.srcpos.toNat) (by omega) with ⟨ctl, hr, hr'⟩ | ⟨f, hf, hr, hr'⟩
      · simp only [hr, hr']
        exact lzsItem_alike h hrem
      · simp only [hr, hr']
        exact .stop hf
  · exact lzsItem_alike h hrem

/-! ### RLE.LINE and RLE.IMG -/

section Packets

variable {s : State} {px px' : Nat → Except Fault Pixel} {w : Nat}

theorem ReadsAlike.eq {α : Type} {r r' : Except Fault α} (h : ReadsAlike s r r') : r' = r := by
  rcases h with ⟨v, rfl, rfl⟩ | ⟨f, -, rfl, rfl⟩ <;> rfl

theorem sameCount_alike {e : Pixel} (hpx : ∀ q, q < w → ReadsAlike s (px q) (px' q)) : ∀ (n q : Nat), q + n ≤ w →
    ReadsAlike s (sameCount px e q n) (sameCount px' e q n)
  | 0, _, _ => .ok 0
  | n + 1, q, hq => by
    unfold sameCount
    rcases hpx q (by omega) with ⟨e', hr, hr'⟩ | ⟨f, hf, hr, hr'⟩
    · simp only [hr, hr']
      split
      · rcases sameCount_alike (e := e) hpx n (q + 1) (by omega) with ⟨k, hk, hk'⟩ | ⟨f, hf, hk, hk'⟩
        · simp only [hk, hk']
          exact .ok (k + 1)
        · simp only [hk, hk']
          exact .stop hf
      · exact .ok 0
    · simp only [hr, hr']
      exact .stop hf

theorem rawMore_alike (hpx : ∀ q, q < w → ReadsAlike s (px q) (px' q)) : ∀ (n q : Nat),
    ReadsAlike s (rawMore px w q n) (rawMore px' w q n)
  | 0, _ => .ok 0
  | n + 1, q => by
    unfold rawMore
    split
    · exact .ok 0
    · split
      · exact .ok 1
      · rcases hpx q (by omega) with ⟨e, hr, hr'⟩ | ⟨f, hf, hr, hr'⟩
        · rcases hpx (q + 1) (by omega) with ⟨e1, hr1, hr1'⟩ | ⟨f, hf, hr1, hr1'⟩
          · simp only [hr, hr', hr1, hr1']
            split
            · exact .ok 0
            · rcases rawMore_alike hpx n (q + 1) with ⟨k, hk, hk'⟩ | ⟨f, hf, hk, hk'⟩
              · simp only [hk, hk']
                exact .ok (k + 1)
              · simp only [hk, hk']
                exact .stop hf
          · simp only [hr, hr', hr1, hr1']
            exact .stop hf
        · simp only [hr, hr']
          exact .stop hf

theorem rawBytes_alike (hpx : ∀ q, q < w → ReadsAlike s (px q) (px' q)) : ∀ (n q : Nat), q + n ≤ w →
    ReadsAlike s (rawBytes px q n) (rawBytes px' q n)
  | 0, _, _ => .ok []
  | n + 1, q, hq => by
    unfold rawBytes
    rcases hpx q (by omega) with ⟨e, hr, hr'⟩ | ⟨f, hf, hr, hr'⟩
    · rcases rawBytes_alike hpx n (q + 1) (by omega) with ⟨bs, hk, hk'⟩ | ⟨f, hf, hk, hk'⟩
      · simp only [hr, hr', hk, hk']
        exact .ok _
      · simp only [hr, hr', hk, hk']
        exact .stop hf
    · simp only [hr, hr']
      exact .stop hf

theorem runCount_alike {p : Nat} (hpx : ∀ q, q < w → ReadsAlike s (px q) (px' q)) (hp : p < w) :
    ReadsAlike s (runCount px w p) (runCount px' w p) := by
  unfold runCount
  rcases hpx p hp with ⟨e, hr, hr'⟩ | ⟨f, hf, hr, hr'⟩
  · simp only [hr, hr']
    rcases sameCount_alike (e := e) hpx (min 128 (w - p) - 1) (p + 1) (by omega) with ⟨k, hk, hk'⟩ | ⟨f, hf, hk, hk'⟩
    · simp only [hk, hk']
      exact .ok (k + 1)
    · simp only [hk, hk']
      exact .stop hf
  · simp only [hr, hr']
    exact .stop hf

theorem repeatPacket_alike {bpp p n : Nat} (hpx : ∀ q, q < w → ReadsAlike s (px q) (px' q)) (hp : p < w) :
    ReadsAlike s (repeatPacket px bpp p n).bytes (repeatPacket px' bpp p n).bytes := by
  unfold repeatPacket
  rcases hpx p hp with ⟨e, hr, hr'⟩ | ⟨f, hf, hr, hr'⟩
  · simp only [hr, hr']
    exact .ok _
  · simp only [hr, hr']
    exact .stop hf

theorem rawPacket_alike {bpp p n : Nat} (hpx : ∀ q, q < w → ReadsAlike s (px q) (px' q)) (hp : p + n ≤ w) :
    ReadsAlike s (rawPacket px bpp p n).bytes (rawPacket px' bpp p n).bytes := by
  unfold rawPacket
  rcases rawBytes_alike hpx n p hp with ⟨bs, hr, hr'⟩ | ⟨f, hf, hr, hr'⟩
  · simp only [hr, hr']
    exact .ok _
  · simp only [hr, hr']
    exact .stop hf

/-- Rows whose pixels are read alike have the same next packet, and its bytes are read alike (R252). -/
theorem choosePacket_alike {bpp p : Nat} (hpx : ∀ q, q < w → ReadsAlike s (px q) (px' q)) (hp : p < w) :
    (∃ k, choosePacket px bpp w p = .ok k ∧ choosePacket px' bpp w p = .ok k ∧ ReadsAlike s k.bytes k.bytes) ∨
      ∃ f, SrcStop s f ∧ choosePacket px bpp w p = .error f ∧ choosePacket px' bpp w p = .error f := by
  unfold choosePacket
  rcases runCount_alike hpx hp with ⟨r, hr, hr'⟩ | ⟨f, hf, hr, hr'⟩
  · simp only [hr, hr']
    split
    · have hbytes := repeatPacket_alike (bpp := bpp) (n := r) hpx hp
      have heq : repeatPacket px' bpp p r = repeatPacket px bpp p r :=
        congrArg (Packet.mk r (1 + bpp)) hbytes.eq
      rw [hbytes.eq] at hbytes
      exact .inl ⟨_, rfl, by rw [heq], hbytes⟩
    · rcases rawMore_alike hpx 127 (p + 1) with ⟨k, hk, hk'⟩ | ⟨f, hf, hk, hk'⟩
      · have hle := (rawMore_le hk).2
        have hbytes := rawPacket_alike (bpp := bpp) (p := p) (n := k + 1) hpx (by omega)
        have heq : rawPacket px' bpp p (k + 1) = rawPacket px bpp p (k + 1) :=
          congrArg (Packet.mk (k + 1) (1 + (k + 1) * bpp)) hbytes.eq
        rw [hbytes.eq] at hbytes
        simp only [hk, hk', heq]
        exact .inl ⟨_, rfl, rfl, hbytes⟩
      · simp only [hk, hk']
        exact .inr ⟨f, hf, rfl, rfl⟩
  · simp only [hr, hr']
    exact .inr ⟨f, hf, rfl, rfl⟩

end Packets

/-- An RLE step of an image of `rows` rows reads its row and stores one packet (R252). -/
theorem rleWork_alike {s s' : State} {bpp y rows : Nat} {next : RleState → Operation} {g : RleState}
    (h : WorkPair s s' (next g)) (hop : isPlain (next g) = true) (hinstr : ∀ j, (next j).instr = (next g).instr)
    (hbytes : rows * s.x.width.toNat * bpp ≤ s.x.srcLen.toNat) (hy : y < rows) (hp : g.p.toNat < s.x.width.toNat) :
    WorksAlike s s' (next g) (rleWork bpp y next g s) (rleWork bpp y next g s') := by
  have hpx : ∀ q, q < s.x.width.toNat → ReadsAlike s (rowPixel s bpp y q) (rowPixel s' bpp y q) := by
    intro q hq
    have hpos : (y * s.x.width.toNat + q) * bpp + bpp ≤ s.x.srcLen.toNat :=
      calc (y * s.x.width.toNat + q) * bpp + bpp = (y * s.x.width.toNat + (q + 1)) * bpp := by ring
        _ ≤ (y * s.x.width.toNat + s.x.width.toNat) * bpp := Nat.mul_le_mul_right _ (Nat.add_le_add_left hq _)
        _ = (y + 1) * s.x.width.toNat * bpp := by ring
        _ ≤ rows * s.x.width.toNat * bpp := Nat.mul_le_mul_right _ (Nat.mul_le_mul_right _ hy)
        _ ≤ s.x.srcLen.toNat := hbytes
    simp only [rowPixel, h.same.x]
    exact memRead_alike h (Nat.le_add_right _ _) (by omega)
  simp only [rleWork, h.same.x]
  rcases choosePacket_alike (bpp := bpp) hpx hp with ⟨k, hk, hk', hread⟩ | ⟨f, hf, hk, hk'⟩
  · obtain ⟨-, -, -, hsize⟩ := choosePacket_ok (fun _ _ => rowPixel_length) hp hk
    simp only [hk, hk']
    split
    · exact .raise _ _ (isLoad_of_isPlain hop)
    · rcases hread with ⟨bs, hbs, -⟩ | ⟨f, hf, hbs, -⟩
      · have hlen := hsize bs hbs
        have hroom : g.outpos.toNat + bs.length ≤ s.x.dstCap.toNat := by omega
        obtain ⟨hw, hw'⟩ := dstWrite_fits h (usesDst_of_isPlain hop) hroom
        simp only [hbs, hw, hw', h.same.x]
        exact h.to
          { stores := [(s.x.dstBase.toNat + g.outpos.toNat, bs)]
            srcPos := BitVec.ofNat 32 ((rleNextRow s.x.width.toNat g k.count * s.x.width.toNat +
              rleNextP s.x.width.toNat g k.count) * bpp)
            outCnt := BitVec.ofNat 32 (g.outpos.toNat + k.size)
            next := next (g.advance s.x.width.toNat k) }
          (Effect.fits_of_isPlain hop (hinstr _) rfl rfl (by simp; omega))
      · simp only [hbs]
        exact .stop hf
  · simp only [hk, hk']
    exact .stop hf

/-! ### SCL.2X and SCL.2X3 -/

theorem except_bind_ok {α β : Type} {r : Except Fault α} {k : α → Except Fault β} {v : β} (h : r >>= k = .ok v) :
    ∃ a, r = .ok a ∧ k a = .ok v := by
  cases r with
  | error f => cases h
  | ok a => exact ⟨a, rfl, h⟩

/-- The pixel a sub-pixel takes is the source pixel or one of its four direct neighbours (R225, item 2). -/
def Nbhd.picks (n : Nbhd) : List Pixel := [n.e, n.b, n.d, n.f, n.h]

theorem pickPixel_mem (n : Nbhd) (p : Pick) : pickPixel n p ∈ Nbhd.picks n := by
  cases p <;> simp [pickPixel, Nbhd.picks]

theorem kernel2x_picks (κ : Kernel) (n : Nbhd) :
    (kernel2x κ n).length = 4 ∧ ∀ e ∈ kernel2x κ n, e ∈ Nbhd.picks n := by
  cases κ with
  | published =>
    refine ⟨rfl, ?_⟩
    simp only [kernel2x, published2x, List.forall_mem_cons, List.not_mem_nil, false_imp_iff, implies_true, and_true]
    refine ⟨?_, ?_, ?_, ?_⟩ <;> split <;> simp [Nbhd.picks]
  | other k =>
    refine ⟨by simp [kernel2x], fun e he => ?_⟩
    obtain ⟨j, -, rfl⟩ := List.mem_map.1 he
    exact pickPixel_mem n _

theorem kernel2x3_picks (κ : Kernel) (n : Nbhd) :
    (kernel2x3 κ n).length = 6 ∧ ∀ e ∈ kernel2x3 κ n, e ∈ Nbhd.picks n := by
  cases κ with
  | published =>
    refine ⟨rfl, ?_⟩
    simp only [kernel2x3, published2x3, List.forall_mem_cons, List.not_mem_nil, false_imp_iff, implies_true, and_true]
    refine ⟨?_, ?_, ?_, ?_, ?_, ?_⟩ <;> split <;> simp [Nbhd.picks]
  | other k =>
    refine ⟨by simp [kernel2x3], fun e he => ?_⟩
    obtain ⟨j, -, rfl⟩ := List.mem_map.1 he
    exact pickPixel_mem n _

theorem neighbours_picks_length {s : State} {bpp px py : Nat} {n : Nbhd} (h : neighbours s bpp px py = .ok n) :
    ∀ e ∈ Nbhd.picks n, e.length = bpp := by
  obtain ⟨a, -, h⟩ := except_bind_ok h
  obtain ⟨b, hb, h⟩ := except_bind_ok h
  obtain ⟨c, -, h⟩ := except_bind_ok h
  obtain ⟨d, hd, h⟩ := except_bind_ok h
  obtain ⟨e, he, h⟩ := except_bind_ok h
  obtain ⟨f, hf, h⟩ := except_bind_ok h
  obtain ⟨g, -, h⟩ := except_bind_ok h
  obtain ⟨i, hi, h⟩ := except_bind_ok h
  obtain ⟨j, -, h⟩ := except_bind_ok h
  cases h
  simp only [Nbhd.picks, List.forall_mem_cons, List.not_mem_nil, false_imp_iff, implies_true, and_true]
  exact ⟨(memRead_ok he).2.1, (memRead_ok hb).2.1, (memRead_ok hd).2.1, (memRead_ok hf).2.1, (memRead_ok hi).2.1⟩

theorem clamp_le (a : Int) (m : Nat) : clamp a m ≤ m := by
  unfold clamp
  split <;> omega

/-- A clamped pixel lies in the source image (R148, R221). -/
theorem pixelOffset_le {x : Operands} {bpp : Nat} (u v : Int) (hw : 1 ≤ x.width.toNat) :
    pixelOffset x bpp u v + bpp ≤ (x.height.toNat - 1) * x.srcStride.toNat + x.width.toNat * bpp := by
  have hrow := Nat.mul_le_mul_right x.srcStride.toNat (clamp_le v (x.height.toNat - 1))
  have hcol : clamp u (x.width.toNat - 1) * bpp + bpp ≤ x.width.toNat * bpp :=
    calc clamp u (x.width.toNat - 1) * bpp + bpp = (clamp u (x.width.toNat - 1) + 1) * bpp := by ring
      _ ≤ x.width.toNat * bpp := Nat.mul_le_mul_right _ (by have := clamp_le u (x.width.toNat - 1); omega)
  unfold pixelOffset
  omega

/-- Every sub-pixel of a block of `f` rows lies in the scaled image (R224). -/
theorem subOffset_le {x : Operands} {bpp f px py j : Nat} (hpx : px < x.width.toNat) (hpy : py < x.height.toNat)
    (hj : j < 2 * f) : subOffset x bpp f px py j + bpp ≤
      (f * x.height.toNat - 1) * x.dstStride.toNat + 2 * x.width.toNat * bpp := by
  have hblock : f * py + f ≤ f * x.height.toNat := Nat.mul_le_mul_left f hpy
  have hrow : (f * py + j / 2) * x.dstStride.toNat ≤ (f * x.height.toNat - 1) * x.dstStride.toNat :=
    Nat.mul_le_mul_right _ (by omega)
  have hcol : (2 * px + j % 2) * bpp + bpp ≤ 2 * x.width.toNat * bpp :=
    calc (2 * px + j % 2) * bpp + bpp = (2 * px + j % 2 + 1) * bpp := by ring
      _ ≤ 2 * x.width.toNat * bpp := Nat.mul_le_mul_right _ (by omega)
  unfold subOffset
  omega

/-- The stores of sub-pixels `j`, `j + 1`, … of a block (R224). -/
def blockStores (x : Operands) (bpp f px py : Nat) : List Pixel → Nat → List Store
  | [], _ => []
  | e :: es, j => (x.dstBase.toNat + subOffset x bpp f px py j, e) :: blockStores x bpp f px py es (j + 1)

theorem blockStores_inDst {x : Operands} {bpp f px py cap : Nat} : ∀ {es : List Pixel} {j : Nat},
    (∀ e ∈ es, e.length = bpp) → (∀ k, k < j + es.length → subOffset x bpp f px py k + bpp ≤ cap) →
    ∀ w ∈ blockStores x bpp f px py es j, x.dstBase.toNat ≤ w.1 ∧ w.1 + w.2.length ≤ x.dstBase.toNat + cap
  | [], _, _, _, _, hw => by cases hw
  | e :: es, j, hlen, hcap, w, hw => by
    obtain ⟨he, hes⟩ := List.forall_mem_cons.1 hlen
    rw [List.length_cons] at hcap
    rcases List.mem_cons.1 hw with rfl | hw
    · have := hcap j (by omega)
      exact ⟨Nat.le_add_right _ _, by simp only [he]; omega⟩
    · exact blockStores_inDst hes (fun k hk => hcap k (by omega)) w hw

/-- A block whose stores all fit is written (R63, R224). -/
theorem writeBlock_stores {bpp f px py : Nat} : ∀ {es : List Pixel} {j : Nat} {s : State},
    (∀ w ∈ blockStores s.x bpp f px py es j, w.1 + w.2.length ≤ s.platform.memBytes) →
    writeBlock bpp f px py es j s = .ok { s with mem := s.mem.stores (blockStores s.x bpp f px py es j) }
  | [], _, _, _ => rfl
  | e :: es, j, s, hfit => by
    obtain ⟨he, hes⟩ := List.forall_mem_cons.1 hfit
    simp only [writeBlock, dstWrite_of_le he]
    exact writeBlock_stores (s := { s with mem := s.mem.writeAll _ e }) hes

/-- A scaler step reads pixels of the source image and stores one block of the scaled image (R224). -/
theorem sclWork_alike {s s' : State} {kernel : Nbhd → List Pixel} {bpp : BitVec 3} {f : Nat}
    {next : Word → Operation} {k : Word} (h : WorkPair s s' (next k)) (hop : isPlain (next k) = true)
    (hinstr : ∀ j, (next j).instr = (next k).instr) (hparam : paramCheck s.x (next k).instr = sclParams s.x bpp)
    (hsrc : needSrc s.x (next k).instr =
      some ((s.x.height.toNat - 1) * s.x.srcStride.toNat + s.x.width.toNat * bpp.toNat))
    (hdst : needDst s.x (next k).instr =
      some ((f * s.x.height.toNat - 1) * s.x.dstStride.toNat + 2 * s.x.width.toNat * bpp.toNat))
    (hk : k.toNat < pixelCount s.x)
    (hkernel : ∀ n, (kernel n).length = 2 * f ∧ ∀ e ∈ kernel n, e ∈ Nbhd.picks n) :
    WorksAlike s s' (next k) (sclWork kernel bpp.toNat f next k s) (sclWork kernel bpp.toNat f next k s') := by
  have hsrcLe := h.needSrc hsrc
  have hdstLe := h.needDst hdst
  have hregion := (dstRegion_le h.inv h.engine (usesDst_of_isPlain hop)).1
  obtain ⟨-, -, hp, -, -⟩ := launchCheck_none.1 h.launchCheck
  rw [hparam, sclParams, firstFail_none] at hp
  simp only [List.mem_cons, List.not_mem_nil, or_false, forall_eq_or_imp, forall_eq, decide_eq_false_iff_not,
    not_lt] at hp
  obtain ⟨hwidth, -⟩ := hp
  have hpx : k.toNat % s.x.width.toNat < s.x.width.toNat := Nat.mod_lt _ (by omega)
  have hpy : k.toNat / s.x.width.toNat < s.x.height.toNat := Nat.div_lt_of_lt_mul hk
  have hread (px py : Nat) : ReadsAlike s (neighbours s bpp.toNat px py) (neighbours s' bpp.toNat px py) := by
    have hpixel (u v : Int) : ReadsAlike s (pixelAt s bpp.toNat u v) (pixelAt s' bpp.toNat u v) := by
      have := pixelOffset_le (bpp := bpp.toNat) u v (show 1 ≤ s.x.width.toNat by omega)
      simp only [pixelAt, h.same.x]
      exact memRead_alike h (Nat.le_add_right _ _) (by omega)
    exact (hpixel _ _).bind fun a => (hpixel _ _).bind fun b => (hpixel _ _).bind fun c => (hpixel _ _).bind fun d =>
      (hpixel _ _).bind fun e => (hpixel _ _).bind fun f => (hpixel _ _).bind fun g => (hpixel _ _).bind fun h =>
      (hpixel _ _).bind fun i => .ok _
  simp only [sclWork, h.same.x]
  rcases hread (k.toNat % s.x.width.toNat) (k.toNat / s.x.width.toNat) with ⟨n, hn, hn'⟩ | ⟨e, he, hn, hn'⟩
  · obtain ⟨hlen, hpicks⟩ := hkernel n
    have hbpp := neighbours_picks_length hn
    have hstores := blockStores_inDst (x := s.x) (f := f) (px := k.toNat % s.x.width.toNat)
      (py := k.toNat / s.x.width.toNat) (j := 0) (fun e he => hbpp e (hpicks e he)) fun j hj =>
        (subOffset_le hpx hpy (by omega)).trans hdstLe
    have hw := writeBlock_stores (s := s) fun w hw => (hstores w hw).2.trans hregion
    have hw' := writeBlock_stores (s := s') (bpp := bpp.toNat) (f := f) (px := k.toNat % s.x.width.toNat)
      (py := k.toNat / s.x.width.toNat) (es := kernel n) (j := 0) (by
        rw [h.same.x, h.same.platform]
        exact fun w hw => (hstores w hw).2.trans hregion)
    simp only [hn, hn', hw, hw', h.same.x]
    exact h.to
      { stores := blockStores s.x bpp.toNat f (k.toNat % s.x.width.toNat) (k.toNat / s.x.width.toNat) (kernel n) 0
        srcPos := BitVec.ofNat 32 ((k.toNat + 1) * bpp.toNat)
        outCnt := BitVec.ofNat 32 ((k.toNat + 1) * bpp.toNat * 2 * f)
        next := next (BitVec.ofNat 32 (k.toNat + 1)) }
      (Effect.fits_of_isPlain hop (hinstr _) rfl rfl hstores)
  · simp only [hn, hn']
    exact .stop he

/-! ### Every work step, and every engine step -/

/-- Where an RLE operation of `rows` rows takes a work step, a pixel of a row is left (R45, R142). -/
theorem rle_cursor_left {s : State} {rows : Nat} {bpp : BitVec 3} {g : RleState}
    (hp : progressOk.rleOk s rows bpp g = true) (hwork : rleDone rows g s.x = false) :
    g.row.toNat < rows ∧ g.p.toNat < s.x.width.toNat := by
  obtain ⟨-, -, -, hrow, hcol⟩ := rleOk_iff.1 hp
  simp only [rleDone, Bool.or_eq_false_iff, beq_eq_false_iff_ne] at hwork
  obtain ⟨hwidth, hleft⟩ := hwork
  omega

theorem imgRow_lt {height row : Nat} (topdown : Bool) (h : row < height) : imgRow topdown height row < height := by
  unfold imgRow
  split <;> omega

/-- The work step of every operation, from two states with the same inputs. -/
theorem workStep_alike {s s' : State} {op : Operation} (h : WorkPair s s' op) :
    WorksAlike s s' op (workStep s op) (workStep s' op) := by
  have hp := h.progress
  have hwork := h.working
  cases op with
  | hufLdt loaded =>
    obtain rfl : loaded = false := hwork
    exact hufLoadWork_alike h
  | hufExp g => exact hufWork_alike h
  | lzsDec stopv g => exact lzsWork_alike h
  | bpcLdp loaded =>
    obtain rfl : loaded = false := hwork
    exact bpcLoadWork_alike h
  | bpcRgb24 i =>
    have hlt : i.toNat < pixelCount s.x :=
      lt_of_le_of_ne (progressOk_bpcRgb24.1 hp).1 (by simpa [doneTest] using hwork)
    exact bpcWork_alike h rfl (fun _ => rfl) rfl rfl rfl hlt (fun _ => rfl) (h.same.pal h.engine rfl)
  | bpcRgb32 i =>
    have hlt : i.toNat < pixelCount s.x :=
      lt_of_le_of_ne (progressOk_bpcRgb32.1 hp).1 (by simpa [doneTest] using hwork)
    exact bpcWork_alike h rfl (fun _ => rfl) rfl rfl rfl hlt (fun _ => rfl) (h.same.pal h.engine rfl)
  | scl2x bpp k =>
    have hlt : k.toNat < pixelCount s.x :=
      lt_of_le_of_ne (progressOk_scl2x.1 hp).1 (by simpa [doneTest, pixelCount] using hwork)
    simp only [workStep, h.same.platform]
    exact sclWork_alike h rfl (fun _ => rfl) rfl rfl rfl hlt (kernel2x_picks _)
  | scl2x3 bpp k =>
    have hlt : k.toNat < pixelCount s.x :=
      lt_of_le_of_ne (progressOk_scl2x3.1 hp).1 (by simpa [doneTest, pixelCount] using hwork)
    simp only [workStep, h.same.platform]
    exact sclWork_alike h rfl (fun _ => rfl) rfl rfl rfl hlt (kernel2x3_picks _)
  | rleLine bpp g =>
    obtain ⟨-, hcol⟩ := rle_cursor_left hp hwork
    exact rleWork_alike (rows := 1) h rfl (fun _ => rfl) (by rw [Nat.one_mul]; exact h.needSrc rfl) Nat.one_pos hcol
  | rleImg bpp topdown g =>
    obtain ⟨hlt, hcol⟩ := rle_cursor_left hp hwork
    have hbytes := h.needSrc rfl
    rw [Nat.mul_comm s.x.width.toNat] at hbytes
    simp only [workStep, h.same.x]
    exact rleWork_alike h rfl (fun _ => rfl) hbytes (imgRow_lt topdown hlt) hcol

theorem doneTest_same {s s' : State} (op : Operation) (h : SameInputs s s') : doneTest s' op = doneTest s op := by
  cases op <;> simp only [doneTest, h.x]

/-- An engine step of the operation in progress, from two states with the same inputs: both complete, both take one
effect, both raise one fault, or both stop on an unwritten byte of the source region. -/
theorem exec_alike {s s' : State} {op : Operation} (hi : invariant s = true) (ht : s.hostTurn = false)
    (ht' : s'.hostTurn = false) (he : s.engine = some op) (h : SameInputs s s') :
    (doneTest s op = true ∧ exec op.instr s = .next (complete s.pop) ∧ exec op.instr s' = .next (complete s'.pop)) ∨
      (∃ e : Effect, e.Fits s.pop op ∧ exec op.instr s = .next (e.apply s.pop) ∧
        exec op.instr s' = .next (e.apply s'.pop)) ∨
      (∃ c info, isLoad op = false ∧ exec op.instr s = .next (takeFault c info s.pop) ∧
        exec op.instr s' = .next (takeFault c info s'.pop)) ∨
      ∃ f, SrcStop s f ∧ exec op.instr s = .fault f ∧ exec op.instr s' = .fault f := by
  have hpop : SameInputs s.pop s'.pop := h
  rw [exec_engine ht he, exec_engine ht' (h.engine.trans he), doneTest_same op hpop]
  cases hd : doneTest s.pop op with
  | true => exact .inl ⟨hd, rfl, rfl⟩
  | false =>
    have hpair : WorkPair s.pop s'.pop op := ⟨hpop, hi, he, hd⟩
    rcases workStep_alike hpair with ⟨e, hfits, hw, hw'⟩ | ⟨c, info, hload, hw, hw'⟩ | ⟨f, hf, hw, hw'⟩
    · exact .inr (.inl ⟨e, hfits, engineStep_to hw, engineStep_to hw'⟩)
    · exact .inr (.inr (.inl ⟨c, info, hload, engineStep_raise hw, engineStep_raise hw'⟩))
    · refine .inr (.inr (.inr ⟨f, hf, ?_, ?_⟩))
      · rw [hw]
        rfl
      · rw [hw']
        rfl

/-! ### The bytes an effect leaves -/

/-- An effect leaves every byte outside the destination region as it was. -/
theorem Effect.Fits.read_outside {e : Effect} {s : State} {op : Operation} (h : e.Fits s op) {a : Nat}
    (ha : (usesDst op.instr && s.x.inDst a) = false) : (e.apply s).mem.read a = s.mem.read a := by
  refine Memory.read_stores_outside s.mem fun w hw hc => ?_
  obtain ⟨hu, hlo, hhi⟩ := h.inDst w hw
  obtain ⟨hwlo, hwhi⟩ := hc
  have hin : s.x.inDst a = true := inDst_iff.2 ⟨by omega, by omega⟩
  simp [hu, hin] at ha

/-- A byte that both states have alike, unless the effect stores it, they have alike after the effect. -/
theorem Effect.read_alike (e : Effect) {s s' : State} {a : Nat}
    (h : (∀ w ∈ e.stores, ¬ Store.Covers w a) → s.mem.read a = s'.mem.read a) :
    (e.apply s).mem.read a = (e.apply s').mem.read a := by
  by_cases hc : ∃ w ∈ e.stores, Store.Covers w a
  · exact Memory.read_stores_covered s.mem s'.mem hc
  · have hout : ∀ w ∈ e.stores, ¬ Store.Covers w a := fun w hw hcov => hc ⟨w, hw, hcov⟩
    exact (Memory.read_stores_outside s.mem hout).trans
      ((h hout).trans (Memory.read_stores_outside s'.mem hout).symm)

end Sys2Proof.Machine

namespace Sys2Proof.Proofs

open Sys2Proof.Machine

/-- Settles O52: one state is a pair of states with the same inputs, and an engine step from it completes, takes an
effect that fits its regions, faults, or stops on an unwritten source byte. -/
theorem engineStaysInRegions : Obligations.EngineStaysInRegions := by
  intro s op hi ht he
  rcases exec_alike hi ht ht he (.refl s) with ⟨-, hx, -⟩ | ⟨e, hfits, hx, -⟩ | ⟨c, info, -, hx, -⟩ |
    ⟨f, hf, hx, -⟩ <;> rw [hx]
  · refine ⟨fun t h a _ => ?_, fun f h => (by cases h), fun r h => (by cases h)⟩
    cases h
    rfl
  · refine ⟨fun t h a ha => ?_, fun f h => (by cases h), fun r h => (by cases h)⟩
    cases h
    exact hfits.read_outside ha
  · refine ⟨fun t h a _ => ?_, fun f h => (by cases h), fun r h => (by cases h)⟩
    cases h
    rfl
  · refine ⟨fun t h => (by cases h), fun f' h => ?_, fun r h => (by cases h)⟩
    cases h
    exact hf

end Sys2Proof.Proofs
end

section
/-! Settles O54: after an engine step two states with the same inputs have the same results and the same inputs
again. -/

namespace Sys2Proof.Machine

/-! ### The results of a step -/

/-- The registers an operation leaves its results in are alike while the operation is in progress: the flags and the
fault registers are clear, and EARLY is the `stop` of LZS.DEC (R24, R133, R183). -/
theorem results_eq {s s' : State} {op : Operation} (hi : invariant s = true) (hi' : invariant s' = true)
    (he : s.engine = some op) (he' : s'.engine = some op) :
    s.done = s'.done ∧ s.fault = s'.fault ∧ s.cause = s'.cause ∧ s.finfo = s'.finfo ∧ s.early = s'.early := by
  obtain ⟨hdone, hfault⟩ := invariant_flags hi he
  obtain ⟨hdone', hfault'⟩ := invariant_flags hi' he'
  obtain ⟨-, hcause, hfinfo, hp, hearly⟩ := (operationOk_iff he).1 (invariant_iff.1 hi).2.2.2
  obtain ⟨-, hcause', hfinfo', hp', hearly'⟩ := (operationOk_iff he').1 (invariant_iff.1 hi').2.2.2
  refine ⟨hdone.trans hdone'.symm, hfault.trans hfault'.symm, hcause.trans hcause'.symm, hfinfo.trans hfinfo'.symm, ?_⟩
  cases op with
  | lzsDec stopv g =>
    obtain ⟨-, -, -, -, hstop, -⟩ := progressOk_lzsDec.1 hp
    obtain ⟨-, -, -, -, hstop', -⟩ := progressOk_lzsDec.1 hp'
    exact hstop.trans hstop'.symm
  | hufLdt | hufExp | bpcLdp | bpcRgb24 | bpcRgb32 | scl2x | scl2x3 | rleLine | rleImg =>
    rw [hearly (by simp), hearly' (by simp)]

/-- With no operation in progress no table and no output is among the inputs. -/
theorem SameInputs.idle {s s' : State} (h : SameInputs s s') :
    SameInputs { s with engine := none } { s' with engine := none } := by
  obtain ⟨hplatform, hx, -, hsrcPos, houtCnt, -, -, hsource, -⟩ := h
  exact ⟨hplatform, hx, rfl, hsrcPos, houtCnt, fun _ h => (by cases h), fun _ h => (by cases h), hsource,
    fun _ _ h => (by cases h)⟩

/-! ### The inputs after an effect -/

theorem usesTbl_iff {op : Operation} : usesTbl op = true ↔ op.instr = .hufExp := by
  cases op <;> simp [usesTbl, Operation.instr]

theorem usesPal_iff {op : Operation} : usesPal op = true ↔ op.instr = .bpcRgb24 ∨ op.instr = .bpcRgb32 := by
  cases op <;> simp [usesPal, Operation.instr]

theorem eq_lzsDec_of_instr {op : Operation} {stopv : Bool} (h : op.instr = .lzsDec stopv) :
    ∃ g, op = .lzsDec stopv g := by
  cases op with
  | lzsDec stopv' g =>
    cases h
    exact ⟨g, rfl⟩
  | hufLdt | hufExp | bpcLdp | bpcRgb24 | bpcRgb32 | scl2x | scl2x3 | rleLine | rleImg => cases h

/-- One effect on two states with the same inputs leaves two states with the same inputs (R70). -/
theorem SameInputs.apply {s s' : State} {op : Operation} {e : Effect} (h : SameInputs s s') (he : s.engine = some op)
    (hfits : e.Fits s op) : SameInputs (e.apply s) (e.apply s') := by
  refine ⟨h.platform.symm, h.x.symm, rfl, rfl, rfl, fun next hnext hu => ?_, fun next hnext hu => ?_, fun a ha => ?_,
    fun stopv g hnext k hk => ?_⟩
  · obtain rfl : e.next = next := Option.some.inj hnext
    have htbl := h.tbl he (usesTbl_iff.2 (hfits.instr.symm.trans (usesTbl_iff.1 hu)))
    exact congrArg e.tbl.getD htbl.symm
  · obtain rfl : e.next = next := Option.some.inj hnext
    have hinstr := usesPal_iff.1 hu
    rw [hfits.instr] at hinstr
    exact congrArg e.pal.getD (h.pal he (usesPal_iff.2 hinstr)).symm
  · exact e.read_alike fun _ => (h.source ha).symm
  · have hnext : e.next = .lzsDec stopv g := Option.some.inj hnext
    have hinstr : op.instr = .lzsDec stopv := by rw [← hfits.instr, hnext]; rfl
    obtain ⟨g₀, rfl⟩ := eq_lzsDec_of_instr hinstr
    refine e.read_alike fun hout => ?_
    have hold : k < s.outCnt.toNat := by
      by_contra hnew
      obtain ⟨w, hw, hc⟩ := hfits.output stopv g₀ rfl k (Nat.not_lt.1 hnew) hk
      exact hout w hw hc
    exact (h.window he hold).symm

/-- Only HUF.LDT's work step loads the table RAM, and both states then hold the table of the image (R160). -/
theorem Effect.Fits.apply_tbl {e : Effect} {s : State} {op : Operation} (hfits : e.Fits s op) (s' : State) :
    if op = .hufLdt false then (e.apply s).tbl = (e.apply s').tbl
    else (e.apply s).tbl = s.tbl ∧ (e.apply s').tbl = s'.tbl := by
  cases htbl : e.tbl with
  | none =>
    have hop : op ≠ .hufLdt false := fun hop => by simpa [htbl] using hfits.tbl.2 hop
    rw [if_neg hop]
    simp only [Effect.apply, htbl, Option.getD_none, and_self]
  | some tbl =>
    rw [if_pos (hfits.tbl.1 (by rw [htbl]; rfl))]
    simp only [Effect.apply, htbl, Option.getD_some]

/-- Only BPC.LDP's work step loads the palette RAM, and both states then hold the palette of the image (R200). -/
theorem Effect.Fits.apply_pal {e : Effect} {s : State} {op : Operation} (hfits : e.Fits s op) (s' : State) :
    if op = .bpcLdp false then (e.apply s).pal = (e.apply s').pal
    else (e.apply s).pal = s.pal ∧ (e.apply s').pal = s'.pal := by
  cases hpal : e.pal with
  | none =>
    have hop : op ≠ .bpcLdp false := fun hop => by simpa [hpal] using hfits.pal.2 hop
    rw [if_neg hop]
    simp only [Effect.apply, hpal, Option.getD_none, and_self]
  | some pal =>
    rw [if_pos (hfits.pal.1 (by rw [hpal]; rfl))]
    simp only [Effect.apply, hpal, Option.getD_some]

/-- An effect leaves a byte as it was in both states, or stores the same byte in both. -/
theorem Effect.read_kept_or_agree (e : Effect) (s s' : State) (a : Nat) :
    ((e.apply s).mem.read a = s.mem.read a ∧ (e.apply s').mem.read a = s'.mem.read a) ∨
      agreeAt (e.apply s).mem (e.apply s').mem a = true := by
  by_cases hc : ∃ w ∈ e.stores, Store.Covers w a
  · exact .inr (beq_iff_eq.2 (Memory.read_stores_covered s.mem s'.mem hc))
  · have hout : ∀ w ∈ e.stores, ¬ Store.Covers w a := fun w hw hcov => hc ⟨w, hw, hcov⟩
    exact .inl ⟨Memory.read_stores_outside s.mem hout, Memory.read_stores_outside s'.mem hout⟩

end Sys2Proof.Machine

namespace Sys2Proof.Proofs

open Sys2Proof.Machine

/-- Settles O54: the two engine steps are the same completion, the same effect, or the same fault. -/
theorem sameInputsSameStep : Obligations.SameInputsSameStep := by
  intro s s' t op hi hi' ht ht' he h hnext
  obtain ⟨hdone, hfault, hcause, hfinfo, hearly⟩ := results_eq hi hi' he (h.engine.trans he)
  have hpop : SameInputs s.pop s'.pop := h
  rcases exec_alike hi ht ht' he h with ⟨hd, hx, hx'⟩ | ⟨e, hfits, hx, hx'⟩ | ⟨c, info, hload, hx, hx'⟩ |
    ⟨f, -, hx, -⟩ <;> rw [hx] at hnext <;> cases hnext
  · have htbl : op ≠ .hufLdt false := by rintro rfl; cases hd
    have hpal : op ≠ .bpcLdp false := by rintro rfl; cases hd
    refine ⟨_, hx', hpop.idle, rfl, hfault, hcause, hfinfo, hearly, ?_, ?_, fun _ => .inl ⟨rfl, rfl⟩⟩
    · rw [if_neg htbl]
      exact ⟨rfl, rfl⟩
    · rw [if_neg hpal]
      exact ⟨rfl, rfl⟩
  · exact ⟨_, hx', hpop.apply he hfits, hdone, hfault, hcause, hfinfo, congrArg (e.early || ·) hearly,
      hfits.apply_tbl s'.pop, hfits.apply_pal s'.pop, e.read_kept_or_agree s.pop s'.pop⟩
  · have htbl : op ≠ .hufLdt false := by rintro rfl; cases hload
    have hpal : op ≠ .bpcLdp false := by rintro rfl; cases hload
    refine ⟨_, hx', hpop.idle, hdone, rfl, rfl, rfl, hearly, ?_, ?_, fun _ => .inl ⟨rfl, rfl⟩⟩
    · rw [if_neg htbl]
      exact ⟨rfl, rfl⟩
    · rw [if_neg hpal]
      exact ⟨rfl, rfl⟩

end Sys2Proof.Proofs
end

section
/-! Settles O53: every work step lowers `stepsLeft`, so that the run of an operation ends by induction on it; the
operands and the source region stay as they are on the way. -/

namespace Sys2Proof.Machine

/-! ### Runs -/

theorem run_of_next {s t : State} (n : Nat) (h : step s = .next t) :
    Host.Core.run Sys2Proof.core (n + 1) s = Host.Core.run Sys2Proof.core n t := by
  have hcore : Sys2Proof.core.step s = .next t := h
  simp only [Host.Core.run, hcore]

theorem run_of_fault {s : State} {f : Fault} (n : Nat) (h : step s = .fault f) :
    Host.Core.run Sys2Proof.core (n + 1) s = .fault f := by
  have hcore : Sys2Proof.core.step s = .fault f := h
  simp only [Host.Core.run, hcore]

/-- With an empty inbox the step is the engine's (R140). -/
theorem step_of_inbox_nil {s : State} {op : Operation} (hin : s.inbox = []) (he : s.engine = some op) :
    step s = exec op.instr s := by
  simp [step, fetch, hin, he]

/-! ### Every work step lowers the bound -/

/-- A token takes output off what remains, or is the stop sentinel (R181, R183). -/
theorem stepsLeft_lzsItem {s t : State} {stopv : Bool} {g : LzsState} {bucket : BitVec 9} {pos : Nat}
    (hrem : 0 < g.remaining.toNat) (hstop : g.stop = false) (h : lzsItem stopv g bucket pos s = .ok (.to t)) :
    ∃ op', t.engine = some op' ∧ stepsLeft s.x op' < stepsLeft s.x (.lzsDec stopv g) := by
  have hlt := g.remaining.isLt
  unfold lzsItem at h
  split at h
  · obtain ⟨-, b, -, -, rfl⟩ := lzsLiteral_to h
    refine ⟨_, rfl, ?_⟩
    simp only [stepsLeft, hstop, Bool.false_eq_true, if_false, BitVec.toNat_ofNat]
    omega
  · obtain ⟨-, b0, b1, -, -, htok⟩ := lzsBackref_to h
    rcases lzsToken_to htok with ⟨-, -, rfl⟩ | ⟨-, -, hfits, s', -, rfl⟩
    · refine ⟨_, rfl, ?_⟩
      simp only [stepsLeft, hstop, Bool.false_eq_true, if_false, if_true]
      exact hrem
    · refine ⟨_, rfl, ?_⟩
      have hlen : 3 ≤ tokenLen (le16 b0 b1) := Nat.le_add_left 3 _
      simp only [stepsLeft, hstop, Bool.false_eq_true, if_false, BitVec.toNat_ofNat]
      omega

/-- A packet moves the cursor of an image of `rows` rows on, by the pixels it covers (R45, R252). -/
theorem rleWork_cursor {bpp y rows : Nat} {next : RleState → Operation} {g : RleState} {s t : State}
    (hrows : rows < 2 ^ 16) (hrow : g.row.toNat < rows) (hcol : g.p.toNat < s.x.width.toNat)
    (h : rleWork bpp y next g s = .ok (.to t)) :
    ∃ g', t.engine = some (next g') ∧
      g.row.toNat * s.x.width.toNat + g.p.toNat < g'.row.toNat * s.x.width.toNat + g'.p.toNat := by
  obtain ⟨k, bs, hk, -, -, -, rfl⟩ := rleWork_to h
  obtain ⟨hpos, -, hcount, -⟩ := choosePacket_ok (fun _ _ => rowPixel_length) hcol hk
  have hw := s.x.width.isLt
  refine ⟨g.advance s.x.width.toNat k, rfl, ?_⟩
  simp only [RleState.advance, rleNextRow, rleNextP, BitVec.toNat_ofNat]
  split
  · rw [Nat.mod_eq_of_lt (by omega), Nat.zero_mod, Nat.succ_mul]
    omega
  · rw [Nat.mod_eq_of_lt (by omega), Nat.mod_eq_of_lt (by omega)]
    omega

/-- The pixels before a cursor in a row that is left are fewer than all. -/
theorem cursor_lt {w rows row p : Nat} (hrow : row < rows) (hp : p < w) : row * w + p < rows * w :=
  calc row * w + p < row * w + w := Nat.add_lt_add_left hp _
    _ = (row + 1) * w := (Nat.succ_mul row w).symm
    _ ≤ rows * w := Nat.mul_le_mul_right w hrow

/-- The next pixel number leaves one pixel fewer. -/
theorem pixelsLeft_lt {x : Operands} {i : Word} (h : i.toNat < pixelCount x) :
    pixelCount x - (BitVec.ofNat 32 (i.toNat + 1)).toNat < pixelCount x - i.toNat := by
  rw [toNat_nextPixel h]
  omega

/-- The work step of every operation lowers the bound on the steps left (R141). -/
theorem stepsLeft_workStep {s t : State} {op : Operation} (hi : invariant s = true) (he : s.engine = some op)
    (hwork : doneTest s op = false) (h : workStep s op = .ok (.to t)) :
    ∃ op', t.engine = some op' ∧ stepsLeft s.x op' < stepsLeft s.x op := by
  have hp := (invariant_operation hi he).1
  cases op with
  | hufLdt loaded =>
    obtain rfl : loaded = false := hwork
    obtain ⟨img, -, rfl⟩ := hufLoadWork_to h
    exact ⟨_, rfl, Nat.one_pos⟩
  | hufExp g =>
    have hlen := s.x.srcLen.isLt
    obtain ⟨hlt, byte, -, ⟨b, -, -, rfl⟩ | ⟨node, -, rfl⟩⟩ := hufWork_to h
    · refine ⟨_, rfl, ?_⟩
      simp only [stepsLeft, HufState.advance, BitVec.toNat_ofNat]
      omega
    · refine ⟨_, rfl, ?_⟩
      simp only [stepsLeft, HufState.advance, BitVec.toNat_ofNat]
      omega
  | lzsDec stopv g =>
    simp only [doneTest, Bool.or_eq_false_iff, beq_eq_false_iff_ne] at hwork
    obtain ⟨hrem, hstop⟩ := hwork
    rcases lzsWork_to h with ⟨-, hitem⟩ | ⟨-, -, ctl, -, hitem⟩
    · exact stepsLeft_lzsItem (Nat.pos_of_ne_zero hrem) hstop hitem
    · exact stepsLeft_lzsItem (Nat.pos_of_ne_zero hrem) hstop hitem
  | bpcLdp loaded =>
    obtain rfl : loaded = false := hwork
    obtain ⟨img, -, rfl⟩ := bpcLoadWork_to h
    exact ⟨_, rfl, Nat.one_pos⟩
  | bpcRgb24 i =>
    have hlt : i.toNat < pixelCount s.x :=
      lt_of_le_of_ne (progressOk_bpcRgb24.1 hp).1 (by simpa [doneTest] using hwork)
    obtain ⟨c, -, -, rfl⟩ := bpcWork_to h
    exact ⟨_, rfl, pixelsLeft_lt hlt⟩
  | bpcRgb32 i =>
    have hlt : i.toNat < pixelCount s.x :=
      lt_of_le_of_ne (progressOk_bpcRgb32.1 hp).1 (by simpa [doneTest] using hwork)
    obtain ⟨c, -, -, rfl⟩ := bpcWork_to h
    exact ⟨_, rfl, pixelsLeft_lt hlt⟩
  | scl2x bpp k =>
    have hlt : k.toNat < pixelCount s.x :=
      lt_of_le_of_ne (progressOk_scl2x.1 hp).1 (by simpa [doneTest, pixelCount] using hwork)
    obtain ⟨n, s', -, -, rfl⟩ := sclWork_to h
    exact ⟨_, rfl, pixelsLeft_lt hlt⟩
  | scl2x3 bpp k =>
    have hlt : k.toNat < pixelCount s.x :=
      lt_of_le_of_ne (progressOk_scl2x3.1 hp).1 (by simpa [doneTest, pixelCount] using hwork)
    obtain ⟨n, s', -, -, rfl⟩ := sclWork_to h
    exact ⟨_, rfl, pixelsLeft_lt hlt⟩
  | rleLine bpp g =>
    obtain ⟨hrow, hcol⟩ := rle_cursor_left hp hwork
    obtain ⟨g', he', hlt⟩ := rleWork_cursor (by decide) hrow hcol h
    have hleft := cursor_lt hrow hcol
    refine ⟨_, he', ?_⟩
    simp only [stepsLeft]
    omega
  | rleImg bpp topdown g =>
    obtain ⟨hrow, hcol⟩ := rle_cursor_left hp hwork
    obtain ⟨g', he', hlt⟩ := rleWork_cursor s.x.height.isLt hrow hcol h
    have hleft := cursor_lt hrow hcol
    refine ⟨_, he', ?_⟩
    rw [Nat.mul_comm s.x.height.toNat] at hleft
    simp only [stepsLeft, pixelCount]
    omega

/-! ### The end of an operation -/

/-- The operation that is in progress in `s` ends after `n` steps: it completes or faults, or the model stops on a byte
of the source region that nothing has written. -/
def EndsAfter (s : State) (n : Nat) : Prop :=
  (∃ t, Host.Core.run Sys2Proof.core n s = .next t ∧ t.engine = none ∧ (t.done = true ∨ t.fault = true)) ∨
    ∃ a, Host.Core.run Sys2Proof.core n s = .fault (.unwrittenRead a) ∧ s.x.inSrc a = true ∧ s.mem.read a = none

/-- An operation that ends after the next state ends one step later, with the same source region. -/
theorem EndsAfter.succ {s t : State} {n : Nat} (hstep : step s = .next t) (hx : t.x = s.x)
    (hsrc : ∀ a, s.x.inSrc a = true → t.mem.read a = s.mem.read a) (h : EndsAfter t n) : EndsAfter s (n + 1) := by
  unfold EndsAfter
  rw [run_of_next n hstep]
  rcases h with hend | ⟨a, hrun, ha, hread⟩
  · exact .inl hend
  · rw [hx] at ha
    exact .inr ⟨a, hrun, ha, (hsrc a ha).symm.trans hread⟩

/-- An engine step that leaves an operation in progress is its work step (R140). -/
theorem workStep_of_exec {s t : State} {op op' : Operation} (ht : s.hostTurn = false) (he : s.engine = some op)
    (h : exec op.instr s = .next t) (he' : t.engine = some op') :
    doneTest s.pop op = false ∧ workStep s.pop op = .ok (.to t) := by
  rw [exec_engine ht he] at h
  rcases engineStep_next h with ⟨-, rfl⟩ | hwork | ⟨-, c, info, -, rfl⟩
  · cases he'
  · exact hwork
  · cases he'

/-- An engine step with an empty inbox ends the operation, or leaves it in progress with fewer steps left. -/
theorem engine_ends_or_lowers {s : State} {op : Operation} (hi : invariant s = true) (hin : s.inbox = [])
    (he : s.engine = some op) : EndsAfter s 1 ∨ ∃ t op', step s = .next t ∧ invariant t = true ∧ t.inbox = [] ∧
      t.engine = some op' ∧ t.x = s.x ∧ (∀ a, s.x.inSrc a = true → t.mem.read a = s.mem.read a) ∧
      stepsLeft s.x op' < stepsLeft s.x op := by
  have ht : s.hostTurn = false := by simp [State.hostTurn, hin]
  have hstep := step_of_inbox_nil hin he
  rcases exec_alike hi ht ht he (.refl s) with ⟨-, hx, -⟩ | ⟨e, hfits, hx, -⟩ | ⟨c, info, -, hx, -⟩ |
    ⟨f, ⟨a, rfl, hread, hsrc⟩, hx, -⟩
  · exact .inl (.inl ⟨_, run_of_next 0 (hstep.trans hx), rfl, .inl rfl⟩)
  · obtain ⟨hd, hw⟩ := workStep_of_exec ht he hx rfl
    obtain ⟨op', he', hlt⟩ := stepsLeft_workStep (s := s.pop) hi he hd hw
    have hnext := hstep.trans hx
    refine .inr ⟨_, op', hnext, Proofs.stepKeepsInvariant _ _ hi hnext, by simp [Effect.apply, hin], he', rfl,
      fun a ha => hfits.read_outside ?_, hlt⟩
    cases hu : usesDst op.instr with
    | false => rfl
    | true => exact inDst_of_inSrc (dstRegion_le hi he hu).2 ha
  · exact .inl (.inl ⟨_, run_of_next 0 (hstep.trans hx), rfl, .inr rfl⟩)
  · exact .inl (.inr ⟨a, run_of_fault 0 (hstep.trans hx), hsrc, hread⟩)

/-- Left alone, an operation in progress ends within the steps left and one more (R140, R141, R142). -/
theorem ends_within {s : State} {op : Operation} (hi : invariant s = true) (hin : s.inbox = [])
    (he : s.engine = some op) : ∃ k, k ≤ stepsLeft s.x op + 1 ∧ EndsAfter s k := by
  induction hn : stepsLeft s.x op using Nat.strong_induction_on generalizing s op with
  | _ n ih =>
    rcases engine_ends_or_lowers hi hin he with hend | ⟨t, op', hstep, hi', hin', he', hx, hsrc, hlt⟩
    · exact ⟨1, Nat.le_add_left 1 n, hend⟩
    · rw [hn, ← hx] at hlt
      obtain ⟨k, hk, hend⟩ := ih _ hlt hi' hin' he' rfl
      exact ⟨k + 1, by omega, hend.succ hstep hx hsrc⟩

end Sys2Proof.Machine

namespace Sys2Proof.Proofs

open Sys2Proof.Machine

/-- Settles O53: by induction on the steps left; at a launch they are those of the launch values. -/
theorem operationsEnd : Obligations.OperationsEnd := by
  refine ⟨fun s op hi hin he => ends_within hi hin he, fun x i op h => ?_⟩
  cases i with
  | srst ign => cases h
  | hufLdt | hufExp | lzsDec | bpcLdp | bpcRgb24 | bpcRgb32 | scl2x | scl2x3 | rleLine | rleImg =>
    cases h
    simp [stepsLeft, pixelCount]

end Sys2Proof.Proofs
end

section
/-! Settles O1 and O3 to O5: the fields of a command word are read back from it, so that a word decodes exactly where
it is the word of a well-formed command. -/

namespace Sys2Proof

/-! ### The fields of a command word -/

section Fields

variable (opc : Byte) (bpp : BitVec 3) (topdown stopv : Bool)

/-- The bits of a command word from bit 0 up (R90). -/
theorem getLsbD_commandWord (j : Nat) : (commandWord opc bpp topdown stopv).getLsbD j =
    if j < 8 then opc.getLsbD j else if j < 11 then bpp.getLsbD (j - 8) else
      if j = 16 then topdown else if j = 17 then stopv else false := by
  change (0#14 ++ BitVec.ofBool stopv ++ BitVec.ofBool topdown ++ 0#5 ++ bpp ++ opc :
    BitVec (14 + 1 + 1 + 5 + 3 + 8)).getLsbD j = _
  simp only [BitVec.getLsbD_append, BitVec.getLsbD_ofBool, BitVec.getLsbD_zero]
  grind

theorem opcOf_commandWord : opcOf (commandWord opc bpp topdown stopv) = opc := by
  ext j hj
  simp [opcOf, getLsbD_commandWord, hj]

theorem bppOf_commandWord : bppOf (commandWord opc bpp topdown stopv) = bpp := by
  ext j hj
  have hlt : 8 + j < 11 := by omega
  simp [bppOf, getLsbD_commandWord, hlt, hj]

theorem topdownOf_commandWord : topdownOf (commandWord opc bpp topdown stopv) = topdown := by
  simp only [topdownOf, getLsbD_commandWord, Nat.reduceLT, if_false, if_true]

theorem stopvOf_commandWord : stopvOf (commandWord opc bpp topdown stopv) = stopv := by
  simp only [stopvOf, getLsbD_commandWord, Nat.reduceLT, Nat.reduceEqDiff, if_false, if_true]

theorem zeroFieldsClear_commandWord : zeroFieldsClear (commandWord opc bpp topdown stopv) = true := by
  rw [zeroFieldsClear, Bool.and_eq_true, beq_iff_eq, beq_iff_eq]
  constructor
  · ext j hj
    rw [BitVec.getElem_extractLsb', getLsbD_commandWord, if_neg (by omega), if_neg (by omega),
      if_neg (by omega), if_neg (by omega), BitVec.getElem_zero]
  · ext j hj
    rw [BitVec.getElem_extractLsb', getLsbD_commandWord, if_neg (by omega), if_neg (by omega),
      if_neg (by omega), if_neg (by omega), BitVec.getElem_zero]

end Fields

/-- A command word decodes by its opcode, and its other fields are checked against the row of that opcode (R91). -/
theorem decode_encode_command {i : Instr} (hwf : i.wf = true) (ho : i.offset = cmdOffset) :
    decodeCmd i.word = .ok i := by
  cases i with
  | srst => cases ho
  | hufLdt | hufExp | bpcLdp | bpcRgb24 | bpcRgb32 => rfl
  | lzsDec stopv => cases stopv <;> rfl
  | scl2x bpp | scl2x3 bpp | rleLine bpp | rleImg bpp topdown =>
    simp only [Instr.wf, List.contains_iff_mem] at hwf
    simp [decodeCmd, Instr.word, zeroFieldsClear_commandWord, opcOf_commandWord, bppOf_commandWord,
      topdownOf_commandWord, stopvOf_commandWord, legalRow, hwf]

/-- A value with bit 0 set, written to CTRL, keeps its other bits (R96). -/
theorem decode_ctrl (ign : BitVec 31) : decode ctrlOffset (ign ++ 1#1) = .ok (.srst ign) := by
  have hbit : (ign ++ 1#1).getLsbD 0 = true := by
    rw [BitVec.getLsbD_append]
    rfl
  have hign : (ign ++ 1#1).extractLsb' 1 31 = ign := by
    ext j hj
    rw [BitVec.getElem_extractLsb', BitVec.getLsbD_append, if_neg (by omega), Nat.add_sub_cancel_left,
      BitVec.getLsbD_eq_getElem hj]
  simp only [decode, ctrlOffset, cmdOffset, Nat.reduceEqDiff, if_false, if_true]
  rw [if_pos hbit]
  congr 2

/-- Exactly the words of well-formed commands decode (R91, R92, R94). -/
theorem decodeCmd_iff {v : Word} {i : Instr} :
    decodeCmd v = .ok i ↔ i.wf = true ∧ i.offset = cmdOffset ∧ i.word = v := by
  constructor
  · exact decodeCmd_ok
  · rintro ⟨hwf, ho, rfl⟩
    exact decode_encode_command hwf ho

/-! ### The legal commands -/

/-- The 22 commands of R91 and R92, in the order of their opcodes. -/
def legalCommands : List Instr :=
  [.hufLdt, .hufExp, .lzsDec false, .lzsDec true, .bpcLdp, .bpcRgb24, .bpcRgb32] ++ sclBpps.map .scl2x ++
    sclBpps.map .scl2x3 ++ rleBpps.map .rleLine ++ rleBpps.map (.rleImg · false) ++ rleBpps.map (.rleImg · true)

theorem mem_legalCommands {i : Instr} : i ∈ legalCommands ↔ i.wf = true ∧ i.offset = cmdOffset := by
  cases i with
  | lzsDec stopv => cases stopv <;> simp [legalCommands, Instr.wf, Instr.offset]
  | rleImg bpp topdown => cases topdown <;> simp [legalCommands, Instr.wf, Instr.offset]
  | srst => simp [legalCommands, Instr.offset, cmdOffset, ctrlOffset]
  | hufLdt | hufExp | bpcLdp | bpcRgb24 | bpcRgb32 | scl2x | scl2x3 | rleLine =>
    simp [legalCommands, Instr.wf, Instr.offset]

/-- A word decodes exactly where it is one of the words of the legal commands. -/
theorem decodeCmd_isOk_iff {v : Word} : (∃ i, decodeCmd v = .ok i) ↔ v ∈ legalCommands.map Instr.word := by
  simp only [decodeCmd_iff, List.mem_map, mem_legalCommands, and_assoc]

/-! ### The rows of the opcode table -/

theorem row_mem_commandRows {i : Instr} (ho : i.offset = cmdOffset) : i.row ∈ commandRows := by
  cases i with
  | srst => cases ho
  | hufLdt | hufExp | lzsDec | bpcLdp | bpcRgb24 | bpcRgb32 | scl2x | scl2x3 | rleLine | rleImg =>
    simp [commandRows, Instr.row]

/-- An instruction's value belongs to its own row (R95). -/
theorem row_admits_word (i : Instr) : i.row.admits i.word = true := by
  cases i with
  | hufLdt => exact Laws.EncodesToRow.hufLdt
  | hufExp => exact Laws.EncodesToRow.hufExp
  | lzsDec stopv => exact Laws.EncodesToRow.lzsDec stopv
  | bpcLdp => exact Laws.EncodesToRow.bpcLdp
  | bpcRgb24 => exact Laws.EncodesToRow.bpcRgb24
  | bpcRgb32 => exact Laws.EncodesToRow.bpcRgb32
  | scl2x bpp => exact Laws.EncodesToRow.scl2x bpp
  | scl2x3 bpp => exact Laws.EncodesToRow.scl2x3 bpp
  | rleLine bpp => exact Laws.EncodesToRow.rleLine bpp
  | rleImg bpp topdown => exact Laws.EncodesToRow.rleImg bpp topdown
  | srst ign => exact Laws.EncodesToRow.srst ign

/-- Every command row fixes the opcode byte of the words it admits. -/
theorem opcode_of_admits {v : Word} {r : Row} (hr : r ∈ commandRows) (h : r.admits v = true) :
    v &&& 0xFF#32 = r.pattern &&& 0xFF#32 := by
  have hmask : ∀ r ∈ commandRows, r.mask &&& 0xFF#32 = 0xFF#32 := by decide
  rw [Row.admits, beq_iff_eq] at h
  rw [← h, BitVec.and_assoc, hmask r hr]

/-- No two command rows have the same opcode byte. -/
theorem row_eq_of_opcode_eq : ∀ r ∈ commandRows, ∀ r' ∈ commandRows,
    r.pattern &&& 0xFF#32 = r'.pattern &&& 0xFF#32 → r = r' := by
  decide

end Sys2Proof

namespace Sys2Proof.Proofs

/-- Settles O1: a command is decoded from the fields of its word, the soft reset from bit 0 of its value. -/
theorem decodeInvertsEncode : Obligations.DecodeInvertsEncode := by
  intro i hwf
  cases i with
  | srst ign => exact decode_ctrl ign
  | hufLdt | hufExp | lzsDec | bpcLdp | bpcRgb24 | bpcRgb32 | scl2x | scl2x3 | rleLine | rleImg =>
    exact decode_encode_command hwf rfl

/-- Settles O3: the values listed are those of the words of `legalCommands`. -/
theorem legalCommandWords : Obligations.LegalCommandWords := by
  intro v
  have hinj : Function.Injective (BitVec.toNat (w := 32)) := fun _ _ => BitVec.eq_of_toNat_eq
  rw [decodeCmd_isOk_iff, ← List.mem_map_of_injective hinj]
  exact Iff.rfl

/-- Settles O4: the opcode byte of a word decides its row. -/
theorem commandRowsDisjoint : Obligations.CommandRowsDisjoint := by
  refine ⟨fun v i h => ?_, fun v r r' hr hr' h h' => ?_⟩
  · obtain ⟨-, ho, rfl⟩ := decodeCmd_ok h
    exact ⟨row_mem_commandRows ho, row_admits_word i⟩
  · exact row_eq_of_opcode_eq r hr r' hr' ((opcode_of_admits hr h).symm.trans (opcode_of_admits hr' h'))

/-- Settles O5: each word is decoded by evaluation. -/
theorem specWordsDecode : Obligations.SpecWordsDecode :=
  ⟨rfl, rfl, rfl, rfl, rfl, rfl, rfl, rfl⟩

end Sys2Proof.Proofs
end

section
/-! Settles O26 and O32: the table loads, forwards. -/

namespace Sys2Proof.Machine

/-- A read of bytes that buffer memory holds answers them (R62). -/
theorem memRead_of_holds {s : State} {a : Nat} {bs : List Byte} (h : s.mem.holds a bs)
    (hle : a + bs.length ≤ s.platform.memBytes) : memRead s a bs.length = .ok bs := by
  rw [memRead, if_pos hle, Memory.readAll_of_read bs h]

/-- A 16-bit item is its low byte and 256 times its high byte (R65). -/
theorem toNat_le16 (lo hi : Byte) : (le16 lo hi).toNat = lo.toNat + 256 * hi.toNat := by
  rw [le16, BitVec.toNat_append, Nat.shiftLeft_eq, Nat.mul_comm, ← Nat.two_pow_add_eq_or_of_lt lo.isLt]
  omega

/-- HUF.LDT's work step on an image that is there (R160). -/
theorem hufLoadWork_of_holds {s : State} {img : List Byte} (hlen : img.length = 1020)
    (h : s.mem.holds s.x.srcBase.toNat img) (hle : s.x.srcBase.toNat + 1020 ≤ s.platform.memBytes) :
    hufLoadWork s = .ok (.to { s with
      tbl := imageTable img, tblValid := true, srcPos := 1020, outCnt := 0, engine := some (.hufLdt true) }) := by
  have hread := memRead_of_holds h (by rwa [hlen])
  rw [hlen] at hread
  simp only [hufLoadWork, hread]

/-- BPC.LDP's work step on an image that is there (R200). -/
theorem bpcLoadWork_of_holds {s : State} {img : List Byte} (hlen : img.length = 768)
    (h : s.mem.holds s.x.srcBase.toNat img) (hle : s.x.srcBase.toNat + 768 ≤ s.platform.memBytes) :
    bpcLoadWork s = .ok (.to { s with
      pal := imagePalette img, palValid := true, srcPos := 768, outCnt := 0, engine := some (.bpcLdp true) }) := by
  have hread := memRead_of_holds h (by rwa [hlen])
  rw [hlen] at hread
  simp only [bpcLoadWork, hread]

end Sys2Proof.Machine

namespace Sys2Proof.Proofs

open Sys2Proof.Machine

/-- Settles O26: the table is that of the image, node by node. -/
theorem tableLoadStep : Obligations.TableLoadStep := by
  intro s img ht he hlen h hle
  refine ⟨imageTable img, exec_work ht he rfl (hufLoadWork_of_holds (s := s.pop) hlen h hle), fun n hn => ?_⟩
  simp only [imageTable, Vector.getElem_ofFn, imageNode, toNat_le16, and_self]

/-- Settles O32: the palette is that of the image, entry by entry. -/
theorem paletteLoadStep : Obligations.PaletteLoadStep := by
  intro s img ht he hlen h hle
  refine ⟨imagePalette img, exec_work ht he rfl (bpcLoadWork_of_holds (s := s.pop) hlen h hle), fun c hc => ?_⟩
  simp only [imagePalette, Vector.getElem_ofFn]

end Sys2Proof.Proofs
end

section
/-! Settles O28 to O30: one token of LZS.DEC, forwards, from the control bit it is taken with. -/

namespace Sys2Proof.Machine

/-! ### The control bit and the token -/

/-- A refilled bucket is its control byte below the marker bit (R181). -/
theorem toNat_refill (ctl : Byte) : (1#1 ++ ctl).toNat = ctl.toNat + 0x100 := by
  revert ctl
  decide

theorem refill_eq {bk : BitVec 9} {ctl : Byte} (h : bk.toNat = ctl.toNat + 0x100) : 1#1 ++ ctl = bk :=
  BitVec.eq_of_toNat_eq ((toNat_refill ctl).trans h.symm)

/-- With its control bits at hand, a work step of LZS.DEC is one control bit and its token (R181). -/
theorem lzsWork_of_control {s : State} {stopv : Bool} {h : LzsState} {bk : BitVec 9} {pos : Nat}
    (hc : LzsControl s h bk pos) : lzsWork stopv h s = lzsItem stopv h bk pos s := by
  rcases hc with ⟨hne, rfl, rfl⟩ | ⟨hempty, hlt, rfl, ctl, hbyte, hbk⟩
  · rw [lzsWork, if_neg hne]
  · rw [lzsWork, if_pos hempty, if_neg (by omega), srcByte_of_byteAt hbyte, ← refill_eq hbk]

/-- Where LZS.DEC meets a back-reference, its work step is that of the token (R181). -/
theorem lzsWork_of_meets {s : State} {stopv : Bool} {h : LzsState} {bk : BitVec 9} {pos : Nat} {t : Half}
    (hm : LzsMeets s h bk pos t) : lzsWork stopv h s = lzsToken stopv h (bk >>> 1) (pos + 2) t s := by
  obtain ⟨-, -, hc, hbit, hlt, b0, b1, hb0, hb1, htok⟩ := hm
  have htok : le16 b0 b1 = t := BitVec.eq_of_toNat_eq ((toNat_le16 b0 b1).trans htok.symm)
  rw [Nat.add_assoc] at hb1
  simp only [lzsWork_of_control hc, lzsItem, hbit, Bool.false_eq_true, if_false, lzsBackref, if_neg (Nat.not_le.2 hlt),
    srcByte_of_byteAt hb0, srcByte_of_byteAt hb1, htok]

/-- An operation of LZS.DEC with output to produce, not stopped, is not done (R142). -/
theorem doneTest_lzsDec_false {s : State} {stopv : Bool} {h : LzsState} (hrem : 0 < h.remaining.toNat)
    (hstop : h.stop = false) : doneTest s (.lzsDec stopv h) = false := by
  simp only [doneTest, hstop, Bool.or_false, beq_eq_false_iff_ne]
  omega

/-- The distance of a token in its own bits (R105). -/
theorem tokenDist_eq (t : Half) : tokenDist t = 0x1000 - t.toNat % 0x1000 := by
  simp [tokenDist]

/-- The length of a token in its own bits (R105). -/
theorem tokenLen_eq (t : Half) : tokenLen t = t.toNat / 0x1000 + 3 := by
  have := t.isLt
  simp only [tokenLen, BitVec.extractLsb'_toNat, Nat.shiftRight_eq_div_pow]
  omega

/-- The default stop sentinel (R106). -/
theorem lzsStop_default (t : Half) : lzsStop .lenFieldIsOne t = true ↔ t.toNat / 0x1000 = 1 := by
  have := t.isLt
  simp only [lzsStop, beq_iff_eq, BitVec.toNat_eq, BitVec.extractLsb'_toNat, Nat.shiftRight_eq_div_pow,
    BitVec.toNat_ofNat]
  omega

/-! ### Words of the next state -/

theorem ofNat_toNat_add {n : Nat} (v : BitVec n) (k : Nat) : BitVec.ofNat n (v.toNat + k) = v + BitVec.ofNat n k := by
  simp [BitVec.ofNat_add]

theorem ofNat_toNat_sub {n : Nat} (v : BitVec n) {k : Nat} (h : k ≤ v.toNat) :
    BitVec.ofNat n (v.toNat - k) = v - BitVec.ofNat n k := by
  rw [eq_sub_iff_add_eq, ← BitVec.ofNat_add, Nat.sub_add_cancel h, BitVec.ofNat_toNat, BitVec.setWidth_eq]

/-- A step that consumed its token and took `n` bytes off what remains (R181). -/
theorem lzsAdvance_sub {stopv stop : Bool} {bucket : BitVec 9} {pos n : Nat} {rem : Word} (s : State)
    (h : n ≤ rem.toNat) : lzsAdvance stopv stop bucket pos (rem.toNat - n) s =
      { s with
        srcPos := BitVec.ofNat 32 pos
        engine := some (.lzsDec stopv
          { bucket := bucket, srcpos := BitVec.ofNat 32 pos, remaining := rem - BitVec.ofNat 32 n
            stop := stop }) } := by
  rw [lzsAdvance, ofNat_toNat_sub _ h]

/-! ### The literal -/

theorem lzsLiteral_of_byteAt {s : State} {stopv : Bool} {h : LzsState} {bucket : BitVec 9} {pos : Nat} {b : Byte}
    (hrem : 0 < h.remaining.toNat) (hlt : pos < s.x.srcLen.toNat) (hb : s.byteAt (s.x.srcBase.toNat + pos) b)
    (hroom : s.x.dstBase.toNat + s.outCnt.toNat < s.platform.memBytes) :
    lzsLiteral stopv h bucket pos s = .ok (.to { s with
      mem := s.mem.write (s.x.dstBase.toNat + s.outCnt.toNat) b, outCnt := s.outCnt + 1
      srcPos := BitVec.ofNat 32 (pos + 1)
      engine := some (.lzsDec stopv
        { bucket := bucket, srcpos := BitVec.ofNat 32 (pos + 1), remaining := h.remaining - 1
          stop := h.stop }) }) := by
  have hw := dstWrite_of_le (s := s) (i := s.outCnt.toNat) (bs := [b]) hroom
  simp only [lzsLiteral, if_neg (Nat.not_le.2 hlt), srcByte_of_byteAt hb, hw, lzsAdvance_sub _ hrem, ofNat_toNat_add,
    Memory.writeAll_one]
  rfl

/-! ### The copy -/

/-- The copy of a back-reference whose window is written: every byte of the run is the byte one distance before it,
and only the run changes (R181, R182). -/
theorem copyRun_of_window {dist : Nat} (hdist : 1 ≤ dist) : ∀ (n : Nat) {o : Nat} {s : State}, dist ≤ o →
    s.x.dstBase.toNat + o + n ≤ s.platform.memBytes →
    (∀ k, k < dist → (s.mem.read (s.x.dstBase.toNat + o - dist + k)).isSome = true) →
    ∃ m, copyRun s dist o n = .ok { s with mem := m } ∧
      (∀ k, k < n → m.read (s.x.dstBase.toNat + o + k) = m.read (s.x.dstBase.toNat + o + k - dist)) ∧
      ∀ a, a < s.x.dstBase.toNat + o ∨ s.x.dstBase.toNat + o + n ≤ a → m.read a = s.mem.read a
  | 0, _, s, _, _, _ => ⟨s.mem, rfl, by simp, fun _ _ => rfl⟩
  | n + 1, o, s, ho, hroom, hwin => by
    obtain ⟨b, hb⟩ := Option.isSome_iff_exists.1 (hwin 0 hdist)
    rw [Nat.add_zero] at hb
    have hread : byteRead s (s.x.dstBase.toNat + o - dist) = .ok b := byteRead_of_read (by omega) hb
    have hwrite := dstWrite_of_le (s := s) (i := o) (bs := [b]) (by rw [List.length_singleton]; omega)
    rw [Memory.writeAll_one] at hwrite
    have hwin' (k : Nat) (hk : k < dist) :
        ((s.mem.write (s.x.dstBase.toNat + o) b).read (s.x.dstBase.toNat + (o + 1) - dist + k)).isSome = true := by
      by_cases hlast : k + 1 = dist
      · rw [show s.x.dstBase.toNat + (o + 1) - dist + k = s.x.dstBase.toNat + o by omega]
        simp
      · rw [Memory.read_write_other _ _ (by omega),
          show s.x.dstBase.toNat + (o + 1) - dist + k = s.x.dstBase.toNat + o - dist + (k + 1) by omega]
        exact hwin (k + 1) (by omega)
    obtain ⟨m, hrun, hrepeat, hframe⟩ := copyRun_of_window hdist n (o := o + 1)
      (s := { s with mem := s.mem.write (s.x.dstBase.toNat + o) b }) (by omega)
      (by show s.x.dstBase.toNat + (o + 1) + n ≤ s.platform.memBytes; omega) hwin'
    simp only at hrepeat hframe
    refine ⟨m, by simp only [copyRun, hread, hwrite, hrun], fun k hk => ?_, fun a ha => ?_⟩
    · cases k with
      | zero =>
        rw [Nat.add_zero, hframe _ (by omega), hframe _ (by omega), Memory.read_write_same,
          Memory.read_write_other _ _ (by omega), hb]
      | succ k =>
        rw [show s.x.dstBase.toNat + o + (k + 1) = s.x.dstBase.toNat + (o + 1) + k by omega]
        exact hrepeat k (by omega)
    · rw [hframe a (by omega), Memory.read_write_other _ _ (by omega)]

end Sys2Proof.Machine

namespace Sys2Proof.Proofs

open Sys2Proof.Machine

/-- Settles O28: with its control bit at hand the work step is the literal's. -/
theorem lzsLiteralStep : Obligations.LzsLiteralStep := by
  intro s stopv h bk pos b ht he hrem hstop hc hbit hlt hb hroom
  refine exec_work ht he (doneTest_lzsDec_false hrem hstop) ((lzsWork_of_control (s := s.pop) hc).trans ?_)
  rw [lzsItem, if_pos hbit, lzsLiteral_of_byteAt (s := s.pop) hrem hlt hb hroom, hstop]
  rfl

/-- Settles O29: the token's copy runs over a window that is written (`copyRun_of_window`). -/
theorem lzsCopyStep : Obligations.LzsCopyStep := by
  rintro s stopv h bk pos tok dist len ht he hm hstop rfl rfl hdist hlen hroom hwin
  rw [← tokenDist_eq] at hdist hwin ⊢
  rw [← tokenLen_eq] at hlen hroom ⊢
  obtain ⟨m, hrun, hrepeat, hframe⟩ :=
    copyRun_of_window (tokenDist_pos tok) (tokenLen tok) (s := s.pop) hdist hroom hwin
  refine ⟨m, exec_work ht he (doneTest_lzsDec_false hm.1 hm.2.1) ((lzsWork_of_meets (s := s.pop) hm).trans ?_), hrepeat,
    hframe⟩
  rw [lzsToken, if_neg (by simpa using hstop), if_neg (by simpa using hdist), if_neg (by omega), pop_outCnt, hrun]
  simp only [lzsAdvance_sub _ hlen, ofNat_toNat_add, hm.2.1]
  rfl

/-- Settles O30: the sentinel is consumed with `stop` set, which makes the next step the completing one. -/
theorem lzsStopStep : Obligations.LzsStopStep := by
  refine ⟨fun s h bk pos tok ht he hm hstop => ?_, lzsStop_default⟩
  refine ⟨_, exec_work ht he (doneTest_lzsDec_false hm.1 hm.2.1) ((lzsWork_of_meets (s := s.pop) hm).trans ?_), rfl,
    fun ht' => ?_⟩
  · rw [lzsToken, if_pos (by simpa using hstop), lzsAdvance, BitVec.ofNat_toNat, BitVec.setWidth_eq]
    rfl
  · refine (exec_engine (op := .lzsDec true _) ht' rfl).trans ?_
    simp only [doneTest, Bool.or_true, engineStep_done]
    rfl

end Sys2Proof.Proofs
end

section
/-! Settles O39 and O40. A row whose pixels are all there has one packet at each pixel: where the row has a repeat or a
raw packet of R252 there, the model chooses it and emits its bytes. -/

namespace Sys2Proof.Machine

/-! ### The packet of a row that is there -/

section Row

variable {px : Nat → Except Fault Pixel} {row : Nat → Pixel} {w : Nat}

theorem sameCount_of_row (hpx : ∀ q, q < w → px q = .ok (row q)) {e : Pixel} : ∀ {n q k : Nat}, q + n ≤ w → k ≤ n →
    (∀ j, j < k → row (q + j) = e) → (k = n ∨ row (q + k) ≠ e) → sameCount px e q n = .ok k
  | 0, q, k, _, hk, _, _ => by
    obtain rfl : k = 0 := by omega
    rfl
  | n + 1, q, 0, hq, _, _, hend => by
    have hne : row q ≠ e := hend.resolve_left (by omega)
    simp only [sameCount, hpx q (by omega), if_neg hne]
  | n + 1, q, k + 1, hq, hk, hsame, hend => by
    have heq : row q = e := hsame 0 (by omega)
    have hrest := sameCount_of_row hpx (e := e) (n := n) (q := q + 1) (k := k) (by omega) (by omega)
      (fun j hj => by rw [Nat.add_assoc, Nat.add_comm 1]; exact hsame (j + 1) (by omega))
      (by rw [Nat.add_assoc, Nat.add_comm 1]; exact hend.imp_left (by omega))
    simp only [sameCount, hpx q (by omega), if_pos heq, hrest]

theorem rawMore_of_row (hpx : ∀ q, q < w → px q = .ok (row q)) : ∀ {n q k : Nat}, q + k ≤ w → k ≤ n →
    (∀ j, j < k → q + j + 1 < w → row (q + j) ≠ row (q + j + 1)) →
    (k = n ∨ q + k = w ∨ (q + k + 1 < w ∧ row (q + k) = row (q + k + 1))) → rawMore px w q n = .ok k
  | 0, q, k, _, hk, _, _ => by
    obtain rfl : k = 0 := by omega
    rfl
  | n + 1, q, 0, _, _, _, hend => by
    rw [rawMore]
    rcases hend with hend | hend | ⟨hlt, heq⟩
    · omega
    · rw [if_pos (by omega)]
    · rw [Nat.add_zero] at hlt heq
      simp only [if_neg (show ¬ w ≤ q by omega), if_neg (show ¬ w ≤ q + 1 by omega), hpx q (by omega), hpx (q + 1) hlt,
        if_pos heq]
  | n + 1, q, k + 1, hq, hk, hdiff, hend => by
    rw [rawMore, if_neg (by omega)]
    by_cases hlast : w ≤ q + 1
    · obtain rfl : k = 0 := by omega
      rw [if_pos hlast]
    · have hne : row q ≠ row (q + 1) := hdiff 0 (by omega) (by omega)
      have hshift (j : Nat) : q + 1 + j = q + (j + 1) := by omega
      have hrest := rawMore_of_row hpx (n := n) (q := q + 1) (k := k) (by omega) (by omega)
        (fun j hj hlt => by
          rw [hshift] at hlt ⊢
          exact hdiff (j + 1) (by omega) hlt)
        (by rw [hshift]; exact hend.imp_left (by omega))
      simp only [if_neg hlast, hpx q (by omega), hpx (q + 1) (by omega), if_neg hne, hrest]

/-- The swap of the model is the swap of R251 on the pixels the encoder takes. -/
theorem swapPixel_eq_swap {p : Pixel} (h : p.length ≤ 4) : swapPixel p = Reference.swap p := by
  match p, h with
  | [], _ => rfl
  | [_], _ => rfl
  | [_, _], _ => rfl
  | [_, _, _], _ => rfl
  | [_, _, _, _], _ => rfl

theorem rawBytes_of_row (hpx : ∀ q, q < w → px q = .ok (row q)) (hlen : ∀ q, q < w → (row q).length ≤ 4) :
    ∀ {n q : Nat}, q + n ≤ w →
      rawBytes px q n = .ok ((List.range n).map fun j => Reference.swap (row (q + j))).flatten
  | 0, _, _ => rfl
  | n + 1, q, hq => by
    have hrest := rawBytes_of_row hpx hlen (n := n) (q := q + 1) (by omega)
    simp only [rawBytes, hpx q (by omega), hrest, swapPixel_eq_swap (hlen q (by omega))]
    simp [List.range_succ_eq_map, Function.comp_def, Nat.add_assoc, Nat.add_comm 1]

/-- The packet of R252 at pixel `p`, of either kind. -/
def IsPacket (row : Nat → Pixel) (w p n : Nat) (bs : List Byte) : Prop :=
  Reference.RepeatPacket row w p n bs ∨ Reference.RawPacket row w p n bs

theorem runCount_of_row (hpx : ∀ q, q < w → px q = .ok (row q)) {p n : Nat} (hn : 1 ≤ n) (h128 : n ≤ 128)
    (hp : p + n ≤ w) (hsame : ∀ q, p ≤ q → q < p + n → row q = row p)
    (hend : n = 128 ∨ p + n = w ∨ row (p + n) ≠ row p) : runCount px w p = .ok n := by
  obtain ⟨k, rfl⟩ : ∃ k, n = k + 1 := ⟨n - 1, by omega⟩
  have hshift (j : Nat) : p + 1 + j = p + (j + 1) := by omega
  have hcount : sameCount px (row p) (p + 1) (min 128 (w - p) - 1) = .ok k := by
    refine sameCount_of_row hpx (by omega) (by omega) (fun j hj => hsame _ (by omega) (by omega)) ?_
    rw [hshift]
    exact (or_assoc.2 hend).imp_left (by omega)
  simp only [runCount, hpx p (by omega), hcount]

/-- The model chooses the packet that the row has at pixel `p`, and emits its bytes (R252, R255). -/
theorem choosePacket_of_row (hpx : ∀ q, q < w → px q = .ok (row q)) {bpp p n : Nat} {bs : List Byte}
    (hbpp : bpp ≤ 4) (hlen : ∀ q e, px q = .ok e → e.length = bpp) (h : IsPacket row w p n bs) :
    choosePacket px bpp w p = .ok { count := n, size := bs.length, bytes := .ok bs } := by
  have hlen4 (q : Nat) (hq : q < w) : (row q).length ≤ 4 := (hlen q _ (hpx q hq)).trans_le hbpp
  rcases h with ⟨h2, h128, hp, hsame, hend, rfl⟩ | ⟨h1, h128, hp, hdiff, hend, rfl⟩
  · have hrun := runCount_of_row hpx (by omega) h128 hp hsame hend
    have hpix : p < w := by omega
    simp only [choosePacket, hrun, if_pos h2, repeatPacket, hpx p hpix, swapPixel_eq_swap (hlen4 p hpix)]
    rw [← swapPixel_eq_swap (hlen4 p hpix), List.length_cons, swapPixel_length, hlen p _ (hpx p hpix), Nat.add_comm]
  · obtain ⟨k, rfl⟩ : ∃ k, n = k + 1 := ⟨n - 1, by omega⟩
    have hrun : runCount px w p = .ok 1 := by
      refine runCount_of_row hpx (Nat.le_refl 1) (by decide) (by omega) (fun q hlo hhi => ?_) ?_
      · rw [show q = p by omega]
      · by_cases hlast : p + 1 < w
        · exact .inr (.inr (hdiff p (Nat.le_refl p) (by omega) hlast).symm)
        · exact .inr (.inl (by omega))
    have hshift (j : Nat) : p + 1 + j = p + (j + 1) := by omega
    have hmore : rawMore px w (p + 1) 127 = .ok k := by
      refine rawMore_of_row hpx (by omega) (by omega) (fun j hj => hdiff _ (by omega) (by omega)) ?_
      rw [hshift]
      exact hend.imp_left (by omega)
    have hbytes := rawBytes_of_row hpx hlen4 hp
    simp only [choosePacket, hrun, hmore, rawPacket, hbytes, Nat.add_sub_cancel, if_neg (show ¬ 2 ≤ 1 by decide),
      List.length_cons, rawBytes_length hlen hbytes, Nat.add_comm 1]

end Row

/-! ### The work step -/

/-- The encoder takes pixels of 1 to 4 bytes (R91, R250). -/
theorem rleBpp_bounds {bpp : BitVec 3} (h : rleBpps.contains bpp = true) : 1 ≤ bpp.toNat ∧ bpp.toNat ≤ 4 := by
  have hall : ∀ b ∈ rleBpps, 1 ≤ b.toNat ∧ b.toNat ≤ 4 := by decide
  exact hall bpp (List.contains_iff_mem.1 h)

/-- The operation in progress is a legal command (R134). -/
theorem wf_of_launchCheck {i : Instr} {s : State} (h : launchCheck i s = none) : i.wf = true := by
  have hlegal := (launchCheck_none.1 h).1
  simpa [legalCheck] using hlegal

/-- Row `y` of an image that is there is read pixel by pixel (R250). -/
theorem rowPixel_of_image {s : State} {bpp y q rows : Nat} {px : Nat → Nat → Pixel}
    (hregion : s.x.srcBase.toNat + s.x.srcLen.toNat ≤ s.platform.memBytes)
    (hbytes : rows * s.x.width.toNat * bpp ≤ s.x.srcLen.toNat)
    (himg : HoldsImage s.mem s.x.srcBase.toNat (s.x.width.toNat * bpp) bpp s.x.width.toNat rows px) (hy : y < rows)
    (hq : q < s.x.width.toNat) : rowPixel s bpp y q = .ok (px q y) := by
  obtain ⟨hlen, hholds⟩ := himg y hy q hq
  have hpos : (y * s.x.width.toNat + q) * bpp = y * (s.x.width.toNat * bpp) + q * bpp := by ring
  have hend : (y * s.x.width.toNat + q) * bpp + bpp ≤ rows * s.x.width.toNat * bpp :=
    calc (y * s.x.width.toNat + q) * bpp + bpp = (y * s.x.width.toNat + q + 1) * bpp := (Nat.succ_mul _ _).symm
      _ ≤ rows * s.x.width.toNat * bpp := Nat.mul_le_mul_right bpp (cursor_lt hy hq)
  have hread := memRead_of_holds (s := s) hholds (by omega)
  rwa [hlen, Nat.add_assoc, ← hpos] at hread

/-- After a packet of `n` pixels the cursor lies `n` pixels on (R45, R252). -/
theorem rleNext_cursor_eq {w n : Nat} (g : RleState) :
    rleNextRow w g n * w + rleNextP w g n = g.row.toNat * w + g.p.toNat + n := by
  unfold rleNextRow rleNextP
  split
  · rw [Nat.succ_mul]
    omega
  · omega

/-- The hidden state after a packet, in words (R252). -/
theorem RleState.advance_eq (g : RleState) (w : Nat) (k : Packet) : g.advance w k =
    { row := if g.p.toNat + k.count = w then g.row + 1 else g.row
      p := if g.p.toNat + k.count = w then 0 else g.p + BitVec.ofNat 16 k.count
      outpos := BitVec.ofNat 32 (g.outpos.toNat + k.size) } := by
  unfold RleState.advance rleNextRow rleNextP
  split <;> simp [ofNat_toNat_add]

/-- The state after `n` pixels of the row were emitted as the packet `bs` (R252). -/
def afterPacket (bpp n : Nat) (bs : List Byte) (next : RleState → Operation) (g : RleState) (s : State) : State :=
  { s with
    mem := s.mem.writeAll (s.x.dstBase.toNat + g.outpos.toNat) bs
    srcPos := BitVec.ofNat 32 ((g.row.toNat * s.x.width.toNat + g.p.toNat + n) * bpp)
    outCnt := BitVec.ofNat 32 (g.outpos.toNat + bs.length)
    engine := some (next {
      row := if g.p.toNat + n = s.x.width.toNat then g.row + 1 else g.row
      p := if g.p.toNat + n = s.x.width.toNat then 0 else g.p + BitVec.ofNat 16 n
      outpos := BitVec.ofNat 32 (g.outpos.toNat + bs.length) }) }

/-- An RLE step emits the packet that its row has at its pixel, whole, or faults where it does not fit (R252). -/
theorem rleWork_of_row {s : State} {bpp y n : Nat} {next : RleState → Operation} {g : RleState} {row : Nat → Pixel}
    {bs : List Byte} (hregion : s.x.dstBase.toNat + s.x.dstCap.toNat ≤ s.platform.memBytes) (hbpp : bpp ≤ 4)
    (hpx : ∀ q, q < s.x.width.toNat → rowPixel s bpp y q = .ok (row q))
    (h : IsPacket row s.x.width.toNat g.p.toNat n bs) :
    (g.outpos.toNat + bs.length ≤ s.x.dstCap.toNat →
      rleWork bpp y next g s = .ok (.to (afterPacket bpp n bs next g s))) ∧
    (s.x.dstCap.toNat < g.outpos.toNat + bs.length →
      rleWork bpp y next g s = .ok (.raise .dstOverrun (g.outpos.toNat + bs.length))) := by
  have hchoose := choosePacket_of_row hpx hbpp (fun _ _ => rowPixel_length) h
  refine ⟨fun hfits => ?_, fun hover => ?_⟩
  · have hwrite := dstWrite_of_le (s := s) (i := g.outpos.toNat) (bs := bs) (by omega)
    simp only [rleWork, hchoose, if_neg (Nat.not_lt.2 hfits), hwrite, rleNext, rleNext_cursor_eq, RleState.advance_eq]
    rfl
  · simp only [rleWork, hchoose, if_pos hover]

/-- While its done condition does not hold, the engine's turn takes the fault of the operation's work step (R305). -/
theorem exec_raise {s : State} {op : Operation} {c : Cause} {info : Nat} (ht : s.hostTurn = false)
    (he : s.engine = some op) (hdone : doneTest s.pop op = false) (hw : workStep s.pop op = .ok (.raise c info)) :
    exec op.instr s = .next (faultEntry c info s) := by
  rw [exec_engine ht he, hdone, engineStep_raise hw]
  rfl

/-- What the two RLE commands share: an operation `next g` of `rows` rows whose work step is that of row `y`. -/
structure RleOp (s : State) (bpp : BitVec 3) (next : RleState → Operation) (g : RleState) (rows y : Nat) : Prop where
  usesDst : usesDst (next g).instr = true
  wf : (next g).instr.wf = rleBpps.contains bpp
  needSrc : needSrc s.x (next g).instr = some (rows * s.x.width.toNat * bpp.toNat)
  row_lt : y < rows
  working : doneTest s.pop (next g) = false
  work : workStep s.pop (next g) = rleWork bpp.toNat y next g s.pop

/-- The engine's turn on an RLE operation whose image is there (R252). -/
theorem exec_rle {s : State} {bpp : BitVec 3} {next : RleState → Operation} {g : RleState} {rows y n : Nat}
    {px : Nat → Nat → Pixel} {bs : List Byte} (hop : RleOp s bpp next g rows y) (hi : invariant s = true)
    (ht : s.hostTurn = false) (he : s.engine = some (next g))
    (himg : HoldsImage s.mem s.x.srcBase.toNat (s.x.width.toNat * bpp.toNat) bpp.toNat s.x.width.toNat rows px)
    (h : IsPacket (fun q => px q y) s.x.width.toNat g.p.toNat n bs) :
    (g.outpos.toNat + bs.length ≤ s.x.dstCap.toNat →
      exec (next g).instr s = .next (afterPacket bpp.toNat n bs next g s.pop)) ∧
    (s.x.dstCap.toNat < g.outpos.toNat + bs.length →
      exec (next g).instr s = .next (faultEntry .dstOverrun (g.outpos.toNat + bs.length) s)) := by
  have hl := invariant_launchCheck hi he
  obtain ⟨hfits, hover⟩ := rleWork_of_row (s := s.pop) (next := next) (dstRegion_le hi he hop.usesDst).1
    (rleBpp_bounds (hop.wf ▸ wf_of_launchCheck hl)).2
    (fun q hq => rowPixel_of_image (s := s.pop) (srcRegion_le hi he) (needSrc_le hl hop.needSrc) himg hop.row_lt hq) h
  exact ⟨fun hlen => exec_work ht he hop.working (hop.work.trans (hfits hlen)),
    fun hlen => exec_raise ht he hop.working (hop.work.trans (hover hlen))⟩

theorem rleOp_line {s : State} {bpp : BitVec 3} {g : RleState} (hw : s.x.width ≠ 0#16) (hrow : g.row = 0#16) :
    RleOp s bpp (.rleLine bpp) g 1 0 where
  usesDst := rfl
  wf := rfl
  needSrc := by rw [Nat.one_mul]; rfl
  row_lt := Nat.one_pos
  working := by simpa [doneTest, rleDone, hrow, BitVec.toNat_eq] using hw
  work := rfl

theorem rleOp_img {s : State} {bpp : BitVec 3} {topdown : Bool} {g : RleState} (hw : s.x.width ≠ 0#16)
    (hrow : g.row.toNat < s.x.height.toNat) :
    RleOp s bpp (.rleImg bpp topdown) g s.x.height.toNat (imgRow topdown s.x.height.toNat g.row.toNat) where
  usesDst := rfl
  wf := rfl
  needSrc := by rw [Nat.mul_comm s.x.height.toNat]; rfl
  row_lt := imgRow_lt topdown hrow
  working := by
    have hw : s.x.width.toNat ≠ 0 := by simpa [BitVec.toNat_eq] using hw
    simp [doneTest, rleDone, hw, hrow.ne]
  work := rfl

end Sys2Proof.Machine

namespace Sys2Proof.Proofs

open Sys2Proof.Machine

/-- Settles O39: RLE.LINE is an RLE operation of one row, row 0. -/
theorem rleLineWorkStep : Obligations.RleLineWorkStep := by
  intro s bpp h px n bs hi ht he hw hrow himg hpacket
  obtain ⟨hfits, hover⟩ := exec_rle (rleOp_line hw hrow) hi ht he himg hpacket
  refine ⟨fun hlen => (hfits hlen).trans ?_, hover⟩
  rw [afterPacket, hrow, BitVec.toNat_zero, Nat.zero_mul, Nat.zero_add]
  rfl

/-- Settles O40: RLE.IMG is an RLE operation of HEIGHT rows; in a state of the invariant a row other than HEIGHT is
one that is left. -/
theorem rleImageWorkStep : Obligations.RleImageWorkStep := by
  rintro s bpp topdown h px y n bs hi ht he hw hrow rfl himg hpacket
  have hlt : h.row.toNat < s.x.height.toNat := by
    obtain ⟨-, -, -, hle, -⟩ := rleOk_iff.1 (invariant_operation hi he).1
    exact lt_of_le_of_ne hle fun heq => hrow (BitVec.eq_of_toNat_eq heq)
  exact exec_rle (rleOp_img hw hlt) hi ht he himg hpacket

end Sys2Proof.Proofs
end

section
/-! Runs of an operation that the host leaves alone: how one engine step leads to the next (R140). O56, O57, O58 and O60
are inductions over such runs. -/

namespace Sys2Proof.Machine

/-! ### Runs -/

/-- From `s` the machine comes to `t` in `n` steps. -/
def Runs (n : Nat) (s t : State) : Prop := Host.Core.run Sys2Proof.core n s = .next t

theorem Runs.zero (s : State) : Runs 0 s s := rfl

theorem Runs.step {n : Nat} {s t u : State} (h : step s = .next t) (hr : Runs n t u) : Runs (n + 1) s u :=
  (run_of_next n h).trans hr

theorem Runs.one {s t : State} (h : Machine.step s = .next t) : Runs 1 s t := .step h (.zero t)

theorem Runs.trans {n : Nat} : ∀ {m : Nat} {s t u : State}, Runs m s t → Runs n t u → Runs (m + n) s u
  | 0, _, _, _, h, hr => by
    cases h
    rwa [Nat.zero_add]
  | m + 1, s, t, u, h, hr => by
    rw [Nat.succ_add]
    cases hs : Machine.step s with
    | next v => exact .step hs (Runs.trans (m := m) ((run_of_next m hs).symm.trans h) hr)
    | fault f => exact absurd ((run_of_fault m hs).symm.trans h) (by simp)
    | refused r =>
      have hcore : Sys2Proof.core.step s = .refused r := hs
      simp [Runs, Host.Core.run, hcore] at h

/-! ### An operation left alone -/

/-- Operation `op` is in progress in a state of the invariant, and the host does nothing more. -/
structure Alone (s : State) (op : Operation) : Prop where
  inv : invariant s = true
  inbox : s.inbox = []
  engine : s.engine = some op

theorem Alone.hostTurn {s : State} {op : Operation} (h : Alone s op) : s.hostTurn = false := by
  simp [State.hostTurn, h.inbox]

theorem Alone.pop {s : State} {op : Operation} (h : Alone s op) : s.pop = s := by
  rw [State.pop, h.inbox, List.tail_nil, ← h.inbox]

theorem Alone.progress {s : State} {op : Operation} (h : Alone s op) : progressOk s op = true :=
  (invariant_operation h.inv h.engine).1

/-- One work step leads to the operation `op'` left alone, and the source region is as it was. -/
structure WorksTo (s t : State) (op' : Operation) : Prop where
  step : step s = .next t
  alone : Alone t op'
  source : ∀ a, s.x.inSrc a = true → t.mem.read a = s.mem.read a

/-- An engine step that leaves an operation in progress, with the inbox empty, is a work step (R140, R64). -/
theorem Alone.worksTo {s t : State} {op op' : Operation} (h : Alone s op) (hx : exec op.instr s = .next t)
    (hin : t.inbox = s.inbox.tail) (he : t.engine = some op') : WorksTo s t op' := by
  have hstep : step s = .next t := (step_of_inbox_nil h.inbox h.engine).trans hx
  refine ⟨hstep, ⟨Proofs.stepKeepsInvariant s t h.inv hstep, by simp [hin, h.inbox], he⟩, fun a ha => ?_⟩
  refine (Proofs.engineStaysInRegions s op h.inv h.hostTurn h.engine).1 t hx a ?_
  cases hu : usesDst op.instr with
  | false => rfl
  | true => exact inDst_of_inSrc (dstRegion_le h.inv h.engine hu).2 ha

/-- The work step of an operation left alone, where it succeeds (R140). -/
theorem Alone.work {s t : State} {op op' : Operation} (h : Alone s op) (hd : doneTest s op = false)
    (hw : workStep s op = .ok (.to t)) (hin : t.inbox = s.inbox) (he : t.engine = some op') : WorksTo s t op' := by
  rw [← h.pop] at hd hw
  exact h.worksTo (exec_work h.hostTurn h.engine hd hw) (by simp [hin, h.inbox]) he

/-- Where its done condition holds, an operation left alone completes (R142). -/
theorem Alone.completes {s : State} {op : Operation} (h : Alone s op) (hd : doneTest s op = true) :
    Runs 1 s { s with engine := none, done := true } := by
  refine .one ((step_of_inbox_nil h.inbox h.engine).trans ((exec_engine h.hostTurn h.engine).trans ?_))
  rw [h.pop, hd]
  rfl

/-- The source region holds the bytes `src`, from its base up (R12, R64). -/
def HoldsSource (s : State) (src : Nat → Byte) : Prop :=
  ∀ k, k < s.x.srcLen.toNat → s.mem.read (s.x.srcBase.toNat + k) = some (src k)

theorem HoldsSource.byteAt {s : State} {op : Operation} {src : Nat → Byte} (hs : HoldsSource s src) (h : Alone s op)
    {k : Nat} (hk : k < s.x.srcLen.toNat) : s.byteAt (s.x.srcBase.toNat + k) (src k) := by
  have := srcRegion_le h.inv h.engine
  exact ⟨by omega, hs k hk⟩

theorem HoldsSource.step {s t : State} {op' : Operation} {src : Nat → Byte} (hs : HoldsSource s src)
    (h : WorksTo s t op') (hx : t.x = s.x) : HoldsSource t src := by
  intro k hk
  rw [hx] at hk ⊢
  rw [h.source _ (inSrc_iff.2 ⟨by omega, by omega⟩)]
  exact hs k hk

end Sys2Proof.Machine
end

section
/-! Settles O56: HUF.EXP follows the walk of R163 bit by bit (`walk_runs`), and a codeword ends in one byte of output
(`expand_runs`). -/

namespace Sys2Proof.Machine

/-! ### One bit -/

/-- With its source byte at hand, a work step of HUF.EXP follows the entry that the stream bit selects (R102, R162). -/
theorem hufWork_of_byteAt {s : State} {g : HufState} {src : Nat → Byte} (hlt : g.bitcnt.toNat / 8 < s.x.srcLen.toNat)
    (hb : s.byteAt (s.x.srcBase.toNat + g.bitcnt.toNat / 8) (src (g.bitcnt.toNat / 8))) :
    hufWork g s = hufFollow g (followEntry s.tbl[g.node] (Reference.streamBit src g.bitcnt.toNat)) s := by
  rw [hufWork, if_neg (Nat.not_le.2 hlt), srcByte_of_byteAt hb]
  rfl

theorem HufState.advance_remaining (g : HufState) (node : Fin 255) (remaining : Word) :
    (g.advance node remaining).remaining = remaining := rfl

/-- The state after HUF.EXP's step from `g`, which moved to `node` (R162). -/
def hufMoved (g : HufState) (node : Fin 255) (s : State) : State :=
  { s with srcPos := g.nextSrcPos, engine := some (.hufExp (g.advance node g.remaining)) }

/-- The state after the codeword of literal `b` ended at bit `k`, with `remaining` bytes to produce before it
(R162). -/
def hufWritten (b : Byte) (k : Nat) (remaining : Word) (s : State) : State :=
  { s with
    mem := s.mem.write (s.x.dstBase.toNat + s.outCnt.toNat) b, outCnt := s.outCnt + 1
    srcPos := BitVec.ofNat 32 ((k + 7) / 8)
    engine := some (.hufExp { node := 254, bitcnt := BitVec.ofNat 35 k, remaining := remaining - 1 }) }

theorem hufFollow_node {g : HufState} {v : Half} {s : State} (hv : ¬ v.toNat < 256) (hn : v.toNat - 256 < 255) :
    hufFollow g v s = .ok (.to (hufMoved g ⟨v.toNat - 256, hn⟩ s)) := by
  rw [hufFollow, if_neg hv, dif_pos hn]
  rfl

theorem hufFollow_literal {g : HufState} {v : Half} {s : State} (hv : v.toNat < 256) (hrem : 0 < g.remaining.toNat)
    (hroom : s.x.dstBase.toNat + s.outCnt.toNat < s.platform.memBytes) :
    hufFollow g v s = .ok (.to (hufWritten (v.setWidth 8) (g.bitcnt.toNat + 1) g.remaining s)) := by
  have hw := dstWrite_of_le (s := s) (i := s.outCnt.toNat) (bs := [v.setWidth 8]) hroom
  rw [hufFollow, if_pos hv, hw, ofNat_toNat_sub _ (show 1 ≤ g.remaining.toNat from hrem), ofNat_toNat_add s.outCnt]
  rfl

/-! ### One codeword -/

/-- The output that HUF.EXP has still to produce fits its destination region (R138, R161). -/
theorem Alone.huf_room {s : State} {g : HufState} (h : Alone s (.hufExp g)) :
    s.outCnt.toNat + g.remaining.toNat = s.x.outLen.toNat ∧
      s.x.dstBase.toNat + (s.outCnt.toNat + g.remaining.toNat) ≤ s.platform.memBytes := by
  obtain ⟨hcnt, -, -⟩ := progressOk_hufExp.1 h.progress
  have hcap := needDst_le (invariant_launchCheck h.inv h.engine) rfl
  have hdst := (dstRegion_le h.inv h.engine rfl).1
  exact ⟨hcnt, by omega⟩

/-- A step of the walk, by the entry that its bit selects (R163). -/
theorem walk_succ (tbl : Vector Node 255) (src : Nat → Byte) (fuel : Nat) (node : Fin 255) (k : Nat) :
    Reference.walk tbl src (fuel + 1) node k =
      if (followEntry tbl[node] (Reference.streamBit src k)).toNat < 256 then
        some ((followEntry tbl[node] (Reference.streamBit src k)).setWidth 8, k + 1)
      else if hn : (followEntry tbl[node] (Reference.streamBit src k)).toNat - 256 < 255 then
        Reference.walk tbl src fuel ⟨_, hn⟩ (k + 1)
      else none := rfl

/-- A walk ends at the literal that its first bit selects, or goes on from the node that it selects (R163). -/
theorem walk_cases {tbl : Vector Node 255} {src : Nat → Byte} {fuel k k' : Nat} {node : Fin 255} {b : Byte} {v : Half}
    (hv : v = followEntry tbl[node] (Reference.streamBit src k))
    (h : Reference.walk tbl src (fuel + 1) node k = some (b, k')) :
    (v.toNat < 256 ∧ b = v.setWidth 8 ∧ k' = k + 1) ∨
      (¬ v.toNat < 256 ∧ ∃ hn : v.toNat - 256 < 255,
        Reference.walk tbl src fuel ⟨v.toNat - 256, hn⟩ (k + 1) = some (b, k')) := by
  rw [walk_succ] at h
  subst hv
  split_ifs at h with hlit hn
  · simp only [Option.some.injEq, Prod.mk.injEq] at h
    exact .inl ⟨hlit, h.1.symm, h.2.symm⟩
  · exact .inr ⟨hlit, hn, h⟩

/-- A codeword has at least one bit. -/
theorem walk_lt {tbl : Vector Node 255} {src : Nat → Byte} {b : Byte} {k' : Nat} : ∀ {fuel k : Nat} {node : Fin 255},
    Reference.walk tbl src fuel node k = some (b, k') → k < k'
  | 0, _, _, h => by cases h
  | fuel + 1, k, node, h => by
    rcases walk_cases rfl h with ⟨-, -, rfl⟩ | ⟨-, hn, hrest⟩
    · exact Nat.lt_succ_self k
    · exact (Nat.lt_succ_self k).trans (walk_lt hrest)

/-- HUF.EXP takes one step for each bit of a codeword, the last of which writes its literal (R103, R163). -/
theorem walk_runs {src : Nat → Byte} {b : Byte} {k' : Nat} {rem : Word} : ∀ {fuel : Nat} {s : State} {g : HufState},
    Alone s (.hufExp g) → HoldsSource s src → g.remaining = rem → 0 < rem.toNat → k' ≤ 8 * s.x.srcLen.toNat →
    Reference.walk s.tbl src fuel g.node g.bitcnt.toNat = some (b, k') →
    ∃ n, k' = g.bitcnt.toNat + n ∧ Runs n s (hufWritten b k' rem s) ∧
      Alone (hufWritten b k' rem s) (.hufExp ⟨254, BitVec.ofNat 35 k', rem - 1⟩) ∧
      HoldsSource (hufWritten b k' rem s) src
  | 0, _, _, _, _, _, _, _, hwalk => by cases hwalk
  | fuel + 1, s, g, h, hsrc, hg, hrem, hk', hwalk => by
    have hlt : g.bitcnt.toNat < k' := walk_lt hwalk
    have hbyte : g.bitcnt.toNat / 8 < s.x.srcLen.toNat := by omega
    have hdone : doneTest s (.hufExp g) = false := by
      simp only [doneTest, beq_eq_false_iff_ne, hg]
      omega
    have hwork := hufWork_of_byteAt hbyte (hsrc.byteAt h hbyte)
    rcases walk_cases rfl hwalk with ⟨hlit, rfl, rfl⟩ | ⟨hlit, hn, hrest⟩
    · obtain ⟨-, hroom⟩ := h.huf_room
      rw [hg] at hroom
      rw [hufFollow_literal hlit (hg ▸ hrem) (by omega), hg] at hwork
      have hto := h.work hdone hwork rfl rfl
      exact ⟨1, rfl, .one hto.step, hto.alone, hsrc.step hto rfl⟩
    · rw [hufFollow_node hlit hn] at hwork
      have hto := h.work hdone hwork rfl rfl
      have hbit : (g.advance ⟨_, hn⟩ g.remaining).bitcnt.toNat = g.bitcnt.toNat + 1 := by
        have := s.x.srcLen.isLt
        simp only [HufState.advance, BitVec.toNat_ofNat]
        omega
      rw [← hbit] at hrest
      obtain ⟨n, hn', hruns, halone, hsrc'⟩ :=
        walk_runs hto.alone (hsrc.step hto rfl) ((HufState.advance_remaining g _ _).trans hg) hrem hk' hrest
      exact ⟨n + 1, by omega, .step hto.step hruns, halone, hsrc'⟩

/-! ### The output -/

/-- Expansion of one byte more is a codeword and the expansion after it (R163). -/
theorem expand_succ {tbl : Vector Node 255} {src : Nat → Byte} {fuel n k k' : Nat} {bs : List Byte}
    (h : Reference.expand tbl src fuel (n + 1) k = some (bs, k')) :
    ∃ b k1 bs', Reference.walk tbl src fuel 254 k = some (b, k1) ∧
      Reference.expand tbl src fuel n k1 = some (bs', k') ∧ bs = b :: bs' := by
  simp only [Reference.expand] at h
  split at h
  · cases h
  · rename_i b k1 hwalk
    split at h
    · cases h
    · rename_i bs' k2 hrest
      simp only [Option.some.injEq, Prod.mk.injEq] at h
      obtain ⟨rfl, rfl⟩ := h
      exact ⟨b, k1, bs', hwalk, hrest, rfl⟩

theorem expand_le {tbl : Vector Node 255} {src : Nat → Byte} {fuel k' : Nat} : ∀ {n k : Nat} {bs : List Byte},
    Reference.expand tbl src fuel n k = some (bs, k') → k ≤ k'
  | 0, k, bs, h => by
    simp only [Reference.expand, Option.some.injEq, Prod.mk.injEq] at h
    exact h.2.le
  | n + 1, k, bs, h => by
    obtain ⟨b, k1, bs', hwalk, hrest, -⟩ := expand_succ h
    exact (walk_lt hwalk).le.trans (expand_le hrest)

/-- The state after HUF.EXP has written `bs` as the rest of its output, the last bit before bit `k` (R142, R163). -/
def hufFinished (bs : List Byte) (k : Nat) (s : State) : State :=
  { s with
    mem := s.mem.writeAll (s.x.dstBase.toNat + s.outCnt.toNat) bs, engine := none, done := true
    outCnt := s.x.outLen, srcPos := BitVec.ofNat 32 ((k + 7) / 8) }

/-- HUF.EXP expands what remains in one step for each bit and one more (R163). -/
theorem expand_runs {src : Nat → Byte} {fuel k' : Nat} : ∀ {n : Nat} {s : State} {g : HufState} {bs : List Byte},
    Alone s (.hufExp g) → HoldsSource s src → g.node = 254 → g.remaining.toNat = n → k' ≤ 8 * s.x.srcLen.toNat →
    Reference.expand s.tbl src fuel n g.bitcnt.toNat = some (bs, k') →
    ∃ j, k' = g.bitcnt.toNat + j ∧ Runs (j + 1) s (hufFinished bs k' s) ∧ bs.length = n
  | 0, s, g, bs, h, _, _, hrem, _, hexp => by
    simp only [Reference.expand, Option.some.injEq, Prod.mk.injEq] at hexp
    obtain ⟨rfl, rfl⟩ := hexp
    obtain ⟨hcnt, hsrcPos, -⟩ := progressOk_hufExp.1 h.progress
    have hout : s.outCnt = s.x.outLen := BitVec.eq_of_toNat_eq (by omega)
    have hpos : s.srcPos = BitVec.ofNat 32 ((g.bitcnt.toNat + 7) / 8) := by
      rw [← hsrcPos, BitVec.ofNat_toNat, BitVec.setWidth_eq]
    refine ⟨0, rfl, ?_, rfl⟩
    have hend := h.completes (by simp [doneTest, hrem])
    rw [hufFinished, ← hpos, ← hout]
    exact hend
  | n + 1, s, g, bs, h, hsrc, hnode, hrem, hk', hexp => by
    obtain ⟨b, k1, bs', hwalk, hrest, rfl⟩ := expand_succ hexp
    have hk1 : k1 ≤ k' := expand_le hrest
    obtain ⟨i, hi, hruns, halone, hsrc'⟩ := walk_runs h hsrc rfl (by omega) (hk1.trans hk') (hnode ▸ hwalk)
    have hlen := s.x.srcLen.isLt
    have hbit : (BitVec.ofNat 35 k1).toNat = k1 := by
      simp only [BitVec.toNat_ofNat]
      omega
    obtain ⟨hcnt, -⟩ := h.huf_room
    have hout := s.x.outLen.isLt
    have hrem' : (g.remaining - 1).toNat = n := by
      rw [BitVec.toNat_sub_of_le (by simp [BitVec.le_def]; omega), hrem]
      rfl
    obtain ⟨j, hj, hruns', hlen'⟩ := expand_runs (n := n) halone hsrc' rfl hrem' hk' (by simp only [hbit]; exact hrest)
    have hnext : (s.outCnt + 1).toNat = s.outCnt.toNat + 1 := by
      have hlt : s.outCnt.toNat + (1 : Word).toNat < 2 ^ 32 := by
        rw [show (1 : Word).toNat = 1 from rfl]
        omega
      exact BitVec.toNat_add_of_lt hlt
    refine ⟨i + j, by simp only [hbit] at hj; omega, ?_, by simp [hlen']⟩
    have hall := hruns.trans hruns'
    rw [hufFinished, hufWritten] at hall
    simp only [hnext, ← Nat.add_assoc] at hall
    exact hall

end Sys2Proof.Machine

namespace Sys2Proof.Proofs

open Sys2Proof.Machine

/-- Settles O56: the run of the expansion (`expand_runs`) from the launch values. -/
theorem hufExpandsReference : Obligations.HufExpandsReference := by
  intro s src fuel bs bits hi hin he hsrc hexp hbits
  have halone : Alone s _ := ⟨hi, hin, he⟩
  obtain ⟨hcnt, -⟩ := halone.huf_room
  have hout : s.outCnt.toNat = 0 := by simp only at hcnt; omega
  obtain ⟨j, hj, hruns, hlen⟩ := expand_runs halone hsrc rfl rfl hbits hexp
  obtain rfl : j = bits := by simpa using hj.symm
  refine ⟨_, hruns, rfl, ?_, hlen, ?_⟩
  · simp only [hufFinished, hout, Nat.add_zero]
    exact Memory.read_writeAll_inside bs s.mem _
  · simp only [hufFinished, hout, Nat.add_zero]
    exact Memory.read_writeAll_outside bs s.mem _

end Sys2Proof.Proofs
end

section
/-! Settles O57. One turn of the reference decoder that takes a token is one work step of LZS.DEC (`lzs_turn`), with the
bucket holding the control bits not yet used below its marker (`bitsValue`); the run is an induction on the bytes that
remain (`lzss_finishes`). -/

namespace Sys2Proof.Machine

/-! ### Control bits -/

/-- The control bits not yet used, as the bucket holds them: the first one lowest, the marker above the last (R181). -/
def bitsValue : List Bool → Nat
  | [] => 1
  | b :: bits => b.toNat + 2 * bitsValue bits

theorem bitsValue_pos : ∀ bits, 1 ≤ bitsValue bits
  | [] => Nat.le_refl 1
  | b :: bits => by
    have := bitsValue_pos bits
    rw [bitsValue]
    omega

/-- A control byte is eight control bits, the lowest first (R104). -/
theorem bitsValue_controlByte (ctl : Byte) :
    bitsValue ((List.range 8).map ctl.getLsbD) = ctl.toNat + 0x100 := by
  revert ctl
  decide

theorem bucket_head {bk : BitVec 9} {b : Bool} {bits : List Bool} (h : bk.toNat = bitsValue (b :: bits)) :
    bk.getLsbD 0 = b := by
  rw [BitVec.getLsbD, h, bitsValue, Nat.testBit_zero]
  cases b <;> simp

theorem bucket_tail {bk : BitVec 9} {b : Bool} {bits : List Bool} (h : bk.toNat = bitsValue (b :: bits)) :
    (bk >>> 1).toNat = bitsValue bits := by
  have := b.toNat_lt
  rw [BitVec.toNat_ushiftRight, h, bitsValue, Nat.shiftRight_eq_div_pow, pow_one]
  omega

/-! ### The reference decoder -/

section Decoder

variable {src : Nat → Byte} {n fuel pos pos' : Nat} {bits : List Bool} {out bs : List Byte}

/-- A turn of the reference decoder ends, refills its control bits, or takes a literal or a back-reference. -/
theorem lzss_cases (h : Reference.lzss src n (fuel + 1) bits pos out = some (bs, pos')) :
    (n ≤ out.length ∧ bs = out ∧ pos' = pos) ∨
      (out.length < n ∧ bits = [] ∧
        Reference.lzss src n fuel ((List.range 8).map (src pos).getLsbD) (pos + 1) out = some (bs, pos')) ∨
      (out.length < n ∧ ∃ rest, bits = true :: rest ∧
        Reference.lzss src n fuel rest (pos + 1) (out ++ [src pos]) = some (bs, pos')) ∨
      (out.length < n ∧ ∃ rest, bits = false :: rest ∧
        tokenDist (le16 (src pos) (src (pos + 1))) ≤ out.length ∧
        out.length + tokenLen (le16 (src pos) (src (pos + 1))) ≤ n ∧
        Reference.lzss src n fuel rest (pos + 2)
          (Reference.repeatBack (tokenDist (le16 (src pos) (src (pos + 1))))
            (tokenLen (le16 (src pos) (src (pos + 1)))) out) = some (bs, pos')) := by
  unfold Reference.lzss at h
  split at h
  · rename_i hend
    simp only [Option.some.injEq, Prod.mk.injEq] at h
    exact .inl ⟨hend, h.1.symm, h.2.symm⟩
  · rename_i hmore
    rw [not_le] at hmore
    split at h
    · exact .inr (.inl ⟨hmore, rfl, h⟩)
    · exact .inr (.inr (.inl ⟨hmore, _, rfl, h⟩))
    · dsimp only at h
      split at h
      · rename_i hfits
        rw [tokenDist_eq, tokenLen_eq, toNat_le16]
        exact .inr (.inr (.inr ⟨hmore, _, rfl, hfits.1, hfits.2, h⟩))
      · cases h

theorem lzss_pos_le : ∀ {fuel pos : Nat} {bits : List Bool} {out : List Byte},
    Reference.lzss src n fuel bits pos out = some (bs, pos') → pos ≤ pos'
  | 0, _, _, _, h => by cases h
  | fuel + 1, pos, bits, out, h => by
    rcases lzss_cases h with ⟨-, -, rfl⟩ | ⟨-, -, hrest⟩ | ⟨-, rest, -, hrest⟩ | ⟨-, rest, -, -, -, hrest⟩
    · exact Nat.le_refl pos'
    all_goals
      have := lzss_pos_le hrest
      omega

theorem length_repeatBack (dist : Nat) : ∀ (len : Nat) (out : List Byte),
    (Reference.repeatBack dist len out).length = out.length + len
  | 0, _ => rfl
  | len + 1, out => by
    rw [Reference.repeatBack, length_repeatBack dist len, List.length_append, List.length_singleton]
    omega

end Decoder

/-- Memory holds a list and one byte more. -/
theorem Memory.holds_append_one {m : Memory} {a : Nat} {bs : List Byte} {b : Byte} (h : m.holds a bs)
    (hb : m.read (a + bs.length) = some b) : m.holds a (bs ++ [b]) := by
  intro k hk
  by_cases hlast : k < bs.length
  · rw [List.getElem_append_left hlast]
    exact h k hlast
  · obtain rfl : k = bs.length := by
      rw [List.length_append, List.length_singleton] at hk
      omega
    simpa using hb

/-- Where each byte after the output is the byte `dist` places before it, memory holds the output with the run that
repeats it (R182). -/
theorem Memory.holds_repeatBack {m : Memory} {a dist : Nat} (hdist : 1 ≤ dist) : ∀ {len : Nat} {out : List Byte},
    dist ≤ out.length → m.holds a out →
    (∀ k, k < len → m.read (a + out.length + k) = m.read (a + out.length + k - dist)) →
    m.holds a (Reference.repeatBack dist len out)
  | 0, _, _, h, _ => h
  | len + 1, out, hle, h, hrun => by
    have hlt : out.length - dist < out.length := by omega
    have hbyte : m.read (a + out.length) = some (out.getD (out.length - dist) 0) := by
      have hread := hrun 0 (Nat.succ_pos len)
      rw [Nat.add_zero, Nat.add_sub_assoc hle, h _ hlt] at hread
      rw [hread, List.getD_eq_getElem _ _ hlt]
    rw [Reference.repeatBack]
    refine Memory.holds_repeatBack hdist ?_ (Memory.holds_append_one h hbyte) fun k hk => ?_
    · rw [List.length_append, List.length_singleton]
      omega
    · rw [List.length_append, List.length_singleton, show a + (out.length + 1) + k = a + out.length + (k + 1) by omega]
      exact hrun (k + 1) (by omega)

/-! ### One turn -/

/-- LZS.DEC, with STOPV clear and left alone, has produced `out`. -/
structure LzsAt (s : State) (g : LzsState) (out : List Byte) : Prop where
  alone : Alone s (.lzsDec false g)
  running : g.stop = false
  count : s.outCnt.toNat = out.length
  output : s.mem.holds s.x.dstBase.toNat out

theorem LzsAt.length_add {s : State} {g : LzsState} {out : List Byte} (h : LzsAt s g out) :
    out.length + g.remaining.toNat = s.x.outLen.toNat := by
  rw [← h.count]
  exact (progressOk_lzsDec.1 h.alone.progress).1

/-- The output that LZS.DEC has still to produce fits its destination region (R138, R180). -/
theorem LzsAt.room {s : State} {g : LzsState} {out : List Byte} (h : LzsAt s g out) :
    s.x.dstBase.toNat + s.x.outLen.toNat ≤ s.platform.memBytes := by
  have hcap := needDst_le (invariant_launchCheck h.alone.inv h.alone.engine) rfl
  have hdst := (dstRegion_le h.alone.inv h.alone.engine rfl).1
  omega

/-- The state after a token that led the output to `n` bytes and the source position to `pos` (R181). -/
def lzsMoved (m : Memory) (n pos : Nat) (g : LzsState) (s : State) : State :=
  { s with
    mem := m, outCnt := BitVec.ofNat 32 n, srcPos := BitVec.ofNat 32 pos, engine := some (.lzsDec false g) }

/-- LZS.DEC takes one token: the output grows to `out'`, and the source position moves to `pos`. -/
structure LzsTurn (s : State) (out : List Byte) (m : Memory) (g' : LzsState) (out' : List Byte) (pos : Nat) :
    Prop where
  step : step s = .next (lzsMoved m out'.length pos g' s)
  next : LzsAt (lzsMoved m out'.length pos g' s) g' out'
  pos_eq : g'.srcpos.toNat = pos
  longer : out.length < out'.length
  frame : ∀ a, a < s.x.dstBase.toNat ∨ s.x.dstBase.toNat + out'.length ≤ a → m.read a = s.mem.read a
  source : ∀ src, HoldsSource s src → HoldsSource (lzsMoved m out'.length pos g' s) src

theorem lzsTurn_of_exec {s : State} {g g' : LzsState} {out out' : List Byte} {m : Memory} {pos : Nat}
    (h : LzsAt s g out)
    (hx : exec (.lzsDec false) s = .next { lzsMoved m out'.length pos g' s with inbox := s.inbox.tail })
    (hstop : g'.stop = false) (hpos : g'.srcpos.toNat = pos) (hlonger : out.length < out'.length)
    (hle : out'.length ≤ s.x.outLen.toNat) (hholds : m.holds s.x.dstBase.toNat out')
    (hframe : ∀ a, a < s.x.dstBase.toNat ∨ s.x.dstBase.toNat + out'.length ≤ a → m.read a = s.mem.read a) :
    LzsTurn s out m g' out' pos := by
  have hin : s.inbox.tail = s.inbox := by rw [h.alone.inbox, List.tail_nil]
  rw [hin] at hx
  have hto : WorksTo s (lzsMoved m out'.length pos g' s) (.lzsDec false g') := h.alone.worksTo hx hin.symm rfl
  have hcount : (BitVec.ofNat 32 out'.length).toNat = out'.length := by
    have := s.x.outLen.isLt
    rw [BitVec.toNat_ofNat]
    omega
  exact {
    step := hto.step
    next := ⟨hto.alone, hstop, hcount, hholds⟩
    pos_eq := hpos
    longer := hlonger
    frame := hframe
    source := fun _ hsrc => hsrc.step hto rfl }

/-- A literal's turn (R181). -/
theorem lzs_turn_literal {s : State} {g : LzsState} {out : List Byte} {src : Nat → Byte} {bk : BitVec 9} {pos : Nat}
    (h : LzsAt s g out) (hsrc : HoldsSource s src) (hrem : 0 < g.remaining.toNat) (hc : LzsControl s g bk pos)
    (hbit : bk.getLsbD 0 = true) (hpos : pos < s.x.srcLen.toNat) :
    ∃ m g', LzsTurn s out m g' (out ++ [src pos]) (pos + 1) ∧ g'.bucket = bk >>> 1 := by
  have hsum := h.length_add
  have hroom := h.room
  have hlen := s.x.srcLen.isLt
  have hx := Proofs.lzsLiteralStep s false g bk pos (src pos) h.alone.hostTurn h.alone.engine hrem h.running hc hbit
    hpos (hsrc.byteAt h.alone hpos) (by rw [h.count]; omega)
  have hcnt : s.outCnt + 1 = BitVec.ofNat 32 (out ++ [src pos]).length := by
    rw [List.length_append, List.length_singleton, ← h.count, ofNat_toNat_add]
    rfl
  rw [hcnt, h.count] at hx
  refine ⟨_, _, lzsTurn_of_exec h hx rfl ?_ ?_ ?_ ?_ fun a ha => ?_, rfl⟩
  · rw [BitVec.toNat_ofNat]
    omega
  · simp
  · rw [List.length_append, List.length_singleton]
    omega
  · refine Memory.holds_append_one (fun k hk => ?_) (Memory.read_write_same _ _ _)
    rw [Memory.read_write_other _ _ (by omega)]
    exact h.output k hk
  · rw [List.length_append, List.length_singleton] at ha
    exact Memory.read_write_other _ _ (by omega)

/-- A back-reference's turn (R181, R182). -/
theorem lzs_turn_copy {s : State} {g : LzsState} {out : List Byte} {src : Nat → Byte} {bk : BitVec 9} {pos : Nat}
    {tok : Half} (h : LzsAt s g out) (hsrc : HoldsSource s src) (hrem : 0 < g.remaining.toNat)
    (hc : LzsControl s g bk pos) (hbit : bk.getLsbD 0 = false) (hpos : pos + 1 < s.x.srcLen.toNat)
    (htok : tok = le16 (src pos) (src (pos + 1))) (hdist : tokenDist tok ≤ out.length)
    (hfits : out.length + tokenLen tok ≤ s.x.outLen.toNat) :
    ∃ m g', LzsTurn s out m g' (Reference.repeatBack (tokenDist tok) (tokenLen tok) out) (pos + 2) ∧
      g'.bucket = bk >>> 1 := by
  have hsum := h.length_add
  have hroom := h.room
  have hlen := s.x.srcLen.isLt
  have hgrow := length_repeatBack (tokenDist tok) (tokenLen tok) out
  have hmeets : LzsMeets s g bk pos tok :=
    ⟨hrem, h.running, hc, hbit, hpos, src pos, src (pos + 1), hsrc.byteAt h.alone (by omega),
      hsrc.byteAt h.alone (k := pos + 1) hpos, by rw [htok, toNat_le16]⟩
  obtain ⟨m, hx, hrepeat, hframe⟩ := Proofs.lzsCopyStep s false g bk pos tok _ _ h.alone.hostTurn h.alone.engine
    hmeets rfl rfl rfl (by rw [← tokenDist_eq, h.count]; exact hdist) (by rw [← tokenLen_eq]; omega)
    (by rw [← tokenLen_eq, h.count]; omega) fun k hk => by
      rw [← tokenDist_eq] at hk ⊢
      rw [h.count, show s.x.dstBase.toNat + out.length - tokenDist tok + k =
        s.x.dstBase.toNat + (out.length - tokenDist tok + k) by omega, h.output _ (by omega)]
      rfl
  rw [← tokenLen_eq] at hx hrepeat hframe
  rw [← tokenDist_eq] at hrepeat
  rw [h.count] at hrepeat hframe
  rw [← ofNat_toNat_add, h.count, ← hgrow] at hx
  refine ⟨m, _, lzsTurn_of_exec h hx rfl ?_ ?_ ?_ ?_ fun a ha => hframe a ?_, rfl⟩
  · rw [BitVec.toNat_ofNat]
    omega
  · have : 3 ≤ tokenLen tok := Nat.le_add_left 3 _
    omega
  · omega
  · refine Memory.holds_repeatBack (tokenDist_pos tok) hdist (fun k hk => ?_) hrepeat
    rw [hframe _ (by omega)]
    exact h.output k hk
  · omega

/-- A turn of the reference decoder that takes a token is one work step of LZS.DEC (R104, R181). -/
theorem lzs_turn {s : State} {g : LzsState} {out bs : List Byte} {src : Nat → Byte} {bk : BitVec 9}
    {pos pos' fuel : Nat} {b : Bool} {rest : List Bool} (h : LzsAt s g out) (hsrc : HoldsSource s src)
    (hrem : 0 < g.remaining.toNat)
    (hc : LzsControl s g bk pos) (hbk : bk.toNat = bitsValue (b :: rest)) (hpos' : pos' ≤ s.x.srcLen.toNat)
    (href : Reference.lzss src s.x.outLen.toNat (fuel + 1) (b :: rest) pos out = some (bs, pos')) :
    ∃ m g' out' pos1, LzsTurn s out m g' out' pos1 ∧ g'.bucket.toNat = bitsValue rest ∧
      Reference.lzss src s.x.outLen.toNat fuel rest pos1 out' = some (bs, pos') := by
  have hsum := h.length_add
  rcases lzss_cases href with ⟨hend, -⟩ | ⟨-, hbits, -⟩ | ⟨-, rest', hbits, hnext⟩ |
    ⟨-, rest', hbits, hdist, hfits, hnext⟩
  · omega
  · cases hbits
  · cases hbits
    have hle := lzss_pos_le hnext
    obtain ⟨m, g', hturn, hbucket⟩ := lzs_turn_literal h hsrc hrem hc (bucket_head hbk) (by omega)
    exact ⟨m, g', _, _, hturn, hbucket ▸ bucket_tail hbk, hnext⟩
  · cases hbits
    have hle := lzss_pos_le hnext
    obtain ⟨m, g', hturn, hbucket⟩ :=
      lzs_turn_copy h hsrc hrem hc (bucket_head hbk) (by omega) rfl hdist hfits
    exact ⟨m, g', _, _, hturn, hbucket ▸ bucket_tail hbk, hnext⟩

/-! ### The run -/

/-- Within `k` steps LZS.DEC completes with the output `bs` and the source consumed up to `pos'` (R142, R184). -/
def LzsFinishes (s : State) (bs : List Byte) (pos' k : Nat) : Prop :=
  ∃ n t, n ≤ k ∧ Runs n s t ∧
    t = { s with
      mem := t.mem, engine := none, done := true, outCnt := s.x.outLen, srcPos := BitVec.ofNat 32 pos' } ∧
    t.mem.holds s.x.dstBase.toNat bs ∧ bs.length = s.x.outLen.toNat ∧
    ∀ a, a < s.x.dstBase.toNat ∨ s.x.dstBase.toNat + bs.length ≤ a → t.mem.read a = s.mem.read a

theorem LzsFinishes.mono {s : State} {bs : List Byte} {pos' k k' : Nat} (h : LzsFinishes s bs pos' k) (hle : k ≤ k') :
    LzsFinishes s bs pos' k' := by
  obtain ⟨n, t, hn, hfin⟩ := h
  exact ⟨n, t, hn.trans hle, hfin⟩

/-- With nothing left to produce, LZS.DEC completes, as the reference decoder ends (R142). -/
theorem lzs_finishes_done {src : Nat → Byte} {bs : List Byte} {pos' : Nat} {s : State} {g : LzsState} {out : List Byte}
    {bits : List Bool} {fuel : Nat} (h : LzsAt s g out) (hrem : g.remaining.toNat = 0)
    (href : Reference.lzss src s.x.outLen.toNat fuel bits g.srcpos.toNat out = some (bs, pos')) :
    LzsFinishes s bs pos' (g.remaining.toNat + 1) := by
  have hsum := h.length_add
  obtain ⟨-, hsrcPos, -⟩ := progressOk_lzsDec.1 h.alone.progress
  cases fuel with
  | zero => cases href
  | succ fuel =>
    rcases lzss_cases href with ⟨-, rfl, rfl⟩ | ⟨hmore, -⟩ | ⟨hmore, -⟩ | ⟨hmore, -⟩
    · have hout : s.outCnt = s.x.outLen := BitVec.eq_of_toNat_eq (by rw [h.count]; omega)
      have hpos : s.srcPos = BitVec.ofNat 32 g.srcpos.toNat := by
        rw [hsrcPos, BitVec.ofNat_toNat, BitVec.setWidth_eq]
      refine ⟨1, _, by omega, h.alone.completes (by simp [doneTest, hrem]), ?_, h.output, by omega, fun _ _ => rfl⟩
      rw [← hout, ← hpos]
    all_goals omega

theorem LzsTurn.finishes {s : State} {out out' bs : List Byte} {m : Memory} {g' : LzsState} {pos pos' k : Nat}
    (h : LzsTurn s out m g' out' pos) (hend : LzsFinishes (lzsMoved m out'.length pos g' s) bs pos' k) :
    LzsFinishes s bs pos' (k + 1) := by
  obtain ⟨n, t, hn, hruns, ht, hholds, hlen, hframe⟩ := hend
  have hsum := h.next.length_add
  refine ⟨n + 1, t, Nat.succ_le_succ hn, .step h.step hruns, ht, hholds, hlen, fun a ha => ?_⟩
  refine (hframe a ha).trans (h.frame a ?_)
  have houtLen : bs.length = s.x.outLen.toNat := hlen
  have hsum : out'.length + g'.remaining.toNat = s.x.outLen.toNat := hsum
  omega

/-- While output remains, the reference decoder comes to a turn that takes a token, with the control bit that LZS.DEC
takes next: its own, or that of the control byte it refills from (R181). -/
theorem lzss_control {s : State} {g : LzsState} {out bs : List Byte} {src : Nat → Byte} {bits : List Bool}
    {pos' fuel : Nat} (h : LzsAt s g out) (hsrc : HoldsSource s src) (hrem : 0 < g.remaining.toNat)
    (hpos' : pos' ≤ s.x.srcLen.toNat) (hbucket : g.bucket.toNat = bitsValue bits)
    (href : Reference.lzss src s.x.outLen.toNat fuel bits g.srcpos.toNat out = some (bs, pos')) :
    ∃ bk pos b rest fuel', LzsControl s g bk pos ∧ bk.toNat = bitsValue (b :: rest) ∧
      Reference.lzss src s.x.outLen.toNat (fuel' + 1) (b :: rest) pos out = some (bs, pos') := by
  have hsum := h.length_add
  cases fuel with
  | zero => cases href
  | succ fuel =>
    cases bits with
    | nil =>
      rcases lzss_cases href with ⟨hend, -⟩ | ⟨-, -, hnext⟩ | ⟨-, rest, hbits, -⟩ | ⟨-, rest, hbits, -⟩
      · omega
      · have hle := lzss_pos_le hnext
        cases fuel with
        | zero => cases hnext
        | succ fuel =>
          refine ⟨1#1 ++ src g.srcpos.toNat, _, _, _, fuel, .inr ⟨BitVec.eq_of_toNat_eq hbucket, by omega, rfl, _,
            hsrc.byteAt h.alone (by omega), ?_⟩, ?_, hnext⟩
          · exact toNat_refill _
          · exact (toNat_refill _).trans (bitsValue_controlByte _).symm
      · cases hbits
      · cases hbits
    | cons b rest =>
      refine ⟨g.bucket, _, b, rest, fuel, .inl ⟨fun hempty => ?_, rfl, rfl⟩, hbucket, href⟩
      have := bitsValue_pos rest
      rw [hempty, bitsValue, BitVec.toNat_ofNat] at hbucket
      omega

/-- Left alone, LZS.DEC finishes as the reference decoder does, with at most one step for each byte that remains and
one more (R141, R184). -/
theorem lzss_finishes {src : Nat → Byte} {bs : List Byte} {pos' : Nat} {s : State} {g : LzsState} {out : List Byte}
    {bits : List Bool} {fuel : Nat} (h : LzsAt s g out) (hsrc : HoldsSource s src) (hpos' : pos' ≤ s.x.srcLen.toNat)
    (hbucket : g.bucket.toNat = bitsValue bits)
    (href : Reference.lzss src s.x.outLen.toNat fuel bits g.srcpos.toNat out = some (bs, pos')) :
    LzsFinishes s bs pos' (g.remaining.toNat + 1) := by
  induction hr : g.remaining.toNat using Nat.strong_induction_on generalizing s g out bits fuel with
  | _ r ih =>
    subst hr
    have hsum := h.length_add
    rcases Nat.eq_zero_or_pos g.remaining.toNat with hrem | hrem
    · exact lzs_finishes_done h hrem href
    · obtain ⟨bk, pos, b, rest, fuel', hc, hbk, hnext⟩ := lzss_control h hsrc hrem hpos' hbucket href
      obtain ⟨m, g', out', pos1, hturn, hbucket', hrest⟩ := lzs_turn h hsrc hrem hc hbk hpos' hnext
      have hsum' : out'.length + g'.remaining.toNat = s.x.outLen.toNat := hturn.next.length_add
      have hlonger := hturn.longer
      have hend := ih _ (by omega) hturn.next (hturn.source src hsrc) hpos' hbucket' (hturn.pos_eq ▸ hrest) rfl
      exact (hturn.finishes hend).mono (by omega)

end Sys2Proof.Machine

namespace Sys2Proof.Proofs

open Sys2Proof.Machine

/-- Settles O57: the run of the reference decoder (`lzss_finishes`) from the launch values. -/
theorem lzsExpandsReference : Obligations.LzsExpandsReference := by
  intro s src fuel bs pos hi hin he hsrc href hpos
  have halone : Alone s _ := ⟨hi, hin, he⟩
  obtain ⟨hcnt, -⟩ := progressOk_lzsDec.1 halone.progress
  have hout : s.outCnt.toNat = 0 := by simp only at hcnt; omega
  exact lzss_finishes (out := []) ⟨halone, rfl, hout, fun k hk => absurd hk (Nat.not_lt_zero k)⟩ hsrc hpos rfl href

end Sys2Proof.Proofs
end

section
/-! Settles O58. The deinterleaving map of R201 puts the source indices and the places of the picture in one to one
correspondence (`planeIndex`), so that each step of a conversion writes a pixel that no other step writes
(`conversion_runs`). -/

namespace Sys2Proof.Machine

/-! ### The deinterleaving map -/

/-- The source index of the pixel at column `x`, row `y` (R107). -/
def planeIndex (w h x y : Nat) : Nat := x % 4 * (w * h / 4) + y * (w / 4) + x / 4

section Planes

variable {w h : Nat}

/-- The pixels of one plane, four of which make a picture whose width is a multiple of 4. -/
theorem planeSize_eq (hw : w % 4 = 0) : w * h / 4 = w / 4 * h := by
  obtain ⟨v, rfl⟩ := Nat.dvd_of_mod_eq_zero hw
  rw [Nat.mul_assoc, Nat.mul_div_cancel_left _ (by decide), Nat.mul_div_cancel_left _ (by decide)]

/-- A source index lies in one of four planes. -/
theorem plane_lt (hw : w % 4 = 0) {i : Nat} (hi : i < w * h) : i / (w * h / 4) < 4 := by
  refine Nat.div_lt_of_lt_mul ?_
  calc i < w * h := hi
    _ = w / 4 * 4 * h := by rw [show w / 4 * 4 = w by omega]
    _ = w * h / 4 * 4 := by rw [planeSize_eq hw]; ring

theorem planeX_lt (hw : w % 4 = 0) {i : Nat} (hi : i < w * h) : planeX w h i < w := by
  have hpos : 0 < w := Nat.pos_of_mul_pos_right (Nat.zero_lt_of_lt hi)
  have hcol : i % (w / 4) < w / 4 := Nat.mod_lt _ (by omega)
  have hplane := plane_lt hw hi
  rw [planeX]
  omega

theorem planeY_lt {i : Nat} (hi : i < w * h) : planeY w h i < h :=
  Nat.mod_lt _ (Nat.pos_of_mul_pos_left (Nat.zero_lt_of_lt hi))

/-- A source index is the index of the place that it is put at (R107, R201). -/
theorem planeIndex_place (hw : w % 4 = 0) {i : Nat} (hi : i < w * h) :
    planeIndex w h (planeX w h i) (planeY w h i) = i := by
  have hplane : i / (w * h / 4) = i / (w / 4) / h := by rw [planeSize_eq hw, Nat.div_div_eq_div_mul]
  have hlt := plane_lt hw hi
  have hx4 : planeX w h i % 4 = i / (w * h / 4) := by
    rw [planeX, Nat.mul_add_mod_self_right, Nat.mod_eq_of_lt hlt]
  have hxd : planeX w h i / 4 = i % (w / 4) := by
    rw [planeX, Nat.mul_comm, Nat.mul_add_div (by decide), Nat.div_eq_of_lt hlt, Nat.add_zero]
  calc planeIndex w h (planeX w h i) (planeY w h i)
      = w / 4 * (h * (i / (w / 4) / h) + i / (w / 4) % h) + i % (w / 4) := by
        rw [planeIndex, hx4, hxd, hplane, planeSize_eq hw, planeY]; ring
    _ = i := by rw [Nat.div_add_mod, Nat.div_add_mod]

variable {x y : Nat}

theorem planeIndex_lt (hw : w % 4 = 0) (hx : x < w) (hy : y < h) : planeIndex w h x y < w * h := by
  have hplane : x % 4 < 4 := Nat.mod_lt _ (by decide)
  have hcol : x / 4 < w / 4 := by omega
  calc planeIndex w h x y < x % 4 * (w / 4 * h) + y * (w / 4) + w / 4 := by
        rw [planeIndex, planeSize_eq hw]; omega
    _ = x % 4 * (w / 4 * h) + (y + 1) * (w / 4) := by ring
    _ ≤ x % 4 * (w / 4 * h) + h * (w / 4) := Nat.add_le_add_left (Nat.mul_le_mul_right _ hy) _
    _ = (x % 4 + 1) * (w / 4 * h) := by ring
    _ ≤ 4 * (w / 4 * h) := Nat.mul_le_mul_right _ hplane
    _ = w / 4 * 4 * h := by ring
    _ = w * h := by rw [show w / 4 * 4 = w by omega]

/-- The column and the row of the index of a place (R107, R201). -/
theorem place_planeIndex (hw : w % 4 = 0) (hx : x < w) (hy : y < h) :
    planeX w h (planeIndex w h x y) = x ∧ planeY w h (planeIndex w h x y) = y := by
  have hv : 0 < w / 4 := by omega
  have hcol : x / 4 < w / 4 := by omega
  have hform : planeIndex w h x y = x / 4 + w / 4 * (y + h * (x % 4)) := by
    rw [planeIndex, planeSize_eq hw]; ring
  have hdiv : planeIndex w h x y / (w / 4) = y + h * (x % 4) := by
    rw [hform, Nat.add_mul_div_left _ _ hv, Nat.div_eq_of_lt hcol, Nat.zero_add]
  have hmod : planeIndex w h x y % (w / 4) = x / 4 := by
    rw [hform, Nat.add_mul_mod_self_left, Nat.mod_eq_of_lt hcol]
  have hplane : planeIndex w h x y / (w * h / 4) = x % 4 := by
    rw [planeSize_eq hw, ← Nat.div_div_eq_div_mul, hdiv, Nat.add_mul_div_left _ _ (by omega), Nat.div_eq_of_lt hy,
      Nat.zero_add]
  refine ⟨?_, ?_⟩
  · rw [planeX, hmod, hplane]
    omega
  · rw [planeY, hdiv, Nat.add_mul_mod_self_left, Nat.mod_eq_of_lt hy]

theorem planeOffset_planeIndex (hw : w % 4 = 0) (hx : x < w) (hy : y < h) (bpp : Nat) :
    planeOffset w h bpp (planeIndex w h x y) = (y * w + x) * bpp := by
  obtain ⟨hX, hY⟩ := place_planeIndex hw hx hy
  rw [planeOffset, hX, hY]

/-- Different source indices give pixels that share no byte (R77, R201). -/
theorem planeOffset_disjoint (hw : w % 4 = 0) {i j : Nat} (hi : i < w * h) (hj : j < w * h) (hne : i ≠ j) (bpp : Nat) :
    planeOffset w h bpp i + bpp ≤ planeOffset w h bpp j ∨ planeOffset w h bpp j + bpp ≤ planeOffset w h bpp i := by
  have hplace (k l : Nat) (hlt : k < l) : k * bpp + bpp ≤ l * bpp :=
    (Nat.succ_mul k bpp).symm.trans_le (Nat.mul_le_mul_right bpp hlt)
  have hrow (k : Nat) (hk : k < w * h) : (planeY w h k * w + planeX w h k) % w = planeX w h k ∧
      (planeY w h k * w + planeX w h k) / w = planeY w h k := by
    have hx := planeX_lt hw hk
    rw [Nat.mul_comm, Nat.mul_add_mod, Nat.mod_eq_of_lt hx, Nat.mul_add_div (by omega), Nat.div_eq_of_lt hx]
    exact ⟨rfl, Nat.add_zero _⟩
  rcases Nat.lt_trichotomy (planeY w h i * w + planeX w h i) (planeY w h j * w + planeX w h j) with hlt | heq | hlt
  · exact .inl (hplace _ _ hlt)
  · refine absurd ?_ hne
    obtain ⟨hxi, hyi⟩ := hrow i hi
    obtain ⟨hxj, hyj⟩ := hrow j hj
    have hx : planeX w h i = planeX w h j := by rw [← hxi, heq, hxj]
    have hy : planeY w h i = planeY w h j := by rw [← hyi, heq, hyj]
    rw [← planeIndex_place hw hi, ← planeIndex_place hw hj, hx, hy]
  · exact .inr (hplace _ _ hlt)

end Planes

/-! ### A conversion -/

/-- What BPC.RGB24 and BPC.RGB32 share: `next i` is the conversion before source index `i`, to pixels of `bpp` bytes
(R202, R203). -/
structure Conversion (pixel : Rgb → List Byte) (bpp : Nat) (next : Word → Operation) : Prop where
  length : ∀ c, (pixel c).length = bpp
  work : ∀ s i, workStep s (next i) = bpcWork pixel bpp next i s
  done : ∀ s i, doneTest s (next i) = (i.toNat == pixelCount s.x)
  usesDst : ∀ i, usesDst (next i).instr = true
  param : ∀ x i, paramCheck x (next i).instr = bpcParams x
  needSrc : ∀ x i, needSrc x (next i).instr = some (pixelCount x)
  needDst : ∀ x i, needDst x (next i).instr = some (pixelCount x * bpp)
  count : ∀ s i, progressOk s (next i) = true → s.outCnt.toNat = bpp * i.toNat

theorem conversion_rgb24 : Conversion rgb24Bytes 3 .bpcRgb24 :=
  ⟨fun _ => rfl, fun _ _ => rfl, fun _ _ => rfl, fun _ => rfl, fun _ _ => rfl, fun _ _ => rfl, fun _ _ => rfl,
    fun _ _ hp => (progressOk_bpcRgb24.1 hp).2.2⟩

theorem conversion_rgb32 : Conversion rgb32Bytes 4 .bpcRgb32 :=
  ⟨fun _ => rfl, fun _ _ => rfl, fun _ _ => rfl, fun _ => rfl, fun _ _ => rfl, fun _ _ => rfl, fun _ _ => rfl,
    fun _ _ hp => (progressOk_bpcRgb32.1 hp).2.2⟩

/-- The first `n` bytes of the source region are `src`. -/
def SourceStarts (s : State) (n : Nat) (src : Nat → Byte) : Prop :=
  ∀ k, k < n → s.mem.read (s.x.srcBase.toNat + k) = some (src k)

/-- The address of the pixel that source index `k` gives. -/
def pixelAddr (x : Operands) (bpp k : Nat) : Nat :=
  x.dstBase.toNat + planeOffset x.width.toNat x.height.toNat bpp k

/-- In `t` the pixels of the source indices from `i` on are converted, and the rest of memory is as in `s`. -/
structure Converted (pixel : Rgb → List Byte) (bpp i : Nat) (src : Nat → Byte) (s t : State) : Prop where
  idle : t.engine = none
  done : t.done = true
  count : t.outCnt.toNat = pixelCount s.x * bpp
  pixels : ∀ k, i ≤ k → k < pixelCount s.x → t.mem.holds (pixelAddr s.x bpp k) (pixel (palEntry s (src k)))
  frame : ∀ a, (∀ k, i ≤ k → k < pixelCount s.x → a < pixelAddr s.x bpp k ∨ pixelAddr s.x bpp k + bpp ≤ a) →
    t.mem.read a = s.mem.read a

section Run

variable {pixel : Rgb → List Byte} {bpp : Nat} {next : Word → Operation} {s : State} {i : Word} {src : Nat → Byte}

/-- The width of a picture whose conversion is in progress is a multiple of 4 (R136). -/
theorem Conversion.width_mod (hc : Conversion pixel bpp next) (h : Alone s (next i)) : s.x.width.toNat % 4 = 0 := by
  obtain ⟨-, -, hp, -, -⟩ := launchCheck_none.1 (invariant_launchCheck h.inv h.engine)
  rw [hc.param, bpcParams, firstFail_none] at hp
  have hwidth := hp _ List.mem_cons_self
  simp only [Bool.or_eq_false_iff, decide_eq_false_iff_not, not_not] at hwidth
  exact hwidth.2

/-- The state after the pixel of source index `i` is written (R202, R203). -/
def pixelWritten (pixel : Rgb → List Byte) (bpp : Nat) (next : Word → Operation) (i : Word) (c : Byte) (s : State) :
    State :=
  { s with
    mem := s.mem.writeAll (pixelAddr s.x bpp i.toNat) (pixel (palEntry s c))
    srcPos := i + 1, outCnt := BitVec.ofNat 32 bpp * (i + 1), engine := some (next (i + 1)) }

/-- A step of a conversion left alone writes its pixel (R202, R203). -/
theorem Conversion.worksTo (hc : Conversion pixel bpp next) (h : Alone s (next i)) (hi : i.toNat < pixelCount s.x)
    (hsrc : SourceStarts s (pixelCount s.x) src) :
    WorksTo s (pixelWritten pixel bpp next i (src i.toNat) s) (next (i + 1)) := by
  have hl := invariant_launchCheck h.inv h.engine
  have hsrcLen := needSrc_le hl (hc.needSrc s.x i)
  have hdstCap := needDst_le hl (hc.needDst s.x i)
  have hsrcRegion := srcRegion_le h.inv h.engine
  have hdstRegion := (dstRegion_le h.inv h.engine (hc.usesDst i)).1
  have hplace := planeOffset_le (bpp := bpp) (hc.width_mod h) hi
  rw [pixelCount] at hdstCap
  refine h.work ?_ ((hc.work s i).trans (bpcWork_of_byteAt ⟨by omega, hsrc _ hi⟩ ?_)) rfl rfl
  · rw [hc.done, beq_eq_false_iff_ne]
    exact hi.ne
  · rw [hc.length]
    omega

/-- A conversion left alone converts its remaining pixels, one a step, and completes (R142, R202, R203). -/
theorem conversion_runs (hc : Conversion pixel bpp next) {r : Nat} (h : Alone s (next i))
    (hr : i.toNat + r = pixelCount s.x) (hsrc : SourceStarts s (pixelCount s.x) src) :
    ∃ t, Runs (r + 1) s t ∧ Converted pixel bpp i.toNat src s t := by
  induction r generalizing s i with
  | zero =>
    refine ⟨_, h.completes (by rw [hc.done, beq_iff_eq]; exact hr), rfl, rfl, ?_, fun k hlo hhi => ?_, fun _ _ => rfl⟩
    · rw [hc.count s i h.progress, ← hr, Nat.add_zero, Nat.mul_comm]
    · omega
  | succ r ih =>
    have hi : i.toNat < pixelCount s.x := by omega
    have hto := hc.worksTo h hi hsrc
    have hsrcLen := needSrc_le (invariant_launchCheck h.inv h.engine) (hc.needSrc s.x i)
    have hnext : (i + 1).toNat = i.toNat + 1 := by
      rw [← toNat_nextPixel hi, ofNat_toNat_add]
      rfl
    obtain ⟨t, hruns, hconv⟩ := ih hto.alone (by rw [hnext, Nat.succ_add_eq_add_succ]; exact hr) fun k hk =>
      (hto.source _ (inSrc_iff.2 ⟨Nat.le_add_right _ _, Nat.add_lt_add_left (hk.trans_le hsrcLen) _⟩)).trans (hsrc k hk)
    have hwritten : (pixel (palEntry s (src i.toNat))).length = bpp := hc.length _
    refine ⟨t, .step hto.step hruns, hconv.idle, hconv.done, hconv.count, fun k hlo hhi => ?_, fun a ha => ?_⟩
    · rcases Nat.eq_or_lt_of_le hlo with rfl | hlt
      · intro j hj
        rw [hconv.frame _ fun k hlo' hhi' => ?_]
        · exact Memory.read_writeAll_inside _ s.mem _ j hj
        · have hdisj := planeOffset_disjoint (hc.width_mod h) hhi hhi' (by omega) bpp
          show pixelAddr s.x bpp i.toNat + j < pixelAddr s.x bpp k ∨
            pixelAddr s.x bpp k + bpp ≤ pixelAddr s.x bpp i.toNat + j
          simp only [pixelAddr]
          omega
      · exact hconv.pixels k (by omega) hhi
    · rw [hconv.frame a fun k hlo hhi => ha k (by omega) hhi]
      refine Memory.read_writeAll_outside _ s.mem _ a ?_
      rw [hwritten]
      exact ha i.toNat (Nat.le_refl _) hi

/-- A whole picture: the pixel of each place is that of its source index, and memory outside the picture is as it was
(R107, R202, R203). -/
theorem conversion_picture (hc : Conversion pixel bpp next) (h : Alone s (next 0))
    (hsrc : SourceStarts s (s.x.width.toNat * s.x.height.toNat) src) :
    ∃ t, Runs (s.x.width.toNat * s.x.height.toNat + 1) s t ∧ t.engine = none ∧ t.done = true ∧
      t.outCnt.toNat = s.x.width.toNat * s.x.height.toNat * bpp ∧
      (∀ x y c, x < s.x.width.toNat → y < s.x.height.toNat →
        c = src (planeIndex s.x.width.toNat s.x.height.toNat x y) →
        t.mem.holds (s.x.dstBase.toNat + (y * s.x.width.toNat + x) * bpp) (pixel (palEntry s c))) ∧
      ∀ a, a < s.x.dstBase.toNat ∨ s.x.dstBase.toNat + s.x.width.toNat * s.x.height.toNat * bpp ≤ a →
        t.mem.read a = s.mem.read a := by
  obtain ⟨t, hruns, hconv⟩ := conversion_runs hc h (Nat.zero_add _) hsrc
  have hw := hc.width_mod h
  refine ⟨t, hruns, hconv.idle, hconv.done, hconv.count, ?_, fun a ha => hconv.frame a fun k _ hk => ?_⟩
  · rintro x y c hx hy rfl
    rw [← planeOffset_planeIndex hw hx hy]
    exact hconv.pixels _ (Nat.zero_le _) (planeIndex_lt hw hx hy)
  · have := planeOffset_le (bpp := bpp) hw hk
    rw [pixelAddr]
    omega

end Run

end Sys2Proof.Machine

namespace Sys2Proof.Proofs

open Sys2Proof.Machine

/-- Settles O58: both conversions are a `Conversion`, with pixels of three bytes or four. -/
theorem planarPictureConverted : Obligations.PlanarPictureConverted := by
  rintro s src w h hi hin rfl rfl hsrc
  exact ⟨fun he => conversion_picture conversion_rgb24 ⟨hi, hin, he⟩ hsrc,
    fun he => conversion_picture conversion_rgb32 ⟨hi, hin, he⟩ hsrc⟩

end Sys2Proof.Proofs
end

section
/-! Settles O60. At each pixel of a row there is a packet (`exists_packet`); the reference reader takes it back to its
pixels (`unpack_packet`); and a region of the size of R257 has room for it and for the packets after it
(`packet_room`). The run of RLE.LINE is an induction on the pixels that remain (`line_finishes`). -/

namespace Sys2Proof.Machine

/-! ### Packets of a row -/

section Packets

variable {row : Nat → Pixel} {w p n bpp : Nat} {bs : List Byte}

/-- The first numbers below `n` that have a property, as far as it goes. -/
theorem exists_prefix (P : Nat → Prop) : ∀ n, ∃ k, k ≤ n ∧ (∀ j, j < k → P j) ∧ (k = n ∨ ¬ P k)
  | 0 => ⟨0, Nat.le_refl 0, fun _ hj => absurd hj (Nat.not_lt_zero _), .inl rfl⟩
  | n + 1 => by
    obtain ⟨k, hk, hall, hend⟩ := exists_prefix P n
    rcases hend with rfl | hend
    · by_cases hP : P k
      · exact ⟨k + 1, Nat.le_refl _, fun j hj => (Nat.lt_succ_iff_lt_or_eq.1 hj).elim (hall j) (· ▸ hP), .inl rfl⟩
      · exact ⟨k, Nat.le_succ k, hall, .inr hP⟩
    · exact ⟨k, Nat.le_succ_of_le hk, hall, .inr hend⟩

/-- A run of at least two equal pixels starts at pixel `p` (R252). -/
def RunStart (row : Nat → Pixel) (w p : Nat) : Prop := p + 1 < w ∧ row p = row (p + 1)

theorem exists_repeatPacket (h : RunStart row w p) : ∃ n bs, Reference.RepeatPacket row w p n bs := by
  obtain ⟨hlt, heq⟩ := h
  obtain ⟨n, hn, hsame, hend⟩ := exists_prefix (fun j => row (p + j) = row p) (min 128 (w - p))
  have h2 : 2 ≤ n := by
    by_contra hlow
    refine hend.elim (by omega) fun hne => hne ?_
    obtain rfl | rfl : n = 0 ∨ n = 1 := by omega
    · rfl
    · exact heq.symm
  refine ⟨n, _, h2, by omega, by omega, fun q hlo hhi => ?_, ?_, rfl⟩
  · have := hsame (q - p) (by omega)
    rwa [show p + (q - p) = q by omega] at this
  · exact or_assoc.1 (hend.imp_left (by omega))

theorem exists_rawPacket (hp : p < w) (h : ¬ RunStart row w p) : ∃ n bs, Reference.RawPacket row w p n bs := by
  obtain ⟨n, hn, hdiff, hend⟩ := exists_prefix (fun j => ¬ RunStart row w (p + j)) (min 128 (w - p))
  have h1 : 1 ≤ n := by
    by_contra hlow
    obtain rfl : n = 0 := by omega
    exact hend.elim (by omega) fun hne => hne h
  refine ⟨n, _, h1, by omega, by omega, fun q hlo hhi hq heq => ?_, ?_, rfl⟩
  · refine hdiff (q - p) (by omega) ?_
    rw [show p + (q - p) = q by omega]
    exact ⟨hq, heq⟩
  · exact or_assoc.1 (hend.imp (by omega) not_not.1)

/-- At each pixel of a row there is a packet (R252, R255). -/
theorem exists_packet (hp : p < w) : ∃ n bs, IsPacket row w p n bs := by
  by_cases h : RunStart row w p
  · obtain ⟨n, bs, hpacket⟩ := exists_repeatPacket h
    exact ⟨n, bs, .inl hpacket⟩
  · obtain ⟨n, bs, hpacket⟩ := exists_rawPacket hp h
    exact ⟨n, bs, .inr hpacket⟩

theorem IsPacket.bounds (h : IsPacket row w p n bs) : 1 ≤ n ∧ n ≤ 128 ∧ p + n ≤ w := by
  rcases h with ⟨h2, h128, hle, -⟩ | ⟨h1, h128, hle, -⟩ <;> omega

theorem length_swap {q : Pixel} (h : q.length ≤ 4) : (Reference.swap q).length = q.length := by
  rw [← swapPixel_eq_swap h, swapPixel_length]

/-- Pixels `p` to `p+n-1`, each swapped, as bytes in order (R114). -/
def swappedPixels (row : Nat → Pixel) (p n : Nat) : List Byte :=
  ((List.range n).map fun j => Reference.swap (row (p + j))).flatten

theorem swappedPixels_add (row : Nat → Pixel) (p n k : Nat) :
    swappedPixels row p (n + k) = swappedPixels row p n ++ swappedPixels row (p + n) k := by
  simp [swappedPixels, List.range_add, Function.comp_def, Nat.add_assoc]

theorem swappedPixels_zero (row : Nat → Pixel) (w : Nat) : swappedPixels row 0 w = Reference.swappedRow row w := by
  simp [swappedPixels, Reference.swappedRow]

theorem length_swappedPixels (hlen : ∀ q, q < w → (row q).length = bpp) (hbpp : bpp ≤ 4) :
    ∀ {n p : Nat}, p + n ≤ w → (swappedPixels row p n).length = n * bpp
  | 0, _, _ => by simp [swappedPixels]
  | n + 1, p, h => by
    have hpix := hlen (p + n) (by omega)
    have hone : (swappedPixels row (p + n) 1).length = bpp := by
      simp [swappedPixels, length_swap (hpix.trans_le hbpp), hpix]
    rw [swappedPixels_add, List.length_append, length_swappedPixels hlen hbpp (by omega), hone, Nat.succ_mul]

/-- Equal pixels, each swapped (R113). -/
theorem swappedPixels_same (hsame : ∀ q, p ≤ q → q < p + n → row q = row p) :
    swappedPixels row p n = (List.replicate n (Reference.swap (row p))).flatten := by
  have hmap : (List.range n).map (fun j => Reference.swap (row (p + j))) =
      List.replicate n (Reference.swap (row p)) := by
    refine List.eq_replicate_iff.2 ⟨by simp, fun b hb => ?_⟩
    obtain ⟨j, hj, rfl⟩ := List.mem_map.1 hb
    rw [hsame _ (Nat.le_add_right p j) (Nat.add_lt_add_left (List.mem_range.1 hj) p)]
  rw [swappedPixels, hmap]

/-! ### The reference reader -/

theorem testBit_header (n : Nat) (hn : n < 256) : (BitVec.ofNat 8 n).getLsbD 7 = decide (128 ≤ n) := by
  have hbit : n / 2 ^ 7 % 2 = 1 ↔ 128 ≤ n := by omega
  simp only [BitVec.getLsbD_ofNat, Nat.testBit_eq_decide_div_mod_eq, hbit, Nat.reduceLT, decide_true, Bool.true_and]

/-- The reference reader expands a packet to its pixels, each swapped, and goes on after it (R113, R114). -/
theorem unpack_packet {rest tail : List Byte} {fuel : Nat} (hlen : ∀ q, q < w → (row q).length = bpp) (hbpp : bpp ≤ 4)
    (h : IsPacket row w p n bs) (hrest : Reference.unpack bpp fuel rest = some tail) :
    Reference.unpack bpp (fuel + 1) (bs ++ rest) = some (swappedPixels row p n ++ tail) := by
  obtain ⟨h1, h128, hle⟩ := h.bounds
  rcases h with ⟨h2, -, -, hsame, -, rfl⟩ | ⟨-, -, -, -, -, rfl⟩
  · have hpix := hlen p (by omega)
    have hswap : (Reference.swap (row p)).length = bpp := (length_swap (hpix.trans_le hbpp)).trans hpix
    have hheader : (BitVec.ofNat 8 (127 + n)).toNat - 127 = n := by
      rw [BitVec.toNat_ofNat]
      omega
    have hbit : (BitVec.ofNat 8 (127 + n)).getLsbD 7 = true := by
      rw [testBit_header _ (by omega), decide_eq_true_eq]
      omega
    rw [List.cons_append, Reference.unpack, if_pos hbit, if_neg (by simp [hswap]), List.drop_left' hswap,
      List.take_left' hswap, hrest, hheader, swappedPixels_same hsame]
    rfl
  · have hswap : (swappedPixels row p n).length = n * bpp := length_swappedPixels hlen hbpp hle
    have hheader : (BitVec.ofNat 8 (n - 1)).toNat + 1 = n := by
      rw [BitVec.toNat_ofNat]
      omega
    have hbit : ¬ (BitVec.ofNat 8 (n - 1)).getLsbD 7 = true := by
      rw [testBit_header _ (by omega), decide_eq_true_eq]
      omega
    rw [← swappedPixels, List.cons_append, Reference.unpack, if_neg hbit, hheader, if_neg (by simp [hswap]),
      List.drop_left' hswap, List.take_left' hswap, hrest]
    rfl

/-! ### The size of the destination region -/

/-- `room` bytes are enough for the packets from pixel `p` on: one header for every three pixels at least, after a
single pixel the run that ended its packet (R257). -/
def RoomFor (row : Nat → Pixel) (w bpp p room : Nat) : Prop :=
  (w - p) * bpp + 2 * (w - p) / 3 ≤ room ∧
    (¬ RunStart row w p → (w - p) * bpp + (2 * (w - p) + 2) / 3 ≤ room)

theorem IsPacket.length_eq (hlen : ∀ q, q < w → (row q).length = bpp) (hbpp : bpp ≤ 4) (h : IsPacket row w p n bs) :
    (RunStart row w p ∧ 2 ≤ n ∧ bs.length = 1 + bpp) ∨
      (¬ RunStart row w p ∧ bs.length = 1 + n * bpp ∧ (n = 128 ∨ p + n = w ∨ RunStart row w (p + n))) := by
  obtain ⟨h1, -, hle⟩ := h.bounds
  rcases h with ⟨h2, -, -, hsame, -, rfl⟩ | ⟨-, -, -, hdiff, hend, rfl⟩
  · have hpix := hlen p (by omega)
    refine .inl ⟨⟨by omega, (hsame (p + 1) (by omega) (by omega)).symm⟩, h2, ?_⟩
    rw [List.length_cons, length_swap (hpix.trans_le hbpp), hpix, Nat.add_comm]
  · refine .inr ⟨fun hrun => hdiff p (Nat.le_refl p) (by omega) hrun.1 hrun.2, ?_, hend⟩
    rw [List.length_cons, ← swappedPixels, length_swappedPixels hlen hbpp hle, Nat.add_comm]

/-- A packet fits where there is room for it and for the packets after it, and leaves room for those (R257). -/
theorem packet_room {room : Nat} (hlen : ∀ q, q < w → (row q).length = bpp) (hbpp : 1 ≤ bpp ∧ bpp ≤ 4)
    (h : IsPacket row w p n bs) (hroom : RoomFor row w bpp p room) :
    bs.length ≤ room ∧ RoomFor row w bpp (p + n) (room - bs.length) := by
  obtain ⟨h1, -, hle⟩ := h.bounds
  obtain ⟨hany, hraw⟩ := hroom
  have hsplit : (w - p) * bpp = n * bpp + (w - (p + n)) * bpp := by
    rw [← Nat.add_mul]
    congr 1
    omega
  rcases h.length_eq hlen hbpp.2 with ⟨-, h2, hsize⟩ | ⟨hsingle, hsize, hend⟩
  · have hpair : 2 * bpp ≤ n * bpp := Nat.mul_le_mul_right bpp h2
    exact ⟨by omega, by omega, fun _ => by omega⟩
  · have hraw := hraw hsingle
    refine ⟨by omega, by omega, fun hnext => ?_⟩
    have hend : n = 128 ∨ p + n = w := (or_assoc.2 hend).resolve_right hnext
    omega

end Packets

/-! ### The run of RLE.LINE -/

/-- RLE.LINE has emitted the pixels before `p` of its row, the image is there, and there is room for the rest. -/
structure LineAt (s : State) (bpp : BitVec 3) (g : RleState) (px : Nat → Nat → Pixel) (p : Nat) : Prop where
  alone : Alone s (.rleLine bpp g)
  cursor : (p < s.x.width.toNat ∧ g.row = 0#16 ∧ g.p.toNat = p) ∨
    (p = s.x.width.toNat ∧ doneTest s (.rleLine bpp g) = true)
  image : HoldsImage s.mem s.x.srcBase.toNat (s.x.width.toNat * bpp.toNat) bpp.toNat s.x.width.toNat 1 px
  room : RoomFor (fun q => px q 0) s.x.width.toNat bpp.toNat p (s.x.dstCap.toNat - g.outpos.toNat)

/-- The bytes RLE.LINE has emitted are counted, and lie within its destination region (R45). -/
theorem LineAt.outpos {s : State} {bpp : BitVec 3} {g : RleState} {px : Nat → Nat → Pixel} {p : Nat}
    (h : LineAt s bpp g px p) : s.outCnt = g.outpos ∧ g.outpos.toNat ≤ s.x.dstCap.toNat := by
  obtain ⟨hout, hle, -⟩ := rleOk_iff.1 h.alone.progress
  exact ⟨hout, hle⟩

theorem LineAt.bpp_bounds {s : State} {bpp : BitVec 3} {g : RleState} {px : Nat → Nat → Pixel} {p : Nat}
    (h : LineAt s bpp g px p) : 1 ≤ bpp.toNat ∧ bpp.toNat ≤ 4 :=
  rleBpp_bounds (wf_of_launchCheck (invariant_launchCheck h.alone.inv h.alone.engine))

/-- The pixels of the row have `bpp` bytes each. -/
theorem LineAt.length_pixel {s : State} {bpp : BitVec 3} {g : RleState} {px : Nat → Nat → Pixel} {p : Nat}
    (h : LineAt s bpp g px p) : ∀ q, q < s.x.width.toNat → (px q 0).length = bpp.toNat := fun q hq =>
  (h.image 0 Nat.one_pos q hq).1

/-- An image in the source region is there after a work step as it was before. -/
theorem holdsImage_of_worksTo {s t : State} {op' : Operation} {bpp : Nat} {px : Nat → Nat → Pixel}
    (hto : WorksTo s t op') (hx : t.x = s.x) (hbytes : s.x.width.toNat * bpp ≤ s.x.srcLen.toNat)
    (h : HoldsImage s.mem s.x.srcBase.toNat (s.x.width.toNat * bpp) bpp s.x.width.toNat 1 px) :
    HoldsImage t.mem t.x.srcBase.toNat (t.x.width.toNat * bpp) bpp t.x.width.toNat 1 px := by
  rw [hx]
  intro y hy x hlt
  obtain ⟨hlen, hholds⟩ := h y hy x hlt
  refine ⟨hlen, fun k hk => ?_⟩
  have hpix : x * bpp + bpp ≤ s.x.width.toNat * bpp :=
    (Nat.succ_mul x bpp).symm.trans_le (Nat.mul_le_mul_right bpp hlt)
  obtain rfl : y = 0 := by omega
  rw [hto.source _ (inSrc_iff.2 ⟨by omega, by omega⟩)]
  exact hholds k hk

/-- The packet at pixel `p` is emitted in one step, which leads to the pixel after it (R252). -/
theorem LineAt.packet {s : State} {bpp : BitVec 3} {g : RleState} {px : Nat → Nat → Pixel} {p n : Nat} {bs : List Byte}
    (h : LineAt s bpp g px p) (hp : p < s.x.width.toNat)
    (hpacket : IsPacket (fun q => px q 0) s.x.width.toNat p n bs) :
    ∃ g', step s = .next (afterPacket bpp.toNat n bs (.rleLine bpp) g s) ∧
      LineAt (afterPacket bpp.toNat n bs (.rleLine bpp) g s) bpp g' px (p + n) ∧
      g'.outpos.toNat = g.outpos.toNat + bs.length := by
  obtain ⟨hlt, hrow, rfl⟩ : p < s.x.width.toNat ∧ g.row = 0#16 ∧ g.p.toNat = p :=
    h.cursor.resolve_right fun hend => by omega
  obtain ⟨h1, -, hle⟩ := hpacket.bounds
  obtain ⟨hfits, hroom⟩ := packet_room h.length_pixel h.bpp_bounds hpacket h.room
  have hcap := h.outpos.2
  have hw : s.x.width ≠ 0#16 := fun hzero => by simp [hzero] at hlt
  have hx := (exec_rle (rleOp_line hw hrow) h.alone.inv h.alone.hostTurn h.alone.engine h.image hpacket).1 (by omega)
  rw [h.alone.pop] at hx
  have hto := h.alone.worksTo hx (by simp [afterPacket, h.alone.inbox]) rfl
  have hbytes := needSrc_le (invariant_launchCheck h.alone.inv h.alone.engine) rfl
  have hwidth := s.x.width.isLt
  have hout : (BitVec.ofNat 32 (g.outpos.toNat + bs.length)).toNat = g.outpos.toNat + bs.length := by
    have := s.x.dstCap.isLt
    rw [BitVec.toNat_ofNat]
    omega
  refine ⟨_, hto.step, ⟨hto.alone, ?_, holdsImage_of_worksTo hto rfl hbytes h.image, ?_⟩, hout⟩
  · by_cases hend : g.p.toNat + n = s.x.width.toNat
    · exact .inr ⟨hend, by simp [doneTest, rleDone, if_pos hend, hrow]⟩
    · refine .inl ⟨lt_of_le_of_ne hle hend, ?_, ?_⟩
      · simp only [if_neg hend, hrow]
      · simp only [if_neg hend]
        rw [← ofNat_toNat_add, BitVec.toNat_ofNat]
        omega
  · rw [hout, ← Nat.sub_sub]
    exact hroom

/-- Within `k` steps RLE.LINE completes, with bytes after the `outpos` it has emitted that the reference reader expands
to `pixels` (R253, R256). -/
def LineFinishes (s : State) (bpp outpos : Nat) (pixels : List Byte) (k : Nat) : Prop :=
  ∃ n t bs, n ≤ k ∧ Runs n s t ∧ t.engine = none ∧ t.done = true ∧ t.fault = false ∧
    outpos + bs.length = t.outCnt.toNat ∧ t.mem.holds (s.x.dstBase.toNat + outpos) bs ∧
    (∀ fuel, bs.length ≤ fuel → Reference.unpack bpp fuel bs = some pixels) ∧
    ∀ a, a < s.x.dstBase.toNat + outpos ∨ s.x.dstBase.toNat + outpos + bs.length ≤ a → t.mem.read a = s.mem.read a

/-- After its last packet RLE.LINE completes (R142). -/
theorem LineAt.finishes_done {s : State} {bpp : BitVec 3} {g : RleState} {px : Nat → Nat → Pixel} {p : Nat}
    (h : LineAt s bpp g px p) (hp : s.x.width.toNat ≤ p) : LineFinishes s bpp.toNat g.outpos.toNat [] 1 := by
  have hdone := (h.cursor.resolve_left fun hlt => by omega).2
  refine ⟨1, _, [], Nat.le_refl 1, h.alone.completes hdone, rfl, rfl,
    (invariant_flags h.alone.inv h.alone.engine).2, ?_, fun k hk => absurd hk (Nat.not_lt_zero k),
    fun fuel _ => by cases fuel <;> rfl, fun _ _ => rfl⟩
  rw [h.outpos.1]
  rfl

/-- A packet, and the packets after it. -/
theorem LineFinishes.packet {s : State} {bpp : BitVec 3} {g : RleState} {px : Nat → Nat → Pixel} {p n k : Nat}
    {bs pixels : List Byte} (h : LineAt s bpp g px p) (hpacket : IsPacket (fun q => px q 0) s.x.width.toNat p n bs)
    (hstep : step s = .next (afterPacket bpp.toNat n bs (.rleLine bpp) g s))
    (hend : LineFinishes (afterPacket bpp.toNat n bs (.rleLine bpp) g s) bpp.toNat (g.outpos.toNat + bs.length)
      pixels k) :
    LineFinishes s bpp.toNat g.outpos.toNat (swappedPixels (fun q => px q 0) p n ++ pixels) (k + 1) := by
  obtain ⟨i, t, bs', hi, hruns, hidle, hdone, hfault, hcount, hholds, hunpack, hframe⟩ := hend
  simp only [afterPacket, ← Nat.add_assoc] at hholds hframe
  refine ⟨i + 1, t, bs ++ bs', Nat.succ_le_succ hi, .step hstep hruns, hidle, hdone, hfault, ?_, ?_, ?_, ?_⟩
  · rw [List.length_append]
    omega
  · intro j hj
    by_cases hlt : j < bs.length
    · rw [hframe _ (by omega), Memory.read_writeAll_inside bs _ _ j hlt, List.getElem_append_left hlt]
    · rw [List.length_append] at hj
      rw [List.getElem_append_right (by omega),
        show s.x.dstBase.toNat + g.outpos.toNat + j =
          s.x.dstBase.toNat + g.outpos.toNat + bs.length + (j - bs.length) by omega]
      exact hholds _ _
  · intro fuel hfuel
    rw [List.length_append] at hfuel
    have hsize := hpacket.length_eq h.length_pixel h.bpp_bounds.2
    obtain ⟨f, rfl⟩ : ∃ f, fuel = f + 1 := ⟨fuel - 1, by omega⟩
    exact unpack_packet h.length_pixel h.bpp_bounds.2 hpacket (hunpack f (by omega))
  · intro a ha
    rw [List.length_append] at ha
    rw [hframe a (by omega), Memory.read_writeAll_outside bs _ _ a (by omega)]

theorem LineFinishes.mono {s : State} {bpp outpos k k' : Nat} {pixels : List Byte}
    (h : LineFinishes s bpp outpos pixels k) (hle : k ≤ k') : LineFinishes s bpp outpos pixels k' := by
  obtain ⟨n, t, bs, hn, hfin⟩ := h
  exact ⟨n, t, bs, hn.trans hle, hfin⟩

/-- Left alone, RLE.LINE emits the rest of its row in at most one step a pixel and one more (R141, R253). -/
theorem line_finishes {bpp : BitVec 3} {px : Nat → Nat → Pixel} {s : State} {g : RleState} {p : Nat}
    (h : LineAt s bpp g px p) :
    LineFinishes s bpp.toNat g.outpos.toNat (swappedPixels (fun q => px q 0) p (s.x.width.toNat - p))
      (s.x.width.toNat - p + 1) := by
  induction hr : s.x.width.toNat - p using Nat.strong_induction_on generalizing s g p with
  | _ r ih =>
    rcases Nat.lt_or_ge p s.x.width.toNat with hp | hp
    · obtain ⟨n, bs, hpacket⟩ := exists_packet (row := fun q => px q 0) hp
      obtain ⟨h1, -, hle⟩ := hpacket.bounds
      obtain ⟨g', hstep, hnext, hout⟩ := h.packet hp hpacket
      have hend := ih (r - n) (by omega) hnext (by show s.x.width.toNat - (p + n) = r - n; omega)
      rw [hout] at hend
      have hall := LineFinishes.packet h hpacket hstep hend
      rw [← swappedPixels_add, Nat.add_sub_cancel' (by omega)] at hall
      exact hall.mono (by omega)
    · obtain rfl : r = 0 := by omega
      exact h.finishes_done hp

end Sys2Proof.Machine

namespace Sys2Proof.Proofs

open Sys2Proof.Machine

/-- Settles O60: the run of the whole row (`line_finishes`) from the launch values. -/
theorem scanlineExpandsBack : Obligations.ScanlineExpandsBack := by
  rintro s bpp px w hi hin rfl he himg hcap
  have hzero : (0 : Word).toNat = 0 := rfl
  have hcursor : (0 < s.x.width.toNat ∧ (0 : Half) = 0#16 ∧ (0 : Half).toNat = 0) ∨
      (0 = s.x.width.toNat ∧ doneTest s (.rleLine bpp { row := 0, p := 0, outpos := 0 }) = true) := by
    rcases Nat.eq_zero_or_pos s.x.width.toNat with hw | hw
    · exact .inr ⟨hw.symm, by simp [doneTest, rleDone, hw]⟩
    · exact .inl ⟨hw, rfl, rfl⟩
  have hstart : LineAt s bpp { row := 0, p := 0, outpos := 0 } px 0 :=
    ⟨⟨hi, hin, he⟩, hcursor, himg, by simp only [RoomFor, Nat.sub_zero, hzero]; omega⟩
  obtain ⟨n, t, bs, hn, hruns, hidle, hdone, hfault, hcount, hholds, hunpack, hframe⟩ := line_finishes hstart
  rw [Nat.sub_zero, swappedPixels_zero] at hunpack
  simp only [hzero, Nat.add_zero, Nat.zero_add] at hcount hholds hframe
  exact ⟨n, t, bs, by omega, hruns, hidle, hdone, hfault, hcount, hholds, hunpack _ (Nat.le_refl _), hframe⟩

end Sys2Proof.Proofs
end

section
/-! Settles O6, O7 and O9 to O11: the writes of the control port that are no instruction, one register at a time, and
what a step runs at the host's turn and at the engine's. -/

namespace Sys2Proof

/-- A write to an offset other than those of CMD and CTRL is no instruction (R131). -/
theorem decode_otherRegister {o : Nat} (v : Word) (hcmd : o ≠ cmdOffset) (hctrl : o ≠ ctrlOffset) :
    decode o v = .error .otherRegister := by
  rw [decode, if_neg hcmd, if_neg hctrl]

/-- A write to CTRL with bit 0 clear is no instruction (R145). -/
theorem decode_resetBitClear {v : Word} (h : v.getLsbD 0 = false) : decode ctrlOffset v = .error .resetBitClear := by
  rw [decode, if_neg (by decide), if_pos rfl, h]
  rfl

/-- A table word is decoded as the control-port write it stands for (log 2). -/
theorem decode_of_decodeTableWord {nbits w : Nat} {i : Instr} (h : decodeTableWord nbits w = some i) :
    decode (tableOffset (tableValue nbits w)) (tableValue nbits w) = .ok i := by
  unfold decodeTableWord at h
  cases hd : decode (tableOffset (tableValue nbits w)) (tableValue nbits w) with
  | error e => simp [hd, Except.toOption] at h
  | ok j => simpa [hd, Except.toOption] using h

end Sys2Proof

namespace Sys2Proof.Machine

/-! ### The registers at their offsets -/

theorem portReg_index (r : OperandReg) : portReg (0x10 + 4 * r.index) = .operand r := by
  cases r <;> rfl

/-- The offset of a register (R21); 0x38, the first reserved one, stands for those that name none. -/
def PortReg.offset : PortReg → Nat
  | .id => 0x00
  | .cmd => cmdOffset
  | .status => 0x08
  | .ie => 0x0C
  | .operand r => 0x10 + 4 * r.index
  | .ctrl => ctrlOffset
  | .nothing => 0x38
  | .cause => 0x40
  | .finfo => 0x44
  | .srcPos => 0x48
  | .outCnt => 0x4C

/-- A register stands at one offset only (R21). -/
theorem eq_offset_of_portReg {o : Nat} {p : PortReg} (h : portReg o = p) (hp : p ≠ .nothing) : o = p.offset := by
  unfold portReg at h
  split at h
  case h_19 => exact absurd h.symm hp
  all_goals
    subst h
    rfl

/-- An operand register reads back the value written to it, WIDTH and HEIGHT its low 16 bits (R22, R146). -/
theorem Operands.get_set_same (x : Operands) (v : Word) (r : OperandReg) :
    (x.set v r).get r = if r = .width ∨ r = .height then v &&& 0xFFFF#32 else v := by
  have hlow : (v.setWidth 16).setWidth 32 = v &&& 0xFFFF#32 := by
    refine BitVec.eq_of_toNat_eq ?_
    rw [BitVec.toNat_setWidth_of_le (by decide), BitVec.toNat_setWidth, BitVec.toNat_and]
    exact (Nat.and_two_pow_sub_one_eq_mod v.toNat 16).symm
  cases r with
  | width | height => exact hlow
  | srcBase | srcLen | dstBase | dstCap | outLen | srcStride | dstStride => rfl

/-- A write of one operand register leaves the others as they were (R146). -/
theorem Operands.get_set_other (x : Operands) (v : Word) {r r' : OperandReg} (h : r' ≠ r) :
    (x.set v r).get r' = x.get r' := by
  cases r <;> cases r' <;> first | rfl | exact absurd rfl h

/-! ### Writes that are no instruction -/

/-- A write of a register other than CMD and CTRL is a plain write (R131). -/
theorem step_write_other {s : State} {o : Nat} {v : Word} {rest : List Access} (h : s.inbox = .write o v :: rest)
    (hcmd : o ≠ cmdOffset) (hctrl : o ≠ ctrlOffset) : step s = .next (plainWrite o v s.pop) :=
  step_write_plain h (decode_otherRegister v hcmd hctrl)

theorem writeOperand_busy {v : Word} {r : OperandReg} {s : State} (h : s.busy = true) :
    writeOperand v r s = { s with ovr := true } := by
  rw [writeOperand, if_pos h]

theorem writeOperand_idle {v : Word} {r : OperandReg} {s : State} (h : s.busy = false) :
    writeOperand v r s = { s with x := s.x.set v r } := by
  rw [writeOperand, if_neg (by simp [h])]

/-- A plain write changes something at the offsets of CMD, STATUS, IE and the operand registers only (R145, R147). -/
theorem plainWrite_ignored {o : Nat} (v : Word) (s : State)
    (h : o ∉ [0x04, 0x08, 0x0C, 0x10, 0x14, 0x18, 0x1C, 0x20, 0x24, 0x28, 0x2C, 0x30]) : plainWrite o v s = s := by
  have hne (p : PortReg) (hp : p ≠ .nothing) (hmem : p.offset ∈ _) : portReg o ≠ p := fun hr =>
    h (eq_offset_of_portReg hr hp ▸ hmem)
  unfold plainWrite
  cases hr : portReg o with
  | cmd | status | ie => exact absurd hr (hne _ (by decide) (by decide))
  | operand r => exact absurd hr (hne _ (by simp) (by cases r <;> decide))
  | id | ctrl | cause | finfo | srcPos | outCnt | nothing => rfl

/-! ### What a step runs -/

/-- The engine's turn comes where the host leaves the block alone (log 1). -/
theorem step_engine {s : State} {op : Operation} (h : s.inbox = [] ∨ ∃ rest, s.inbox = .pass :: rest)
    (he : s.engine = some op) : step s = exec op.instr s := by
  rcases h with h | ⟨rest, h⟩
  · exact step_of_inbox_nil h he
  · simp [step, fetch, h, he]

/-- The engine takes no step while no operation is in progress (R140, R325; log 18). -/
theorem step_idle {s : State} (h : s.inbox = [] ∨ ∃ rest, s.inbox = .pass :: rest) (he : s.engine = none) :
    step s = .next s.pop := by
  rcases h with h | ⟨rest, h⟩
  · have hpop : s.pop = s := by rw [State.pop, h, List.tail_nil, ← h]
    simp [step, fetch, otherTransition, h, he, hpop]
  · simp [step, fetch, otherTransition, h, he]

end Sys2Proof.Machine

namespace Sys2Proof.Proofs

open Sys2Proof.Machine

/-- Settles O6: the fetch gives the instruction that the write decodes to, and what decodes is well-formed (O2). -/
theorem stepRunsDecoded : Obligations.StepRunsDecoded := by
  refine ⟨fun s o v rest i h hd => ⟨(encodeInvertsDecode o v i hd).1, step_write_decoded h hd⟩, fun s nbits w i h => ?_⟩
  have hd := decode_of_decodeTableWord h
  exact ⟨(encodeInvertsDecode _ _ i hd).1, step_write_decoded rfl hd⟩

/-- Settles O7: the fetch gives the operation in progress, or nothing. -/
theorem stepRunsEngine : Obligations.StepRunsEngine := fun _ h =>
  ⟨fun _ he => step_engine h he, fun he => step_idle h he⟩

/-- Settles O9: neither register is CMD or CTRL. -/
theorem flagRegisterWrites : Obligations.FlagRegisterWrites := by
  refine fun s v rest => ⟨fun h => ?_, fun h => ?_⟩
  all_goals
    rw [step_write_other h (by decide) (by decide), pop_eq h]
    rfl

/-- Settles O10: the write of an operand register, dropped or taken. -/
theorem operandWrites : Obligations.OperandWrites := by
  intro s r v rest h
  have hstep : step s = .next (writeOperand v r s.pop) := by
    rw [step_write_other h (by cases r <;> decide) (by cases r <;> decide), plainWrite, portReg_index]
  refine ⟨fun hb => ?_, fun hb => ⟨s.x.set v r, ?_, s.x.get_set_same v r, fun r' hr => s.x.get_set_other v hr⟩⟩
  · rw [hstep, writeOperand_busy (s := s.pop) hb, pop_eq h]
  · rw [hstep, writeOperand_idle (s := s.pop) hb, pop_eq h]

/-- Settles O11: a plain write at an offset that ignores writes. -/
theorem ignoredWrites : Obligations.IgnoredWrites := by
  rintro s o v rest h (ho | ⟨rfl, hbit⟩)
  · have hcmd : o ≠ cmdOffset := by
      rintro rfl
      exact ho (by decide)
    have hctrl : o ≠ ctrlOffset := by
      rintro rfl
      exact ho (by decide)
    have hignored := plainWrite_ignored v s.pop fun hmem => ho (List.mem_append_left [0x34] hmem)
    rw [step_write_other h hcmd hctrl, hignored, pop_eq h]
  · rw [step_write_plain h (decode_resetBitClear hbit), plainWrite_ignored v _ (by decide), pop_eq h]

end Sys2Proof.Proofs
end

section
/-! Settles O21 to O24: the five launch checks one by one, their order, and what an operation can rely on once they have
passed. -/

namespace Sys2Proof.Machine

/-! ### Tables and operand ranges -/

/-- The operand ranges of BPC, as a chain of tests (R136). -/
theorem bpcParams_eq (x : Operands) : bpcParams x =
    if x.width.toNat < 4 ∨ x.width.toNat % 4 ≠ 0 then some (.badParam, 5)
    else if x.height.toNat < 1 then some (.badParam, 6) else none := by
  simp only [bpcParams, firstFail, Bool.or_eq_true, decide_eq_true_eq, OperandReg.index]

/-- The operand ranges of SCL, as a chain of tests (R136). -/
theorem sclParams_eq (x : Operands) (bpp : BitVec 3) : sclParams x bpp =
    if x.width.toNat < 2 then some (.badParam, 5)
    else if x.height.toNat < 2 then some (.badParam, 6)
    else if x.srcStride.toNat < x.width.toNat * bpp.toNat then some (.badParam, 7)
    else if x.dstStride.toNat < 2 * x.width.toNat * bpp.toNat then some (.badParam, 8) else none := by
  simp only [sclParams, firstFail, decide_eq_true_eq, OperandReg.index]

/-- The operands that the conversions accept (R136). -/
theorem bpcParams_none {x : Operands} :
    bpcParams x = none ↔ 4 ≤ x.width.toNat ∧ x.width.toNat % 4 = 0 ∧ 1 ≤ x.height.toNat := by
  rw [bpcParams_eq]
  split_ifs <;> simp <;> omega

/-- The picture sizes that the scaler accepts (R136). -/
theorem size_of_sclParams_none {x : Operands} {bpp : BitVec 3} (h : sclParams x bpp = none) :
    2 ≤ x.width.toNat ∧ 2 ≤ x.height.toNat := by
  rw [sclParams_eq] at h
  split_ifs at h
  omega

/-! ### Regions -/

/-- Two regions overlap exactly where they share an address (R64, R137 c). -/
theorem overlap_iff {x : Operands} : overlap x = true ↔ ∃ a, x.inSrc a = true ∧ x.inDst a = true := by
  simp only [overlap, Bool.and_eq_true, decide_eq_true_eq, inSrc_iff, inDst_iff]
  constructor
  · intro h
    exact ⟨max x.srcBase.toNat x.dstBase.toNat, by omega, by omega⟩
  · rintro ⟨a, hsrc, hdst⟩
    omega

/-- The region tests, as a chain (R137). -/
theorem regionCheck_eq (n : Nat) (x : Operands) (i : Instr) : regionCheck n x i =
    if n < x.srcBase.toNat + x.srcLen.toNat then some (.badRegion, 0)
    else if usesDst i = true ∧ n < x.dstBase.toNat + x.dstCap.toNat then some (.badRegion, 1)
    else if usesDst i = true ∧ overlap x = true then some (.badRegion, 2) else none := by
  simp only [regionCheck, firstFail, Bool.and_eq_true, decide_eq_true_eq]

section Tests

variable {n : Nat} {x : Operands} {i : Instr}

/-- Test (a) fails where the source region reaches beyond buffer memory (R137). -/
theorem regionCheck_eq_zero :
    regionCheck n x i = some (.badRegion, 0) ↔ n < x.srcBase.toNat + x.srcLen.toNat := by
  rw [regionCheck_eq]
  split_ifs with hsrc <;> simp [hsrc]

/-- Test (b) is the first to fail where the destination region alone reaches beyond buffer memory (R137). -/
theorem regionCheck_eq_one :
    regionCheck n x i = some (.badRegion, 1) ↔ x.srcBase.toNat + x.srcLen.toNat ≤ n ∧ usesDst i = true ∧
      n < x.dstBase.toNat + x.dstCap.toNat := by
  rw [regionCheck_eq, ← not_lt]
  split_ifs with hsrc hdst
  · simp [hsrc]
  · simp [hsrc, hdst]
  · simpa using fun _ => not_and.1 hdst
  · simpa using fun _ => not_and.1 hdst

/-- Test (c) is the first to fail where both regions lie in buffer memory and share an address (R64, R137). -/
theorem regionCheck_eq_two :
    regionCheck n x i = some (.badRegion, 2) ↔ x.srcBase.toNat + x.srcLen.toNat ≤ n ∧ usesDst i = true ∧
      x.dstBase.toNat + x.dstCap.toNat ≤ n ∧ ∃ a, x.inSrc a = true ∧ x.inDst a = true := by
  rw [regionCheck_eq, ← overlap_iff, ← not_lt, ← not_lt]
  split_ifs with hsrc hdst hover
  · simp [hsrc]
  · simp [hdst]
  · exact iff_of_true rfl ⟨hsrc, hover.1, fun hbeyond => hdst ⟨hover.1, hbeyond⟩, hover.2⟩
  · exact iff_of_false (by simp) fun ⟨_, huses, _, hshared⟩ => hover ⟨huses, hshared⟩

end Tests

theorem regionCheck_some {n : Nat} {x : Operands} {i : Instr} {c : Cause} {info : Nat}
    (h : regionCheck n x i = some (c, info)) : c = .badRegion ∧ info ≤ 2 := by
  rw [regionCheck_eq] at h
  split_ifs at h <;> cases h <;> decide

/-- The commands that use the source region only are the table loads (R137). -/
theorem usesDst_eq_false {i : Instr} (hi : isCommand i = true) : usesDst i = false ↔ i = .hufLdt ∨ i = .bpcLdp := by
  cases i with
  | srst => cases hi
  | hufLdt | hufExp | lzsDec | bpcLdp | bpcRgb24 | bpcRgb32 | scl2x | scl2x3 | rleLine | rleImg => simp [usesDst]

/-! ### The order of the checks -/

theorem legalCheck_of_not_wf {i : Instr} (h : i.wf = false) : legalCheck i = some (.illegalCmd, i.word.toNat) := by
  simp [legalCheck, h]

/-- The launch checks of a legal command are the other four, in their order (R139). -/
theorem launchCheck_of_wf {i : Instr} (s : State) (h : i.wf = true) : launchCheck i s =
    (tableCheck s i).or ((paramCheck s.x i).or
      ((regionCheck s.platform.memBytes s.x i).or (needCheck s.x i))) := by
  simp [launchCheck, legalCheck, h]

theorem overrun_some {n len : Nat} {c : Cause} (h : len < n) : overrun (some n) len c = some (c, n) := by
  rw [overrun, if_pos h]

/-! ### What the passed checks say -/

/-- BPC's divisors are at least 1, and its pixels lie in the two regions (R139, R148). -/
theorem bpc_pixels_le {s : State} {i : Instr} {bpp : Nat} (hl : launchCheck i s = none)
    (hparam : paramCheck s.x i = bpcParams s.x)
    (hsrc : needSrc s.x i = some (s.x.width.toNat * s.x.height.toNat))
    (hdst : needDst s.x i = some (s.x.width.toNat * s.x.height.toNat * bpp)) :
    1 ≤ s.x.width.toNat / 4 ∧ 1 ≤ s.x.width.toNat * s.x.height.toNat / 4 ∧
      ∀ k, k < s.x.width.toNat * s.x.height.toNat → k < s.x.srcLen.toNat ∧
        planeOffset s.x.width.toNat s.x.height.toNat bpp k + bpp ≤ s.x.dstCap.toNat := by
  obtain ⟨-, -, hp, -, -⟩ := launchCheck_none.1 hl
  obtain ⟨hw4, hwmod, hh⟩ := bpcParams_none.1 (hparam ▸ hp)
  have hpixels : 4 * 1 ≤ s.x.width.toNat * s.x.height.toNat := Nat.mul_le_mul hw4 hh
  exact ⟨by omega, by omega, fun k hk =>
    ⟨hk.trans_le (needSrc_le hl hsrc), (planeOffset_le hwmod hk).trans (needDst_le hl hdst)⟩⟩

/-- The scaler's source pixels lie in the source region, and its sub-pixels in the destination region (R139, R148). -/
theorem scl_pixels_le {s : State} {i : Instr} {bpp : BitVec 3} {f : Nat} (hl : launchCheck i s = none)
    (hparam : paramCheck s.x i = sclParams s.x bpp)
    (hsrc : needSrc s.x i = some ((s.x.height.toNat - 1) * s.x.srcStride.toNat + s.x.width.toNat * bpp.toNat))
    (hdst : needDst s.x i = some ((f * s.x.height.toNat - 1) * s.x.dstStride.toNat + 2 * s.x.width.toNat * bpp.toNat)) :
    (∀ u v : Int, pixelOffset s.x bpp.toNat u v + bpp.toNat ≤ s.x.srcLen.toNat) ∧
      ∀ px py j, px < s.x.width.toNat → py < s.x.height.toNat → j < 2 * f →
        subOffset s.x bpp.toNat f px py j + bpp.toNat ≤ s.x.dstCap.toNat := by
  obtain ⟨-, -, hp, -, -⟩ := launchCheck_none.1 hl
  have hw : 1 ≤ s.x.width.toNat := Nat.le_of_succ_le (size_of_sclParams_none (hparam ▸ hp)).1
  exact ⟨fun u v => (pixelOffset_le u v hw).trans (needSrc_le hl hsrc),
    fun px py j hpx hpy hj => (subOffset_le hpx hpy hj).trans (needDst_le hl hdst)⟩

/-- The pixels of an image of packed rows lie in its bytes (R250). -/
theorem rowPixel_le {rows w bpp y q len : Nat} (hlen : rows * w * bpp ≤ len) (hy : y < rows) (hq : q < w) :
    (y * w + q) * bpp + bpp ≤ len :=
  calc (y * w + q) * bpp + bpp = (y * w + q + 1) * bpp := (Nat.succ_mul _ _).symm
    _ ≤ rows * w * bpp := Nat.mul_le_mul_right bpp (cursor_lt hy hq)
    _ ≤ len := hlen

end Sys2Proof.Machine

namespace Sys2Proof.Proofs

open Sys2Proof.Machine

/-- Settles O21: the table check instruction by instruction, and the chains of the two units with operand ranges. -/
theorem tableAndRangeChecks : Obligations.TableAndRangeChecks := by
  refine ⟨fun s i => ?_, ?_, ?_, fun x i h24 h32 h2x h2x3 => ?_⟩
  · cases i with
    | hufExp => cases htbl : s.tblValid <;> simp [tableCheck, htbl]
    | bpcRgb24 | bpcRgb32 => cases hpal : s.palValid <;> simp [tableCheck, hpal]
    | hufLdt | lzsDec | bpcLdp | scl2x | scl2x3 | rleLine | rleImg | srst => simp [tableCheck]
  · rintro x i (rfl | rfl)
    · exact bpcParams_eq x
    · exact bpcParams_eq x
  · rintro x bpp i (rfl | rfl)
    · exact sclParams_eq x bpp
    · exact sclParams_eq x bpp
  · cases i with
    | bpcRgb24 => exact absurd rfl h24
    | bpcRgb32 => exact absurd rfl h32
    | scl2x bpp => exact absurd rfl (h2x bpp)
    | scl2x3 bpp => exact absurd rfl (h2x3 bpp)
    | hufLdt | hufExp | lzsDec | bpcLdp | rleLine | rleImg | srst => rfl

/-- Settles O22: each answer names the test of the chain that fails first, and the overlap is a shared address. -/
theorem regionChecks : Obligations.RegionChecks := fun _ _ _ =>
  ⟨regionCheck_eq_zero, regionCheck_eq_one, regionCheck_eq_two, fun _ _ => regionCheck_some, usesDst_eq_false⟩

/-- Settles O23: a legal command's fault is that of its first failing check; the needs are those of the two tables. -/
theorem launchCheckOrder : Obligations.LaunchCheckOrder := by
  refine ⟨fun s i r => ⟨fun hwf => ?_, fun hwf ht => ?_, fun hwf ht hp => ?_, fun hwf ht hp hr => ?_,
    fun hwf ht hp hr => ?_⟩, ?_⟩
  · rw [launchCheck, legalCheck_of_not_wf hwf]
    rfl
  · rw [launchCheck_of_wf s hwf, ht]
    rfl
  · rw [launchCheck_of_wf s hwf, ht, hp]
    rfl
  · rw [launchCheck_of_wf s hwf, ht, hp, hr]
    rfl
  · have hneed : launchCheck i s = needCheck s.x i := by
      rw [launchCheck_of_wf s hwf, ht, hp, hr]
      rfl
    rw [hneed]
    refine ⟨fun n hn hlt => ?_, fun n hsrc hn hlt => ?_, fun hsrc hdst => needCheck_none.2 ⟨hsrc, hdst⟩⟩
    · rw [needCheck, hn, overrun_some hlt]
      rfl
    · rw [needCheck, overrun_none.2 hsrc, hn, overrun_some hlt]
      rfl
  · rintro x w h bpp stopv td rfl rfl
    exact ⟨⟨rfl, rfl⟩, ⟨rfl, rfl⟩, ⟨rfl, rfl⟩, ⟨rfl, rfl⟩, ⟨rfl, rfl⟩, ⟨rfl, rfl⟩, ⟨rfl, rfl⟩, ⟨rfl, rfl⟩, ⟨rfl, rfl⟩,
      ⟨rfl, rfl⟩⟩

/-- Settles O24: the needs that passed bound the last pixel of each region. -/
theorem acceptedLaunchFacts : Obligations.AcceptedLaunchFacts := by
  refine fun s i hl => ⟨?_, ?_, ?_, ?_⟩
  · rintro (rfl | rfl)
    · exact bpc_pixels_le (bpp := 3) hl rfl rfl rfl
    · exact bpc_pixels_le (bpp := 4) hl rfl rfl rfl
  · rintro bpp f (⟨rfl, rfl⟩ | ⟨rfl, rfl⟩)
    · exact scl_pixels_le hl rfl rfl rfl
    · exact scl_pixels_le hl rfl rfl rfl
  · rintro bpp td rfl y q hy hq
    have hbytes := needSrc_le hl rfl
    rw [Nat.mul_comm s.x.width.toNat] at hbytes
    exact rowPixel_le hbytes hy hq
  · rintro bpp rfl q hq
    have hbytes : 1 * s.x.width.toNat * bpp.toNat ≤ s.x.srcLen.toNat := (Nat.one_mul _).symm ▸ needSrc_le hl rfl
    simpa using rowPixel_le hbytes Nat.one_pos hq

end Sys2Proof.Proofs
end

section
/-! Settles O18 to O20 and O44: a command's write of CMD starts its operation, faults or is dropped, and what each of
the three leaves. -/

namespace Sys2Proof.Machine

theorem hostTurn_of_write {s : State} {o : Nat} {v : Word} {rest : List Access} (h : s.inbox = .write o v :: rest) :
    s.hostTurn = true := by
  simp [State.hostTurn, h]

/-- What starts an operation is a command (R92, R133). -/
theorem isCommand_of_launchOperation {x : Operands} {i : Instr} {op : Operation}
    (h : launchOperation x i = some op) : isCommand i = true := by
  cases i with
  | srst => cases h
  | hufLdt | hufExp | lzsDec | bpcLdp | bpcRgb24 | bpcRgb32 | scl2x | scl2x3 | rleLine | rleImg => rfl

/-- The acceptance of a command changes nothing that its launch checks look at (R133). -/
theorem launchCheck_acceptCmd (i : Instr) (v : Word) (s : State) :
    launchCheck i (acceptCmd v s) = launchCheck i s := launchCheck_congr rfl rfl rfl rfl

/-- A 32-bit word is its own information value (R134). -/
theorem clampWord_toNat (v : Word) : clampWord v.toNat = v := by
  have hv := v.isLt
  rw [clampWord, min_eq_left (by omega), BitVec.ofNat_toNat, BitVec.setWidth_eq]

section Accepted

variable {v : Word} {check : State → Option Raise} {start : State → Operation} {s : State}

/-- An accepted command whose checks pass starts its operation (R133). -/
theorem writeCmd_started (hb : s.busy = false) (hf : s.fault = false) (hc : check (acceptCmd v s) = none) :
    writeCmd v check start s = { acceptCmd v s with engine := some (start (acceptCmd v s)) } := by
  simp [writeCmd, hb, hf, hc]

/-- An accepted command one of whose checks fails enters the fault, and the block stays idle (R133, R304). -/
theorem writeCmd_faulted {c : Cause} {info : Nat} (hb : s.busy = false) (hf : s.fault = false)
    (hc : check (acceptCmd v s) = some (c, info)) :
    writeCmd v check start s = { s with
      cmd := v, done := false, early := false, fault := true, cause := c, finfo := clampWord info, srcPos := 0
      outCnt := 0 } := by
  have hwrite : writeCmd v check start s = takeFault c info (acceptCmd v s) := by simp [writeCmd, hb, hf, hc]
  rw [hwrite, takeFault, acceptCmd, engine_of_not_busy hb]

end Accepted

end Sys2Proof.Machine

namespace Sys2Proof.Proofs

open Sys2Proof.Machine

/-- Settles O18: the write is accepted and its checks pass. -/
theorem launchStartsOperation : Obligations.LaunchStartsOperation := by
  intro s i op rest h hb hf hl hop
  obtain ⟨start, hexec, hstart⟩ := exec_host (isCommand_of_launchOperation hop) (hostTurn_of_write h)
  have hop' : start (acceptCmd i.word s.pop) = op := Option.some.inj ((hstart _).symm.trans hop)
  rw [hexec, writeCmd_started (s := s.pop) hb hf ((launchCheck_acceptCmd i i.word s.pop).trans hl), hop', pop_eq h]
  rfl

/-- Settles O19: the write is accepted and a check fails. -/
theorem launchFaultEntry : Obligations.LaunchFaultEntry := by
  intro s i c info rest hi h hb hf hl
  obtain ⟨start, hexec, -⟩ := exec_host hi (hostTurn_of_write h)
  rw [hexec, writeCmd_faulted (s := s.pop) hb hf ((launchCheck_acceptCmd i i.word s.pop).trans hl), pop_eq h]
  rfl

/-- Settles O20: an illegal word is a write of CMD whose only check fails (`writeIllegal_eq_writeCmd`). -/
theorem illegalCommandFaults : Obligations.IllegalCommandFaults := by
  intro s v e rest h hd hb hf
  have hstep : step s = .next (writeIllegal v s.pop) := step_write_plain h hd
  rw [hstep, writeIllegal_eq_writeCmd v fun _ => .hufLdt false, writeCmd_faulted (s := s.pop) hb hf rfl,
    clampWord_toNat, pop_eq h]

/-- Settles O44: a write of CMD is dropped, faults or starts its operation, and no case writes another field. -/
theorem launchFrame : Obligations.LaunchFrame := by
  intro s t i hi ht h
  obtain ⟨start, hexec, -⟩ := exec_host hi ht
  rw [hexec, Host.Outcome.next.injEq] at h
  subst h
  rcases writeCmd_cases i.word (launchCheck i) start s.pop with ⟨-, heq⟩ | ⟨-, -, c, info, -, heq⟩ | ⟨-, -, -, heq⟩
  all_goals
    rw [heq]
    exact ⟨rfl, fun _ => rfl⟩

end Sys2Proof.Proofs
end

section
/-! Settles O25 and O42: the done condition and the faults of an engine step, and the causes of a launch. -/

namespace Sys2Proof.Machine

/-! ### The done condition -/

/-- The done test of a meaning is the done condition of R142. -/
theorem doneTest_eq_doneCondition (s : State) (op : Operation) : doneTest s op = doneCondition s.x op := by
  have hword {w : Nat} (a b : BitVec w) : (a == b) = (a.toNat == b.toNat) := by
    rw [Bool.eq_iff_iff, beq_iff_eq, beq_iff_eq, BitVec.toNat_inj]
  cases op with
  | hufLdt | bpcLdp | bpcRgb24 | bpcRgb32 | scl2x | scl2x3 => rfl
  | hufExp | lzsDec | rleLine | rleImg => simp only [doneTest, doneCondition, rleDone, hword]; rfl

/-! ### What a work step leaves -/

/-- One token of LZS.DEC (R181). -/
theorem workFrame_lzsItem {stopv : Bool} {g : LzsState} {bucket : BitVec 9} {pos : Nat} {s t : State}
    (h : lzsItem stopv g bucket pos s = .ok (.to t)) : WorkFrame s t := by
  unfold lzsItem at h
  split at h
  · obtain ⟨-, b, -, -, rfl⟩ := lzsLiteral_to h
    exact ⟨rfl, rfl, rfl, rfl, rfl, rfl⟩
  · obtain ⟨-, b0, b1, -, -, htok⟩ := lzsBackref_to h
    rcases lzsToken_to htok with ⟨-, -, rfl⟩ | ⟨-, -, -, s', hcopy, rfl⟩
    · exact ⟨rfl, rfl, rfl, rfl, rfl, rfl⟩
    · obtain ⟨-, m, rfl, -⟩ := copyRun_ok _ hcopy
      exact ⟨rfl, rfl, rfl, rfl, rfl, rfl⟩

/-- A work step changes no operand register, and leaves CAUSE, FINFO, DONE and FAULT (R140). -/
theorem workFrame_workStep {s t : State} {op : Operation} (h : workStep s op = .ok (.to t)) : WorkFrame s t := by
  cases op with
  | hufLdt =>
    obtain ⟨img, -, rfl⟩ := hufLoadWork_to h
    exact ⟨rfl, rfl, rfl, rfl, rfl, rfl⟩
  | bpcLdp =>
    obtain ⟨img, -, rfl⟩ := bpcLoadWork_to h
    exact ⟨rfl, rfl, rfl, rfl, rfl, rfl⟩
  | hufExp g =>
    obtain ⟨-, byte, -, ⟨b, -, -, rfl⟩ | ⟨node, -, rfl⟩⟩ := hufWork_to h
    · exact ⟨rfl, rfl, rfl, rfl, rfl, rfl⟩
    · exact ⟨rfl, rfl, rfl, rfl, rfl, rfl⟩
  | lzsDec stopv g =>
    rcases lzsWork_to h with ⟨-, hitem⟩ | ⟨-, -, ctl, -, hitem⟩
    · exact workFrame_lzsItem hitem
    · exact workFrame_lzsItem hitem
  | bpcRgb24 | bpcRgb32 =>
    obtain ⟨c, -, -, rfl⟩ := bpcWork_to h
    exact ⟨rfl, rfl, rfl, rfl, rfl, rfl⟩
  | scl2x | scl2x3 =>
    obtain ⟨n, s', -, hblock, rfl⟩ := sclWork_to h
    obtain ⟨m, rfl, -⟩ := writeBlock_ok _ _ _ _ hblock
    exact ⟨rfl, rfl, rfl, rfl, rfl, rfl⟩
  | rleLine | rleImg =>
    obtain ⟨k, bs, -, -, -, -, rfl⟩ := rleWork_to h
    exact ⟨rfl, rfl, rfl, rfl, rfl, rfl⟩

/-! ### The causes of a work step -/

section Lzs

variable {stopv : Bool} {g : LzsState} {bucket : BitVec 9} {pos : Nat} {s : State} {c : Cause} {info : Nat}

/-- A literal faults only where the source ends (R181). -/
theorem lzsLiteral_raise (h : lzsLiteral stopv g bucket pos s = .ok (.raise c info)) : c = .srcOverrun := by
  unfold lzsLiteral at h
  split at h
  · cases h
    rfl
  · split at h
    · cases h
    · split at h <;> cases h

/-- A token faults where its window or its run is too long (R181). -/
theorem lzsToken_raise {tok : Half} (h : lzsToken stopv g bucket pos tok s = .ok (.raise c info)) :
    c = .windowUnderrun ∨ c = .dstOverrun := by
  unfold lzsToken at h
  split at h
  · cases h
  · split at h
    · cases h
      exact .inl rfl
    · split at h
      · cases h
        exact .inr rfl
      · split at h <;> cases h

theorem lzsItem_raise (h : lzsItem stopv g bucket pos s = .ok (.raise c info)) :
    c ∈ stepCauses (.lzsDec stopv) := by
  unfold lzsItem at h
  split at h
  · simp [lzsLiteral_raise h, stepCauses]
  · unfold lzsBackref at h
    split at h
    · cases h
      simp [stepCauses]
    · split at h
      · cases h
      · split at h
        · cases h
        · rcases lzsToken_raise h with rfl | rfl <;> simp [stepCauses]

theorem lzsWork_raise (h : lzsWork stopv g s = .ok (.raise c info)) : c ∈ stepCauses (.lzsDec stopv) := by
  unfold lzsWork at h
  split at h
  · split at h
    · cases h
      simp [stepCauses]
    · split at h
      · cases h
      · exact lzsItem_raise h
  · exact lzsItem_raise h

end Lzs

/-- A work step raises only causes of its command's row (R303). -/
theorem workStep_raise {s : State} {op : Operation} {c : Cause} {info : Nat}
    (h : workStep s op = .ok (.raise c info)) : c ∈ stepCauses op.instr := by
  cases op with
  | hufLdt => exact absurd h hufLoadWork_not_raise
  | bpcLdp => exact absurd h bpcLoadWork_not_raise
  | hufExp => rcases hufWork_raise h with ⟨-, rfl, -⟩ | ⟨-, rfl, -⟩ <;> simp [stepCauses, Operation.instr]
  | lzsDec => exact lzsWork_raise h
  | bpcRgb24 | bpcRgb32 => exact absurd h bpcWork_not_raise
  | scl2x | scl2x3 => exact absurd h sclWork_not_raise
  | rleLine | rleImg =>
    obtain ⟨k, -, -, rfl, -⟩ := rleWork_raise h
    simp [stepCauses, Operation.instr]

/-! ### The causes of a launch -/

/-- The fault of a launch is that of one of its checks (R139). -/
theorem launchCheck_some {i : Instr} {s : State} {r : Raise} (h : launchCheck i s = some r) :
    legalCheck i = some r ∨ tableCheck s i = some r ∨ paramCheck s.x i = some r ∨
      regionCheck s.platform.memBytes s.x i = some r ∨ needCheck s.x i = some r := by
  simp only [launchCheck, Option.or_eq_some_iff] at h
  tauto

section Launch

variable {s : State} {i : Instr} {c : Cause} {info : Nat}

theorem legalCheck_cause (hi : isCommand i = true) (h : legalCheck i = some (c, info)) : c ∈ launchCauses i := by
  unfold legalCheck at h
  split at h <;> cases h
  cases i with
  | srst => cases hi
  | hufLdt | hufExp | lzsDec | bpcLdp | bpcRgb24 | bpcRgb32 | scl2x | scl2x3 | rleLine | rleImg => simp [launchCauses]

theorem tableCheck_cause (h : tableCheck s i = some (c, info)) : c ∈ launchCauses i := by
  cases i with
  | hufExp | bpcRgb24 | bpcRgb32 =>
    simp only [tableCheck] at h
    split at h <;> cases h
    simp [launchCauses]
  | hufLdt | lzsDec | bpcLdp | scl2x | scl2x3 | rleLine | rleImg | srst => cases h

theorem paramCheck_cause (h : paramCheck s.x i = some (c, info)) : c ∈ launchCauses i := by
  cases i with
  | bpcRgb24 | bpcRgb32 =>
    rw [paramCheck, bpcParams_eq] at h
    split_ifs at h <;> cases h <;> simp [launchCauses]
  | scl2x | scl2x3 =>
    rw [paramCheck, sclParams_eq] at h
    split_ifs at h <;> cases h <;> simp [launchCauses]
  | hufLdt | hufExp | lzsDec | bpcLdp | rleLine | rleImg | srst => cases h

theorem regionCheck_cause (hi : isCommand i = true) (h : regionCheck s.platform.memBytes s.x i = some (c, info)) :
    c ∈ launchCauses i := by
  obtain ⟨rfl, -⟩ := regionCheck_some h
  cases i with
  | srst => cases hi
  | hufLdt | hufExp | lzsDec | bpcLdp | bpcRgb24 | bpcRgb32 | scl2x | scl2x3 | rleLine | rleImg => simp [launchCauses]

/-- A need is reported with its own cause, and only where there is one (R138). -/
theorem overrun_cause {need : Option Nat} {len : Nat} {c' : Cause} (h : overrun need len c' = some (c, info)) :
    need ≠ none ∧ c = c' := by
  unfold overrun at h
  split at h
  · cases h
  · split at h <;> cases h
    exact ⟨by simp, rfl⟩

theorem needCheck_cause (h : needCheck s.x i = some (c, info)) : c ∈ launchCauses i := by
  rw [needCheck, Option.or_eq_some_iff] at h
  rcases h with h | ⟨-, h⟩
  · obtain ⟨hneed, rfl⟩ := overrun_cause h
    cases i with
    | hufExp | lzsDec | srst => exact absurd rfl hneed
    | hufLdt | bpcLdp | bpcRgb24 | bpcRgb32 | scl2x | scl2x3 | rleLine | rleImg => simp [launchCauses]
  · obtain ⟨hneed, rfl⟩ := overrun_cause h
    cases i with
    | hufLdt | bpcLdp | rleLine | rleImg | srst => exact absurd rfl hneed
    | hufExp | lzsDec | bpcRgb24 | bpcRgb32 | scl2x | scl2x3 => simp [launchCauses]

/-- A launch reports only causes of its command's row (R303). -/
theorem launchCheck_cause (hi : isCommand i = true) (h : launchCheck i s = some (c, info)) : c ∈ launchCauses i := by
  rcases launchCheck_some h with h | h | h | h | h
  · exact legalCheck_cause hi h
  · exact tableCheck_cause h
  · exact paramCheck_cause h
  · exact regionCheck_cause hi h
  · exact needCheck_cause h

end Launch

end Sys2Proof.Machine

namespace Sys2Proof.Proofs

open Sys2Proof.Machine

/-- Settles O25: the done condition decides between the completing step and the work step, which leaves DONE. -/
theorem completingStep : Obligations.CompletingStep := by
  intro s op ht he
  rw [exec_engine ht he, doneTest_eq_doneCondition]
  refine ⟨fun hd => ?_, fun hd t h => ?_⟩
  · rw [pop_x, hd]
    rfl
  · rw [pop_x, hd] at h
    rcases engineStep_next h with ⟨hdone, -⟩ | ⟨-, hwork⟩ | ⟨-, c, info, -, rfl⟩
    · cases hdone
    · exact (workFrame_workStep hwork).done
    · rfl

/-- Settles O42: a launch reports the cause of one of its checks, and an engine step that of its work step. -/
theorem faultCausesPerCommand : Obligations.FaultCausesPerCommand := by
  refine ⟨fun s i c info => launchCheck_cause, fun s t op ht he hf h htf => ?_⟩
  have hclear {u : State} (hu : u.fault = s.fault) : u.fault ≠ true := by simp [hu, hf]
  rw [exec_engine ht he] at h
  rcases engineStep_next h with ⟨-, rfl⟩ | ⟨-, hwork⟩ | ⟨-, c, info, hraise, rfl⟩
  · exact absurd htf (hclear rfl)
  · exact absurd htf (hclear (workFrame_workStep hwork).fault)
  · exact workStep_raise hraise

end Sys2Proof.Proofs
end

section
/-! Settles O43: while FAULT is 1 no operation is in progress, so that a step is an access of the host, and each kind of
access but a reset leaves the report of the fault. -/

namespace Sys2Proof.Machine

/-- The report of a fault, the counters, CMD and the operation in progress are as they were, and FAULT stays 1 unless
the host writes STATUS with bit 2 set (R304, R310). -/
structure FaultHeld (s t : State) : Prop where
  cause : t.cause = s.cause
  finfo : t.finfo = s.finfo
  srcPos : t.srcPos = s.srcPos
  outCnt : t.outCnt = s.outCnt
  cmd : t.cmd = s.cmd
  engine : t.engine = s.engine
  fault : t.fault = true ∨ ∃ v rest, s.inbox = .write 0x08 v :: rest ∧ v.getLsbD 2 = true

/-! ### The accesses of the host -/

theorem hostRead_next {s t : State} {a n : Nat} (h : hostRead a n s = .next t) : ∃ bs, t = { s with memOut := bs } := by
  unfold hostRead at h
  split at h <;> cases h
  exact ⟨_, rfl⟩

theorem hostWrite_next {s t : State} {a : Nat} {bs : List Byte} (h : hostWrite a bs s = .next t) :
    ∃ m, t = { s with mem := m } := by
  unfold hostWrite at h
  split at h
  · cases h
  · split at h
    · cases h
    · rename_i s' hs'
      obtain ⟨-, rfl⟩ := memWrite_ok hs'
      cases h
      exact ⟨_, rfl⟩

/-- In the faulted state a write of CMD is dropped (R132, R311). -/
theorem writeCmd_faultHeld {s : State} {v : Word} {check : State → Option Raise} {start : State → Operation}
    (hf : s.fault = true) : FaultHeld s (writeCmd v check start s.pop) := by
  rw [writeCmd_dropped (s := s.pop) (.inr hf)]
  exact ⟨rfl, rfl, rfl, rfl, rfl, rfl, .inl hf⟩

/-- In the faulted state a write of STATUS with bit 2 set is the one way to clear FAULT by a plain write (R310). -/
theorem plainWrite_faultHeld {s : State} {o : Nat} {v : Word} {rest : List Access} (hf : s.fault = true)
    (hin : s.inbox = .write o v :: rest) : FaultHeld s (plainWrite o v s.pop) := by
  unfold plainWrite
  cases hr : portReg o with
  | cmd =>
    change FaultHeld s (writeIllegal v s.pop)
    rw [writeIllegal_eq_writeCmd v fun _ => .hufLdt false]
    exact writeCmd_faultHeld hf
  | status =>
    refine ⟨rfl, rfl, rfl, rfl, rfl, rfl, ?_⟩
    obtain rfl := eq_offset_of_portReg hr (by decide)
    cases hbit : v.getLsbD 2 with
    | true => exact .inr ⟨v, rest, hin, hbit⟩
    | false => exact .inl (by rw [writeStatus_fault, pop_fault, hf, hbit]; rfl)
  | operand r =>
    change FaultHeld s (writeOperand v r s.pop)
    cases hb : s.pop.busy with
    | true =>
      rw [writeOperand_busy hb]
      exact ⟨rfl, rfl, rfl, rfl, rfl, rfl, .inl hf⟩
    | false =>
      rw [writeOperand_idle hb]
      exact ⟨rfl, rfl, rfl, rfl, rfl, rfl, .inl hf⟩
  | ie | id | ctrl | cause | finfo | srcPos | outCnt | nothing => exact ⟨rfl, rfl, rfl, rfl, rfl, rfl, .inl hf⟩

/-- In the faulted state a transition without an instruction leaves the report, unless it is a reset. -/
theorem otherTransition_faultHeld {s t : State} (hf : s.fault = true) (hr : resetNext s = false)
    (h : otherTransition s = .next t) : FaultHeld s t := by
  unfold otherTransition at h
  split at h
  case h_1 hin => cases h; exact plainWrite_faultHeld hf hin
  case h_2 => cases h; exact ⟨rfl, rfl, rfl, rfl, rfl, rfl, .inl hf⟩
  case h_3 =>
    obtain ⟨bs, rfl⟩ := hostRead_next h
    exact ⟨rfl, rfl, rfl, rfl, rfl, rfl, .inl hf⟩
  case h_4 =>
    obtain ⟨m, rfl⟩ := hostWrite_next h
    exact ⟨rfl, rfl, rfl, rfl, rfl, rfl, .inl hf⟩
  case h_5 hin => simp [resetNext, hin] at hr
  case h_6 => cases h; exact ⟨rfl, rfl, rfl, rfl, rfl, rfl, .inl hf⟩
  case h_7 => cases h; exact ⟨rfl, rfl, rfl, rfl, rfl, rfl, .inl hf⟩

/-- In the faulted state a write that decodes is dropped, unless it is the reset (R132, R145). -/
theorem decoded_faultHeld {s t : State} {o : Nat} {v : Word} {rest : List Access} {i : Instr} (hf : s.fault = true)
    (hr : resetNext s = false) (hin : s.inbox = .write o v :: rest) (hd : decode o v = .ok i)
    (h : exec i s = .next t) : FaultHeld s t := by
  rcases decode_ok hd with ⟨rfl, -⟩ | ⟨rfl, hbit, -⟩
  · obtain ⟨check, start, hstep⟩ := step_write_cmd hin
    rw [step_write_decoded hin hd, h, Host.Outcome.next.injEq] at hstep
    rw [hstep]
    exact writeCmd_faultHeld hf
  · simp only [resetNext, hin, hbit] at hr
    cases hr

end Sys2Proof.Machine

namespace Sys2Proof.Proofs

open Sys2Proof.Machine

/-- Settles O43: with FAULT 1 the invariant leaves no operation in progress, so the step is no engine step. -/
theorem faultHeldUntilCleared : Obligations.FaultHeldUntilCleared := by
  intro s t hi hf h hr
  have hidle : s.engine = none := by
    rcases Option.eq_none_or_eq_some s.engine with he | ⟨op, he⟩
    · exact he
    · exact absurd (hf.symm.trans (invariant_flags hi he).2) (by decide)
  have hheld : FaultHeld s t := by
    rcases step_cases s with ⟨i, hfetch, hstep⟩ | ⟨-, hstep⟩
    · rw [hstep] at h
      rcases fetch_cases hfetch with ⟨o, v, rest, hin, hd, -⟩ | ⟨-, op, he, -⟩
      · exact decoded_faultHeld hf hr hin hd h
      · rw [hidle] at he
        cases he
    · rw [hstep] at h
      exact otherTransition_faultHeld hf hr h
  exact ⟨hheld.cause, hheld.finfo, hheld.srcPos, hheld.outCnt, hheld.cmd, hheld.engine.trans hidle, hheld.fault⟩

end Sys2Proof.Proofs
end

section
/-! Settles O27: HUF.EXP's work step, forwards, by the entry that its stream bit selects. -/

namespace Sys2Proof.Machine

theorem hufWork_overrun {s : State} {g : HufState} (h : s.x.srcLen.toNat ≤ g.bitcnt.toNat / 8) :
    hufWork g s = .ok (.raise .srcOverrun (g.bitcnt.toNat / 8 + 1)) := by
  rw [hufWork, if_pos h]

/-- An entry of 511 or more is neither a literal nor one of the 255 nodes (R101, R162). -/
theorem hufFollow_tableIndex {g : HufState} {v : Half} {s : State} (h : 511 ≤ v.toNat) :
    hufFollow g v s = .ok (.raise .tableIndex v.toNat) := by
  rw [hufFollow, if_neg (by omega), dif_neg (by omega)]

/-- HUF.EXP with output to produce is not done (R142). -/
theorem doneTest_hufExp_false {s : State} {g : HufState} (h : 0 < g.remaining.toNat) :
    doneTest s (.hufExp g) = false := by
  simpa [doneTest] using h.ne'

end Sys2Proof.Machine

namespace Sys2Proof.Proofs

open Sys2Proof.Machine

/-- Settles O27: a missing bit faults at once; a bit that is there leads to its entry, which is a literal, a node or
neither. -/
theorem hufExpandWorkStep : Obligations.HufExpandWorkStep := by
  intro s h ht he hrem
  have hdone : doneTest s.pop (.hufExp h) = false := doneTest_hufExp_false hrem
  have hbit : BitVec.ofNat 35 (h.bitcnt.toNat + 1) = h.bitcnt + 1 := ofNat_toNat_add h.bitcnt 1
  refine ⟨fun hlen => exec_raise ht he hdone (hufWork_overrun (s := s.pop) hlen), fun b v hlt hb hv => ?_⟩
  have hfollow : workStep s.pop (.hufExp h) = hufFollow h v s.pop := by
    rw [hv]
    exact hufWork_of_byteAt (s := s.pop) (src := fun _ => b) hlt hb
  refine ⟨fun hlit hroom => ?_, fun node hnode => ?_, fun hbad => ?_⟩
  · have hwork := hfollow.trans (hufFollow_literal hlit hrem hroom)
    rw [hufWritten, hbit] at hwork
    exact exec_work ht he hdone hwork
  · have hn : v.toNat - 256 < 255 := by omega
    have hto : ⟨v.toNat - 256, hn⟩ = node := Fin.ext (Nat.sub_eq_of_eq_add' hnode)
    have hwork := hfollow.trans (hufFollow_node (by omega) hn)
    rw [hufMoved, HufState.advance, hbit, hto] at hwork
    exact exec_work ht he hdone hwork
  · exact exec_raise ht he hdone (hfollow.trans (hufFollow_tableIndex hbad))

end Sys2Proof.Proofs
end

section
/-! Settles O45 and O46: what an engine step of the table loads and of the commands that append to their output leaves
unchanged. -/

namespace Sys2Proof.Machine

/-! ### Engine steps of the table loads -/

/-- An engine step of a table load completes or takes its work step, which raises no fault (R160, R200, R303). -/
theorem exec_load_cases {s t : State} {op : Operation} (hop : isLoad op = true) (ht : s.hostTurn = false)
    (he : s.engine = some op) (h : exec op.instr s = .next t) :
    t = complete s.pop ∨ workStep s.pop op = .ok (.to t) := by
  rw [exec_engine ht he] at h
  rcases engineStep_next h with ⟨-, hcomplete⟩ | ⟨-, hwork⟩ | ⟨-, c, info, hraise, -⟩
  · exact .inl hcomplete
  · exact .inr hwork
  · have hcause := workStep_raise hraise
    cases op with
    | hufLdt | bpcLdp => cases hcause
    | hufExp | lzsDec | bpcRgb24 | bpcRgb32 | scl2x | scl2x3 | rleLine | rleImg => cases hop

/-! ### Work steps that append to the output -/

/-- HUF.EXP, LZS.DEC, RLE.LINE and RLE.IMG: the operations whose work step appends bytes at OUT_CNT (R77). -/
def isStream : Operation → Bool
  | .hufExp _ | .lzsDec _ _ | .rleLine _ _ | .rleImg _ _ _ => true
  | .hufLdt _ | .bpcLdp _ | .bpcRgb24 _ | .bpcRgb32 _ | .scl2x _ _ | .scl2x3 _ _ => false

theorem isStream_iff {op : Operation} : isStream op = true ↔
    op.instr = .hufExp ∨ (∃ stopv, op.instr = .lzsDec stopv) ∨ (∃ bpp, op.instr = .rleLine bpp) ∨
      ∃ bpp td, op.instr = .rleImg bpp td := by
  cases op <;> simp [isStream, Operation.instr]

theorem storedByte_stream {s t : State} {op : Operation} {a : Nat} (hop : isStream op = true) :
    storedByte s t a op = false ↔
      a < s.x.dstBase.toNat + s.outCnt.toNat ∨ s.x.dstBase.toNat + t.outCnt.toNat ≤ a := by
  cases op with
  | hufExp | lzsDec | rleLine | rleImg =>
    simp only [storedByte, Bool.and_eq_false_iff, decide_eq_false_iff_not, not_le, not_lt]
  | hufLdt | bpcLdp | bpcRgb24 | bpcRgb32 | scl2x | scl2x3 => cases hop

/-- The step appends `n` bytes to the output and counts them, and beside these writes SRC_POS, the operation in progress
and EARLY only (R165, R184, R256). -/
structure Appends (s t : State) (early : Bool) (n : Nat) : Prop where
  state : ∃ m srcPos outCnt op,
    t = { s with mem := m, srcPos := srcPos, outCnt := outCnt, early := early, engine := op }
  count : t.outCnt.toNat = s.outCnt.toNat + n
  outside : ∀ a, a < s.x.dstBase.toNat + s.outCnt.toNat ∨ s.x.dstBase.toNat + s.outCnt.toNat + n ≤ a →
    t.mem.read a = s.mem.read a

/-- HUF.EXP appends a literal, or nothing (R162, R165). -/
theorem hufWork_appends {s t : State} {g : HufState} (hcnt : s.outCnt.toNat + g.remaining.toNat < 2 ^ 32)
    (hrem : 0 < g.remaining.toNat) (h : hufWork g s = .ok (.to t)) : ∃ n, Appends s t s.early n := by
  obtain ⟨-, byte, -, ⟨b, -, -, rfl⟩ | ⟨node, -, rfl⟩⟩ := hufWork_to h
  · exact ⟨1, ⟨_, _, _, _, rfl⟩, Nat.mod_eq_of_lt (by omega),
      fun a ha => Memory.read_write_other _ _ (by omega)⟩
  · exact ⟨0, ⟨_, _, _, _, rfl⟩, rfl, fun _ _ => rfl⟩

/-- A token of LZS.DEC appends a literal or a run, or is the stop sentinel, which appends nothing (R181, R184). -/
theorem lzsItem_appends {s t : State} {stopv : Bool} {g : LzsState} {bucket : BitVec 9} {pos : Nat}
    (hcnt : s.outCnt.toNat + g.remaining.toNat < 2 ^ 32) (hrem : 0 < g.remaining.toNat)
    (h : lzsItem stopv g bucket pos s = .ok (.to t)) : ∃ early n, Appends s t early n := by
  unfold lzsItem at h
  split at h
  · obtain ⟨-, b, -, -, rfl⟩ := lzsLiteral_to h
    exact ⟨s.early, 1, ⟨_, _, _, _, rfl⟩, Nat.mod_eq_of_lt (by omega),
      fun a ha => Memory.read_write_other _ _ (by omega)⟩
  · obtain ⟨-, b0, b1, -, -, htok⟩ := lzsBackref_to h
    rcases lzsToken_to htok with ⟨-, -, rfl⟩ | ⟨-, -, hfits, s', hcopy, rfl⟩
    · exact ⟨true, 0, ⟨_, _, _, _, rfl⟩, rfl, fun _ _ => rfl⟩
    · obtain ⟨-, m, rfl, hout, -⟩ := copyRun_ok _ hcopy
      exact ⟨s.early, _, ⟨_, _, _, _, rfl⟩, Nat.mod_eq_of_lt (by omega), hout⟩

/-- An RLE step appends its packet (R252, R256). -/
theorem rleWork_appends {s t : State} {bpp y : Nat} {next : RleState → Operation} {g : RleState}
    (hout : s.outCnt = g.outpos) (hp : g.p.toNat < s.x.width.toNat) (h : rleWork bpp y next g s = .ok (.to t)) :
    ∃ n, Appends s t s.early n := by
  obtain ⟨k, bs, hk, hbs, hfits, -, rfl⟩ := rleWork_to h
  obtain ⟨-, -, -, hsize⟩ := choosePacket_ok (fun _ _ => rowPixel_length) hp hk
  have hcap := s.x.dstCap.isLt
  refine ⟨k.size, ⟨_, _, _, _, rfl⟩, ?_, fun a ha => ?_⟩
  · rw [rleNext_outCnt, hout]
    exact Nat.mod_eq_of_lt (by omega)
  · rw [hout] at ha
    exact Memory.read_writeAll_outside bs s.mem _ a (by rwa [hsize bs hbs])

/-- The work step of a stream operation appends to its output, and EARLY rises for LZS.DEC only. -/
theorem workStep_appends {s t : State} {op : Operation} (hop : isStream op = true) (hi : invariant s = true)
    (he : s.engine = some op) (hdone : doneTest s op = false) (h : workStep s op = .ok (.to t)) :
    ∃ early n, Appends s t early n ∧ ((∀ stopv, op.instr ≠ .lzsDec stopv) → early = s.early) := by
  obtain ⟨hp, -⟩ := invariant_operation hi he
  have hlen := s.x.outLen.isLt
  cases op with
  | hufExp g =>
    obtain ⟨hcnt, -⟩ := progressOk_hufExp.1 hp
    have hrem : g.remaining.toNat ≠ 0 := by simpa [doneTest] using hdone
    obtain ⟨n, happ⟩ := hufWork_appends (by omega) (by omega) h
    exact ⟨_, n, happ, fun _ => rfl⟩
  | lzsDec stopv g =>
    obtain ⟨hcnt, -⟩ := progressOk_lzsDec.1 hp
    simp only [doneTest, Bool.or_eq_false_iff, beq_eq_false_iff_ne] at hdone
    obtain ⟨hrem, -⟩ := hdone
    have hitem : ∃ bucket pos, lzsItem stopv g bucket pos s = .ok (.to t) := by
      rcases lzsWork_to h with ⟨-, hitem⟩ | ⟨-, -, ctl, -, hitem⟩
      · exact ⟨_, _, hitem⟩
      · exact ⟨_, _, hitem⟩
    obtain ⟨bucket, pos, hitem⟩ := hitem
    obtain ⟨early, n, happ⟩ := lzsItem_appends (by omega) (by omega) hitem
    exact ⟨early, n, happ, fun hne => absurd rfl (hne stopv)⟩
  | rleLine | rleImg =>
    obtain ⟨hout, -⟩ := rleOk_iff.1 hp
    obtain ⟨-, hcol⟩ := rle_cursor_left hp hdone
    obtain ⟨n, happ⟩ := rleWork_appends hout hcol h
    exact ⟨_, n, happ, fun _ => rfl⟩
  | hufLdt | bpcLdp | bpcRgb24 | bpcRgb32 | scl2x | scl2x3 => cases hop

end Sys2Proof.Machine

namespace Sys2Proof.Proofs

open Sys2Proof.Machine

/-- Settles O45: a load's engine step completes or takes the load's one work step (`exec_load_cases`). -/
theorem tableLoadFrame : Obligations.TableLoadFrame := by
  refine fun s t loaded ht => ⟨fun he h => ?_, fun he h => ?_⟩
  · rcases exec_load_cases rfl ht he h with rfl | hwork
    · exact ⟨rfl, fun _ => rfl⟩
    · obtain ⟨img, -, rfl⟩ := hufLoadWork_to hwork
      exact ⟨rfl, fun _ => rfl⟩
  · rcases exec_load_cases rfl ht he h with rfl | hwork
    · exact ⟨rfl, fun _ => rfl⟩
    · obtain ⟨img, -, rfl⟩ := bpcLoadWork_to hwork
      exact ⟨rfl, fun _ => rfl⟩

/-- Settles O46: the completing step and a fault store nothing, and a work step appends to the output
(`workStep_appends`). -/
theorem streamFrame : Obligations.StreamFrame := by
  intro s t op hi ht he hop h
  rw [← isStream_iff] at hop
  rw [exec_engine ht he] at h
  rcases engineStep_next h with ⟨-, rfl⟩ | ⟨hdone, hwork⟩ | ⟨-, c, info, -, rfl⟩
  · exact ⟨rfl, fun _ => rfl, le_rfl, fun _ _ => rfl⟩
  · obtain ⟨early, n, ⟨⟨m, srcPos, outCnt, op', rfl⟩, hcount, hout⟩, hearly⟩ :=
      workStep_appends (s := s.pop) hop hi he hdone hwork
    rw [pop_outCnt] at hcount
    refine ⟨rfl, hearly, hcount ▸ Nat.le_add_right _ _, fun a ha => hout a ?_⟩
    rw [storedByte_stream hop, hcount, ← Nat.add_assoc] at ha
    exact ha
  · exact ⟨rfl, fun _ => rfl, le_rfl, fun _ _ => rfl⟩

end Sys2Proof.Proofs
end

section
/-! Settles O31: the five faults of LZS.DEC's work step, each from the point of the step that raises it. -/

namespace Sys2Proof.Machine

section Lzs

variable {s : State} {stopv : Bool} {g : LzsState} {bk : BitVec 9} {pos : Nat} {tok : Half}

/-- A refill at the end of the source (R181). -/
theorem lzsWork_refill_overrun (hempty : g.bucket = 1#9) (hend : s.x.srcLen.toNat ≤ g.srcpos.toNat) :
    lzsWork stopv g s = .ok (.raise .srcOverrun (g.srcpos.toNat + 1)) := by
  rw [lzsWork, if_pos hempty, if_pos hend]

/-- A literal at the end of the source (R181). -/
theorem lzsItem_literal_overrun (hbit : bk.getLsbD 0 = true) (hend : s.x.srcLen.toNat ≤ pos) :
    lzsItem stopv g bk pos s = .ok (.raise .srcOverrun (pos + 1)) := by
  rw [lzsItem, if_pos hbit, lzsLiteral, if_pos hend]

/-- A token of which at least the second byte is past the end of the source (R181). -/
theorem lzsItem_backref_overrun (hbit : bk.getLsbD 0 = false) (hend : s.x.srcLen.toNat ≤ pos + 1) :
    lzsItem stopv g bk pos s = .ok (.raise .srcOverrun (pos + 2)) := by
  rw [lzsItem, if_neg (Bool.eq_false_iff.1 hbit), lzsBackref, if_pos hend]

/-- A token, not the sentinel, whose window begins before the output (R181). -/
theorem lzsToken_window_underrun (hstop : (stopv && lzsStop s.platform.stopPred tok) = false)
    (hdist : s.outCnt.toNat < tokenDist tok) :
    lzsToken stopv g bk pos tok s = .ok (.raise .windowUnderrun tok.toNat) := by
  rw [lzsToken, if_neg (Bool.eq_false_iff.1 hstop), if_pos hdist]

/-- A token, not the sentinel, whose window is there and whose run is longer than what remains (R181). -/
theorem lzsToken_run_overrun (hstop : (stopv && lzsStop s.platform.stopPred tok) = false)
    (hdist : tokenDist tok ≤ s.outCnt.toNat) (hlen : g.remaining.toNat < tokenLen tok) :
    lzsToken stopv g bk pos tok s = .ok (.raise .dstOverrun (s.outCnt.toNat + tokenLen tok)) := by
  rw [lzsToken, if_neg (Bool.eq_false_iff.1 hstop), if_neg (Nat.not_lt.2 hdist), if_pos hlen]

end Lzs

end Sys2Proof.Machine

namespace Sys2Proof.Proofs

open Sys2Proof.Machine

/-- Settles O31: the refill faults first; past it the step is its control bit's item, and a token that is there is its
window test and then its length test. -/
theorem lzsFaultSteps : Obligations.LzsFaultSteps := by
  intro s stopv h ht he hrem hstop
  have hfault {c : Cause} {info : Nat} (hw : lzsWork stopv h s.pop = .ok (.raise c info)) :
      exec (.lzsDec stopv) s = .next (faultEntry c info s) :=
    exec_raise ht he (doneTest_lzsDec_false hrem hstop) hw
  refine ⟨fun hempty hend => hfault (lzsWork_refill_overrun (s := s.pop) hempty hend), fun bk pos =>
    ⟨fun hc hbit hend => ?_, fun hc hbit hend => ?_, fun tok hm hsentinel => ?_⟩⟩
  · exact hfault ((lzsWork_of_control (s := s.pop) hc).trans (lzsItem_literal_overrun (s := s.pop) hbit hend))
  · exact hfault ((lzsWork_of_control (s := s.pop) hc).trans (lzsItem_backref_overrun (s := s.pop) hbit hend))
  · have htoken := lzsWork_of_meets (stopv := stopv) (s := s.pop) hm
    rw [← tokenDist_eq, ← tokenLen_eq]
    exact ⟨fun hdist => hfault (htoken.trans (lzsToken_window_underrun (s := s.pop) hsentinel hdist)),
      fun hdist hlen => hfault (htoken.trans (lzsToken_run_overrun (s := s.pop) hsentinel hdist hlen))⟩

end Sys2Proof.Proofs
end

section
/-! Settles O34 and O47: the deinterleaving map by its index (`planeIndex`), and what an engine step of the conversions
and of the scalers leaves unchanged. -/

namespace Sys2Proof.Machine

/-- Plane `p`, row `q`, place `r` of a chunk is the index of the pixel at column `4r + p`, row `q` (R107). -/
theorem planeIndex_of_plane (w h q r : Nat) {p : Nat} (hp : p < 4) :
    planeIndex w h (4 * r + p) q = p * (w * h / 4) + q * (w / 4) + r := by
  rw [planeIndex, Nat.mul_add_mod, Nat.mod_eq_of_lt hp, Nat.mul_add_div (by decide), Nat.div_eq_of_lt hp, Nat.add_zero]

/-- An engine step of a command whose steps have no cause completes or takes its work step (R303). -/
theorem exec_faultless_cases {s t : State} {op : Operation} (hop : stepCauses op.instr = []) (ht : s.hostTurn = false)
    (he : s.engine = some op) (h : exec op.instr s = .next t) :
    t = complete s.pop ∨ workStep s.pop op = .ok (.to t) := by
  rw [exec_engine ht he] at h
  rcases engineStep_next h with ⟨-, hcomplete⟩ | ⟨-, hwork⟩ | ⟨-, c, info, hraise, -⟩
  · exact .inl hcomplete
  · exact .inr hwork
  · have hcause := workStep_raise hraise
    rw [hop] at hcause
    cases hcause

/-! ### Work steps that write at the place their index gives -/

/-- BPC.RGB24, BPC.RGB32, SCL.2X and SCL.2X3: the operations whose work step writes a pixel or a block (R202, R203,
R224). -/
def isPixel : Operation → Bool
  | .bpcRgb24 _ | .bpcRgb32 _ | .scl2x _ _ | .scl2x3 _ _ => true
  | .hufLdt _ | .bpcLdp _ | .hufExp _ | .lzsDec _ _ | .rleLine _ _ | .rleImg _ _ _ => false

theorem isPixel_iff {op : Operation} : isPixel op = true ↔
    op.instr = .bpcRgb24 ∨ op.instr = .bpcRgb32 ∨ (∃ bpp, op.instr = .scl2x bpp) ∨ ∃ bpp, op.instr = .scl2x3 bpp := by
  cases op <;> simp [isPixel, Operation.instr]

/-- The conversions and the scalers meet no fault after launch (R303). -/
theorem stepCauses_of_isPixel {op : Operation} (hop : isPixel op = true) : stepCauses op.instr = [] := by
  cases op with
  | bpcRgb24 | bpcRgb32 | scl2x | scl2x3 => rfl
  | hufLdt | bpcLdp | hufExp | lzsDec | rleLine | rleImg => cases hop

theorem inPixel_eq_false {s : State} {a bpp : Nat} {i : Word} :
    storedByte.inPixel s a bpp i = false ↔
      a < s.x.dstBase.toNat + planeOffset s.x.width.toNat s.x.height.toNat bpp i.toNat ∨
        s.x.dstBase.toNat + planeOffset s.x.width.toNat s.x.height.toNat bpp i.toNat + bpp ≤ a := by
  simp only [storedByte.inPixel, Bool.and_eq_false_iff, decide_eq_false_iff_not, not_le, not_lt]

theorem inSubPixel_eq_false {x : Operands} {bpp f k j a : Nat} :
    inSubPixel x bpp f k j a = false ↔
      a < x.dstBase.toNat + subOffset x bpp f (k % x.width.toNat) (k / x.width.toNat) j ∨
        x.dstBase.toNat + subOffset x bpp f (k % x.width.toNat) (k / x.width.toNat) j + bpp ≤ a := by
  simp only [inSubPixel, Bool.and_eq_false_iff, decide_eq_false_iff_not, not_le, not_lt]

/-- The step stores bytes at addresses with `stored` only, and beside these writes SRC_POS, OUT_CNT and the operation in
progress only. -/
structure Places (s t : State) (stored : Nat → Bool) : Prop where
  state : ∃ m srcPos outCnt op, t = { s with mem := m, srcPos := srcPos, outCnt := outCnt, engine := op }
  outside : ∀ a, stored a = false → t.mem.read a = s.mem.read a

/-- A conversion step writes the pixel of its source index (R202, R203). -/
theorem bpcWork_places {s t : State} {pixel : Rgb → List Byte} {bpp : Nat} {next : Word → Operation} {i : Word}
    (hpixel : ∀ c, (pixel c).length = bpp) (h : bpcWork pixel bpp next i s = .ok (.to t)) :
    Places s t fun a => storedByte.inPixel s a bpp i := by
  obtain ⟨c, -, -, rfl⟩ := bpcWork_to h
  refine ⟨⟨_, _, _, _, rfl⟩, fun a ha => Memory.read_writeAll_outside _ s.mem _ a ?_⟩
  rw [hpixel]
  exact inPixel_eq_false.1 ha

/-- A scaler step writes the `n` sub-pixels of its block, each as wide as the pixel it takes (R224, R225). -/
theorem sclWork_places {s t : State} {kernel : Nbhd → List Pixel} {bpp f n : Nat} {next : Word → Operation} {k : Word}
    (hkernel : ∀ nb, (kernel nb).length = n ∧ ∀ e ∈ kernel nb, e ∈ Nbhd.picks nb)
    (h : sclWork kernel bpp f next k s = .ok (.to t)) :
    Places s t fun a => (List.range n).any fun j => inSubPixel s.x bpp f k.toNat j a := by
  obtain ⟨nb, s', hnb, hblock, rfl⟩ := sclWork_to h
  obtain ⟨m, rfl, hout, -⟩ := writeBlock_ok _ _ _ _ hblock
  obtain ⟨hlen, hpicks⟩ := hkernel nb
  refine ⟨⟨_, _, _, _, rfl⟩, fun a ha => hout a fun j hj => ?_⟩
  have hj' : inSubPixel s.x bpp f k.toNat j a = false :=
    Bool.eq_false_iff.2 (List.any_eq_false.1 ha j (List.mem_range.2 (hlen ▸ hj)))
  rw [Nat.zero_add, neighbours_picks_length hnb _ (hpicks _ (List.getElem_mem hj))]
  exact inSubPixel_eq_false.1 hj'

/-- The work step of a conversion or of a scaler stores at the place its index gives. -/
theorem workStep_places {s t : State} {op : Operation} (hop : isPixel op = true)
    (h : workStep s op = .ok (.to t)) : Places s t fun a => storedByte s t a op := by
  cases op with
  | bpcRgb24 | bpcRgb32 => exact bpcWork_places (fun _ => rfl) h
  | scl2x => exact sclWork_places (kernel2x_picks _) h
  | scl2x3 => exact sclWork_places (kernel2x3_picks _) h
  | hufLdt | bpcLdp | hufExp | lzsDec | rleLine | rleImg => cases hop

end Sys2Proof.Machine

namespace Sys2Proof.Proofs

open Sys2Proof.Machine

/-- Settles O34: a source index is the `planeIndex` of its place, and a place that of its `planeIndex`. -/
theorem planeMapBijective : Obligations.PlaneMapBijective := by
  intro w h hw _ _
  refine ⟨fun i hi => ⟨planeX_lt hw hi, planeY_lt hi⟩, fun i j hi hj hx hy => ?_, fun p q r hp hq hr => ?_⟩
  · rw [← planeIndex_place hw hi, hx, hy, planeIndex_place hw hj]
  · have hcol : 4 * r + p < w := by omega
    rw [← planeIndex_of_plane w h q r hp]
    exact ⟨planeIndex_lt hw hcol hq, place_planeIndex hw hcol hq⟩

/-- Settles O47: an engine step completes, which stores nothing, or takes the work step, which stores at the place of its
index (`workStep_places`). -/
theorem pixelFrame : Obligations.PixelFrame := by
  intro s t op _ ht he hop h
  rw [← isPixel_iff] at hop
  rcases exec_faultless_cases (stepCauses_of_isPixel hop) ht he h with rfl | hwork
  · exact ⟨rfl, fun _ _ => rfl⟩
  · obtain ⟨⟨m, srcPos, outCnt, op', rfl⟩, hout⟩ := workStep_places hop hwork
    exact ⟨rfl, hout⟩

end Sys2Proof.Proofs
end

section
/-! Settles O36 and O37: the pixels that the kernels pick, and the published kernels as equations. -/

namespace Sys2Proof.Machine

/-- Where its four direct neighbours equal the source pixel, there is no other pixel to pick (R225). -/
theorem eq_of_mem_picks {n : Nbhd} {e : Pixel} (h : e ∈ Nbhd.picks n) (hb : n.b = n.e) (hd : n.d = n.e)
    (hf : n.f = n.e) (hh : n.h = n.e) : e = n.e := by
  simpa only [Nbhd.picks, hb, hd, hf, hh, List.mem_cons, List.not_mem_nil, or_false, or_self] using h

theorem mem_picks {n : Nbhd} {e : Pixel} :
    e ∈ Nbhd.picks n ↔ e = n.e ∨ e = n.b ∨ e = n.d ∨ e = n.f ∨ e = n.h := by
  simp only [Nbhd.picks, List.mem_cons, List.not_mem_nil, or_false]

/-- The edge test of both published kernels (R228, R229). -/
theorem edge_iff {n : Nbhd} : edge n = true ↔ n.b ≠ n.h ∧ n.d ≠ n.f := by
  simp only [edge, Bool.and_eq_true, bne_iff_ne]

end Sys2Proof.Machine

namespace Sys2Proof.Proofs

open Sys2Proof.Machine

/-- Settles O36: every kernel picks among the source pixel and its direct neighbours (`kernel2x_picks`,
`kernel2x3_picks`). -/
theorem kernelsPickNeighbours : Obligations.KernelsPickNeighbours := by
  intro κ n
  obtain ⟨hlen2, hpicks2⟩ := kernel2x_picks κ n
  obtain ⟨hlen3, hpicks3⟩ := kernel2x3_picks κ n
  refine ⟨hlen2, hlen3, fun e he => mem_picks.1 (hpicks2 e he), fun e he => mem_picks.1 (hpicks3 e he),
    fun hb hd hf hh => ⟨fun e he => ?_, fun e he => ?_⟩⟩
  · exact eq_of_mem_picks (hpicks2 e he) hb hd hf hh
  · exact eq_of_mem_picks (hpicks3 e he) hb hd hf hh

/-- Settles O37: the tests of the published kernels, as propositions. -/
theorem defaultKernels : Obligations.DefaultKernels := by
  refine fun n => ⟨?_, ?_⟩
  · simp only [kernel2x, published2x, Bool.and_eq_true, edge_iff, beq_iff_eq]
  · simp only [kernel2x3, published2x3, Bool.and_eq_true, Bool.or_eq_true, edge_iff, beq_iff_eq, bne_iff_ne]

end Sys2Proof.Proofs
end

section
/-! Settles O35: the scaler's work step, forwards. The nine pixels it reads are the `neighbourhood` of the image
(`neighbours_of_image`), and the sub-pixels it stores share no byte (`subAddr_disjoint`), so that each is there after
the step (`Memory.holds_stores`). -/

namespace Sys2Proof.Machine

/-! ### Stores that share no byte -/

/-- Two stores share no byte. -/
def Store.Disjoint (v w : Store) : Prop := v.1 + v.2.length ≤ w.1 ∨ w.1 + w.2.length ≤ v.1

/-- Of stores that share no byte, each is there at the end. -/
theorem Memory.holds_stores {w : Store} : ∀ {ws : List Store} (m : Memory), ws.Pairwise Store.Disjoint → w ∈ ws →
    (m.stores ws).holds w.1 w.2
  | [], _, _, hw => by cases hw
  | v :: ws, m, hd, hw => by
    obtain ⟨hv, hws⟩ := List.pairwise_cons.1 hd
    rcases List.mem_cons.1 hw with rfl | hw
    · intro k hk
      rw [Memory.stores, Memory.read_stores_outside _ fun u hu hc => ?_, Memory.read_writeAll_inside _ _ _ k hk]
      have hdisj := hv u hu
      unfold Store.Disjoint at hdisj
      unfold Store.Covers at hc
      omega
    · exact Memory.holds_stores (ws := ws) _ hws hw

theorem blockStores_eq_mapIdx {x : Operands} {bpp f px py : Nat} : ∀ (es : List Pixel) (j : Nat),
    blockStores x bpp f px py es j =
      es.mapIdx fun i e => (x.dstBase.toNat + subOffset x bpp f px py (j + i), e)
  | [], _ => rfl
  | e :: es, j => by
    rw [blockStores, blockStores_eq_mapIdx es (j + 1), List.mapIdx_cons]
    simp only [Nat.add_assoc, Nat.add_comm 1, Nat.add_zero]

/-! ### The places of the sub-pixels -/

/-- The address of sub-pixel `j` of the block of source pixel `k` (R224). -/
def subAddr (x : Operands) (bpp f k j : Nat) : Nat :=
  x.dstBase.toNat + subOffset x bpp f (k % x.width.toNat) (k / x.width.toNat) j

/-- Two places of a picture of `n` columns share no byte: rows lie at least a row's bytes apart (R77). -/
theorem place_disjoint {pitch bpp n r c r' c' : Nat} (hpitch : n * bpp ≤ pitch) (hc : c < n) (hc' : c' < n)
    (hne : r ≠ r' ∨ c ≠ c') :
    r * pitch + c * bpp + bpp ≤ r' * pitch + c' * bpp ∨ r' * pitch + c' * bpp + bpp ≤ r * pitch + c * bpp := by
  have hcol {c d : Nat} (h : c < d) : c * bpp + bpp ≤ d * bpp :=
    (Nat.succ_mul c bpp).symm.trans_le (Nat.mul_le_mul_right bpp h)
  have hrow {r r' : Nat} (h : r < r') : r * pitch + pitch ≤ r' * pitch :=
    (Nat.succ_mul r pitch).symm.trans_le (Nat.mul_le_mul_right pitch h)
  have hin := hcol hc
  have hin' := hcol hc'
  rcases Nat.lt_trichotomy r r' with hr | rfl | hr
  · have := hrow hr
    omega
  · rcases Nat.lt_or_gt_of_ne (hne.resolve_left fun h => h rfl) with hlt | hgt
    · have := hcol hlt
      omega
    · have := hcol hgt
      omega
  · have := hrow hr
    omega

/-- A quotient and a remainder are given by the number they make. -/
theorem eq_of_mul_add_eq {f q q' r r' : Nat} (hr : r < f) (hr' : r' < f) (h : f * q + r = f * q' + r') :
    q = q' ∧ r = r' := by
  have hf : 0 < f := Nat.zero_lt_of_lt hr
  obtain ⟨hq, hmod⟩ := (Nat.div_mod_unique hf).2 ⟨(Nat.add_comm r (f * q)).trans h, hr⟩
  obtain ⟨hq', hmod'⟩ := (Nat.div_mod_unique hf).2 ⟨Nat.add_comm r' (f * q'), hr'⟩
  exact ⟨hq.symm.trans hq', hmod.symm.trans hmod'⟩

/-- Different sub-pixels of the scaled picture share no byte (R77, R224). -/
theorem subAddr_disjoint {x : Operands} {bpp f k j k' j' : Nat} (hw : 0 < x.width.toNat)
    (hpitch : 2 * x.width.toNat * bpp ≤ x.dstStride.toNat) (hj : j < 2 * f) (hj' : j' < 2 * f)
    (hne : k ≠ k' ∨ j ≠ j') :
    subAddr x bpp f k j + bpp ≤ subAddr x bpp f k' j' ∨ subAddr x bpp f k' j' + bpp ≤ subAddr x bpp f k j := by
  have hcol := Nat.mod_lt k hw
  have hcol' := Nat.mod_lt k' hw
  have hplace : f * (k / x.width.toNat) + j / 2 ≠ f * (k' / x.width.toNat) + j' / 2 ∨
      2 * (k % x.width.toNat) + j % 2 ≠ 2 * (k' % x.width.toNat) + j' % 2 := by
    by_contra hsame
    obtain ⟨hrow, hcolumn⟩ := not_or.1 hsame
    obtain ⟨hq, hr⟩ := eq_of_mul_add_eq (by omega) (by omega) (not_not.1 hrow)
    obtain ⟨hp, hc⟩ := eq_of_mul_add_eq (f := 2) (by omega) (by omega) (not_not.1 hcolumn)
    have hk : k = k' := by rw [← Nat.div_add_mod k x.width.toNat, hq, hp, Nat.div_add_mod]
    omega
  have hdisj := place_disjoint (n := 2 * x.width.toNat) hpitch (by omega) (by omega) hplace
  unfold subAddr subOffset
  omega

/-! ### The pixels of the image -/

theorem clamp_cast {x m : Nat} (h : x ≤ m) : clamp x m = x := by
  unfold clamp
  split <;> omega

theorem clamp_pred {x m : Nat} (h : x ≤ m) : clamp (x - 1 : Int) m = x - 1 := by
  unfold clamp
  split <;> omega

theorem clamp_succ (x m : Nat) : clamp (x + 1 : Int) m = min (x + 1) m := by
  unfold clamp
  split <;> omega

/-- What the launch checks guarantee a scaler with blocks of `f` rows: an image of some size in its source region, and
room for the scaled picture, whose rows do not share bytes (R136 to R138, R148). -/
structure ScalerRoom (s : State) (bpp f : Nat) : Prop where
  width : 0 < s.x.width.toNat
  height : 0 < s.x.height.toNat
  pitch : 2 * s.x.width.toNat * bpp ≤ s.x.dstStride.toNat
  source : ∀ u v : Int, pixelOffset s.x bpp u v + bpp ≤ s.x.srcLen.toNat
  target : ∀ px py j, px < s.x.width.toNat → py < s.x.height.toNat → j < 2 * f →
    subOffset s.x bpp f px py j + bpp ≤ s.x.dstCap.toNat
  srcRegion : s.x.srcBase.toNat + s.x.srcLen.toNat ≤ s.platform.memBytes
  dstRegion : s.x.dstBase.toNat + s.x.dstCap.toNat ≤ s.platform.memBytes

/-- The source image of a scaler is there (R221). -/
def SourceImage (s : State) (bpp : Nat) (px : Nat → Nat → Pixel) : Prop :=
  HoldsImage s.mem s.x.srcBase.toNat s.x.srcStride.toNat bpp s.x.width.toNat s.x.height.toNat px

section Image

variable {s : State} {bpp f : Nat} {px : Nat → Nat → Pixel}

/-- A clamped pixel of an image that is there is read (R221). -/
theorem pixelAt_of_image (hr : ScalerRoom s bpp f) (himg : SourceImage s bpp px) (u v : Int) :
    pixelAt s bpp u v = .ok (px (clamp u (s.x.width.toNat - 1)) (clamp v (s.x.height.toNat - 1))) := by
  have hcol := clamp_le u (s.x.width.toNat - 1)
  have hrow := clamp_le v (s.x.height.toNat - 1)
  have hw := hr.width
  have hh := hr.height
  have hsrc := hr.source u v
  have hregion := hr.srcRegion
  obtain ⟨hlen, hholds⟩ := himg (clamp v (s.x.height.toNat - 1)) (by omega) (clamp u (s.x.width.toNat - 1)) (by omega)
  rw [Nat.add_assoc] at hholds
  have hread := memRead_of_holds (s := s) hholds (by rw [hlen]; unfold pixelOffset at hsrc; omega)
  rwa [hlen] at hread

/-- The nine pixels that a scaler step reads (R221). -/
theorem neighbours_of_image (hr : ScalerRoom s bpp f) (himg : SourceImage s bpp px) {x y : Nat}
    (hx : x < s.x.width.toNat) (hy : y < s.x.height.toNat) :
    neighbours s bpp x y = .ok (neighbourhood px s.x.width.toNat s.x.height.toNat x y) := by
  have hx' := Nat.le_sub_one_of_lt hx
  have hy' := Nat.le_sub_one_of_lt hy
  simp only [neighbours, pixelAt_of_image hr himg, clamp_cast hx', clamp_cast hy', clamp_pred hx', clamp_pred hy',
    clamp_succ]
  rfl

/-- The image is there wherever the source region is as it was. -/
theorem SourceImage.congr {t : State} (himg : SourceImage s bpp px) (hr : ScalerRoom s bpp f) (hx : t.x = s.x)
    (hsrc : ∀ a, s.x.inSrc a = true → t.mem.read a = s.mem.read a) : SourceImage t bpp px := by
  intro y hy x hlt
  rw [hx] at hy hlt ⊢
  obtain ⟨hlen, hholds⟩ := himg y hy x hlt
  have hpos := hr.source x y
  rw [pixelOffset, clamp_cast (Nat.le_sub_one_of_lt hlt), clamp_cast (Nat.le_sub_one_of_lt hy)] at hpos
  refine ⟨hlen, fun k hk => ?_⟩
  rw [hsrc _ (inSrc_iff.2 ⟨by omega, by omega⟩)]
  exact hholds k hk

end Image

/-! ### The work step -/

/-- A scaler step whose neighbourhood is read and whose block is written counts both (R44, R224). -/
theorem sclWork_of_block {kernel : Nbhd → List Pixel} {bpp f : Nat} {next : Word → Operation} {k : Word} {s s' : State}
    {n : Nbhd} (hn : neighbours s bpp (k.toNat % s.x.width.toNat) (k.toNat / s.x.width.toNat) = .ok n)
    (hw : writeBlock bpp f (k.toNat % s.x.width.toNat) (k.toNat / s.x.width.toNat) (kernel n) 0 s = .ok s') :
    sclWork kernel bpp f next k s = .ok (.to { s' with
      srcPos := BitVec.ofNat 32 ((k.toNat + 1) * bpp), outCnt := BitVec.ofNat 32 ((k.toNat + 1) * bpp * (2 * f))
      engine := some (next (k + 1)) }) := by
  have hnext : BitVec.ofNat 32 (k.toNat + 1) = k + 1 := ofNat_toNat_add k 1
  simp only [sclWork, hn, hw, hnext, Nat.mul_assoc]

/-- What SCL.2X and SCL.2X3 share: `next k` is the scaler before source pixel `k`, with blocks of `f` rows (R222,
R223). -/
structure Scaler (kernel : Platform → Nbhd → List Pixel) (bpp : BitVec 3) (f : Nat) (next : Word → Operation) :
    Prop where
  work : ∀ s k, workStep s (next k) = sclWork (kernel s.platform) bpp.toNat f next k s
  done : ∀ s k, doneTest s (next k) = (k.toNat == pixelCount s.x)
  usesDst : ∀ k, usesDst (next k).instr = true
  param : ∀ x k, paramCheck x (next k).instr = sclParams x bpp
  needSrc : ∀ x k, needSrc x (next k).instr =
    some ((x.height.toNat - 1) * x.srcStride.toNat + x.width.toNat * bpp.toNat)
  needDst : ∀ x k, needDst x (next k).instr =
    some ((f * x.height.toNat - 1) * x.dstStride.toNat + 2 * x.width.toNat * bpp.toNat)
  progress : ∀ s k, progressOk s (next k) = true → k.toNat ≤ pixelCount s.x
  kernel : ∀ p n, (kernel p n).length = 2 * f ∧ ∀ e ∈ kernel p n, e ∈ Nbhd.picks n

theorem scaler_2x (bpp : BitVec 3) : Scaler (fun p => kernel2x p.k2x) bpp 2 (.scl2x bpp) :=
  ⟨fun _ _ => rfl, fun _ _ => rfl, fun _ => rfl, fun _ _ => rfl, fun _ _ => rfl, fun _ _ => rfl,
    fun _ _ hp => (progressOk_scl2x.1 hp).1, fun _ => kernel2x_picks _⟩

theorem scaler_2x3 (bpp : BitVec 3) : Scaler (fun p => kernel2x3 p.k2x3) bpp 3 (.scl2x3 bpp) :=
  ⟨fun _ _ => rfl, fun _ _ => rfl, fun _ => rfl, fun _ _ => rfl, fun _ _ => rfl, fun _ _ => rfl,
    fun _ _ hp => (progressOk_scl2x3.1 hp).1, fun _ => kernel2x3_picks _⟩

/-- The sub-pixels of the block of source pixel `k` of an image (R224). -/
def blockOf (kernel : Nbhd → List Pixel) (px : Nat → Nat → Pixel) (x : Operands) (k : Nat) : List Pixel :=
  kernel (neighbourhood px x.width.toNat x.height.toNat (k % x.width.toNat) (k / x.width.toNat))

/-- Buffer memory after the block `es` of source pixel `k` is stored (R224). -/
def Memory.storeBlock (m : Memory) (x : Operands) (bpp f k : Nat) (es : List Pixel) : Memory :=
  m.stores (blockStores x bpp f (k % x.width.toNat) (k / x.width.toNat) es 0)

/-- The state after the block `es` of source pixel `k` is written (R44, R224). -/
def blockWritten (bpp f : Nat) (next : Word → Operation) (k : Word) (es : List Pixel) (s : State) : State :=
  { s with
    mem := s.mem.storeBlock s.x bpp f k.toNat es
    srcPos := BitVec.ofNat 32 ((k.toNat + 1) * bpp), outCnt := BitVec.ofNat 32 ((k.toNat + 1) * bpp * (2 * f))
    engine := some (next (k + 1)) }

section Block

variable {m : Memory} {x : Operands} {bpp f k : Nat} {es : List Pixel}

/-- A block leaves the bytes outside its sub-pixels as they were (R224). -/
theorem Memory.read_storeBlock_outside (hlen : es.length = 2 * f) (hbytes : ∀ e ∈ es, e.length = bpp) {a : Nat}
    (ha : ∀ j, j < 2 * f → a < subAddr x bpp f k j ∨ subAddr x bpp f k j + bpp ≤ a) :
    (m.storeBlock x bpp f k es).read a = m.read a := by
  refine Memory.read_stores_outside _ fun w hw hc => ?_
  rw [blockStores_eq_mapIdx] at hw
  obtain ⟨j, hj, rfl⟩ := List.mem_mapIdx.1 hw
  have hout := ha j (hlen ▸ hj)
  unfold Store.Covers at hc
  rw [Nat.zero_add, hbytes _ (List.getElem_mem hj)] at hc
  unfold subAddr at hout
  omega

/-- After a block is stored each of its sub-pixels is there (R224). -/
theorem Memory.holds_storeBlock (hw : 0 < x.width.toNat) (hpitch : 2 * x.width.toNat * bpp ≤ x.dstStride.toNat)
    (hlen : es.length = 2 * f) (hbytes : ∀ e ∈ es, e.length = bpp) {j : Nat} (hj : j < 2 * f) :
    (m.storeBlock x bpp f k es).holds (subAddr x bpp f k j) (es.getD j []) := by
  have hdisj : (blockStores x bpp f (k % x.width.toNat) (k / x.width.toNat) es 0).Pairwise Store.Disjoint := by
    rw [blockStores_eq_mapIdx, List.pairwise_iff_getElem]
    intro i i' hi hi' hlt
    rw [List.length_mapIdx, hlen] at hi hi'
    have hplaces := subAddr_disjoint (k := k) (k' := k) hw hpitch hi hi' (.inr hlt.ne)
    simpa only [subAddr, Store.Disjoint, List.getElem_mapIdx, Nat.zero_add, hbytes _ (List.getElem_mem _)] using hplaces
  have hmem : (subAddr x bpp f k j, es.getD j []) ∈
      blockStores x bpp f (k % x.width.toNat) (k / x.width.toNat) es 0 := by
    rw [blockStores_eq_mapIdx, List.mem_mapIdx]
    exact ⟨j, hlen ▸ hj, by rw [Nat.zero_add, List.getD_eq_getElem]; rfl⟩
  exact Memory.holds_stores m hdisj hmem

end Block

section Step

variable {kernel : Platform → Nbhd → List Pixel} {bpp : BitVec 3} {f : Nat} {next : Word → Operation} {s : State}
  {k : Word} {px : Nat → Nat → Pixel}

/-- The launch checks of a scaler in progress guarantee its room (R139). -/
theorem Scaler.room (hs : Scaler kernel bpp f next) (hi : invariant s = true) (he : s.engine = some (next k)) :
    ScalerRoom s bpp.toNat f := by
  have hl := invariant_launchCheck hi he
  obtain ⟨-, -, hp, -, -⟩ := launchCheck_none.1 hl
  have hparam := (hs.param s.x k).symm.trans hp
  obtain ⟨hwidth, hheight⟩ := size_of_sclParams_none hparam
  obtain ⟨hsource, htarget⟩ := scl_pixels_le hl (hs.param s.x k) (hs.needSrc s.x k) (hs.needDst s.x k)
  rw [sclParams_eq] at hparam
  split_ifs at hparam with _ _ _ hpitch
  exact ⟨by omega, by omega, Nat.not_lt.1 hpitch, hsource, htarget, srcRegion_le hi he,
    (dstRegion_le hi he (hs.usesDst k)).1⟩

/-- Every sub-pixel of a block is a pixel of the image, so it has `bpp` bytes (R225). -/
theorem Scaler.length_subPixel (hs : Scaler kernel bpp f next) (hr : ScalerRoom s bpp.toNat f)
    (himg : SourceImage s bpp.toNat px) (p : Platform) {n : Nat} (hn : n < pixelCount s.x) :
    ∀ e ∈ blockOf (kernel p) px s.x n, e.length = bpp.toNat := by
  have hnb := neighbours_of_image hr himg (Nat.mod_lt n hr.width) (Nat.div_lt_of_lt_mul hn)
  exact fun e he => neighbours_picks_length hnb e ((hs.kernel p _).2 e he)

/-- A scaler step on an image that is there writes the block of its source pixel (R224). -/
theorem Scaler.workStep_eq (hs : Scaler kernel bpp f next) (hr : ScalerRoom s bpp.toNat f)
    (himg : SourceImage s bpp.toNat px) (hk : k.toNat < pixelCount s.x) :
    workStep s (next k) =
      .ok (.to (blockWritten bpp.toNat f next k (blockOf (kernel s.platform) px s.x k.toNat) s)) := by
  have hcol := Nat.mod_lt k.toNat hr.width
  have hrow : k.toNat / s.x.width.toNat < s.x.height.toNat := Nat.div_lt_of_lt_mul hk
  have hlen : (blockOf (kernel s.platform) px s.x k.toNat).length = 2 * f := (hs.kernel _ _).1
  have hfits := blockStores_inDst (j := 0) (hs.length_subPixel hr himg s.platform hk) fun j hj =>
    hr.target _ _ j hcol hrow (by omega)
  have hwrite := writeBlock_stores (s := s) fun w hw => (hfits w hw).2.trans hr.dstRegion
  exact (hs.work s k).trans (sclWork_of_block (neighbours_of_image hr himg hcol hrow) hwrite)

/-- While pixels are left, the engine's turn of a scaler writes the next block, each sub-pixel in its place, and no
other byte of memory (R224). -/
theorem Scaler.exec (hs : Scaler kernel bpp f next) (hi : invariant s = true) (ht : s.hostTurn = false)
    (he : s.engine = some (next k)) (hk : k.toNat ≠ pixelCount s.x) (himg : SourceImage s bpp.toNat px) :
    ∃ m, exec (next k).instr s = .next { s with
        inbox := s.inbox.tail, mem := m, srcPos := BitVec.ofNat 32 ((k.toNat + 1) * bpp.toNat)
        outCnt := BitVec.ofNat 32 ((k.toNat + 1) * bpp.toNat * (2 * f)), engine := some (next (k + 1)) } ∧
      (∀ r c, r < f → c < 2 →
        m.holds (s.x.dstBase.toNat + ((f * (k.toNat / s.x.width.toNat) + r) * s.x.dstStride.toNat +
            (2 * (k.toNat % s.x.width.toNat) + c) * bpp.toNat))
          ((blockOf (kernel s.platform) px s.x k.toNat).getD (2 * r + c) [])) ∧
      ∀ a, (∀ j, j < 2 * f → inSubPixel s.x bpp.toNat f k.toNat j a = false) → m.read a = s.mem.read a := by
  have hr := hs.room hi he
  have hlt : k.toNat < pixelCount s.x := lt_of_le_of_ne (hs.progress s k (invariant_operation hi he).1) hk
  have hlen : (blockOf (kernel s.platform) px s.x k.toNat).length = 2 * f := (hs.kernel _ _).1
  have hbytes := hs.length_subPixel hr himg s.platform hlt
  have hdone : doneTest s.pop (next k) = false := (hs.done _ k).trans (beq_eq_false_iff_ne.2 hk)
  have hwork := hs.workStep_eq (s := s.pop) (hs.room (s := s.pop) hi he) himg hlt
  refine ⟨_, exec_work ht he hdone hwork, fun r c hrow hcol => ?_, fun a ha => ?_⟩
  · have hholds := Memory.holds_storeBlock (m := s.mem) (k := k.toNat) hr.width hr.pitch hlen hbytes
      (show 2 * r + c < 2 * f by omega)
    rwa [subAddr, subOffset, show (2 * r + c) / 2 = r by omega, show (2 * r + c) % 2 = c by omega] at hholds
  · exact Memory.read_storeBlock_outside hlen hbytes fun j hj => inSubPixel_eq_false.1 (ha j hj)

end Step

end Sys2Proof.Machine

namespace Sys2Proof.Proofs

open Sys2Proof.Machine

/-- Settles O35: both commands are a `Scaler`, with blocks of two rows or three. -/
theorem scalerPixelSteps : Obligations.ScalerPixelSteps := by
  rintro s bpp k px _ _ hi ht hk rfl rfl himg
  exact ⟨fun he => (scaler_2x bpp).exec hi ht he hk himg, fun he => (scaler_2x3 bpp).exec hi ht he hk himg⟩

end Sys2Proof.Proofs
end

section
/-! Settles O59. A scaler that is left alone writes the blocks of its source pixels one after another (`scaler_runs`);
no block touches another, so that at the end the whole scaled picture is there (`scaled_picture`). -/

namespace Sys2Proof.Machine

/-! ### The places of the scaled picture -/

/-- The source pixel whose block holds column `x`, row `y` of the scaled picture, in raster order (R224). -/
def sourceIndex (f w x y : Nat) : Nat := y / f * w + x / 2

/-- The sub-pixel of its block at column `x`, row `y` of the scaled picture (R224). -/
def subIndex (f x y : Nat) : Nat := 2 * (y % f) + x % 2

theorem subIndex_lt {f : Nat} (x y : Nat) (hf : 0 < f) : subIndex f x y < 2 * f := by
  have := Nat.mod_lt y hf
  unfold subIndex
  omega

/-- The row and the column of a place's source pixel. -/
theorem sourceIndex_div_mod {f w x y : Nat} (hx : x / 2 < w) :
    sourceIndex f w x y / w = y / f ∧ sourceIndex f w x y % w = x / 2 :=
  (Nat.div_mod_unique (Nat.zero_lt_of_lt hx)).2 ⟨by rw [sourceIndex, Nat.mul_comm w, Nat.add_comm], hx⟩

/-- A place's sub-pixel lies at the place (R77, R224). -/
theorem subAddr_place {x : Operands} (bpp f : Nat) {c : Nat} (r : Nat) (hc : c / 2 < x.width.toNat) :
    subAddr x bpp f (sourceIndex f x.width.toNat c r) (subIndex f c r) =
      x.dstBase.toNat + (r * x.dstStride.toNat + c * bpp) := by
  obtain ⟨hdiv, hmod⟩ := sourceIndex_div_mod (f := f) (y := r) hc
  have hrow : subIndex f c r / 2 = r % f := by unfold subIndex; omega
  have hcol : subIndex f c r % 2 = c % 2 := by unfold subIndex; omega
  rw [subAddr, subOffset, hdiv, hmod, hrow, hcol, Nat.div_add_mod, Nat.div_add_mod]

/-- The pixel at column `x`, row `y` of the scaled picture, with blocks of `f` rows (R222 to R224). -/
def scaledPixel (kernel : Nbhd → List Pixel) (f w h : Nat) (px : Nat → Nat → Pixel) (x y : Nat) : Pixel :=
  (kernel (neighbourhood px w h (x / 2) (y / f))).getD (subIndex f x y) []

/-- A pixel of the scaled picture is a sub-pixel of a block. -/
theorem scaledPixel_eq {x : Operands} (kernel : Nbhd → List Pixel) (f : Nat) (px : Nat → Nat → Pixel) {c : Nat}
    (r : Nat) (hc : c / 2 < x.width.toNat) : scaledPixel kernel f x.width.toNat x.height.toNat px c r =
      (blockOf kernel px x (sourceIndex f x.width.toNat c r)).getD (subIndex f c r) [] := by
  obtain ⟨hdiv, hmod⟩ := sourceIndex_div_mod (f := f) (y := r) hc
  rw [scaledPixel, blockOf, hdiv, hmod]

/-! ### The run of a scaler -/

/-- In `t` the blocks of the source pixels from `i` on are written, and the rest of memory is as in `s`. -/
structure Scaled (kernel : Nbhd → List Pixel) (bpp f i : Nat) (px : Nat → Nat → Pixel) (s t : State) : Prop where
  idle : t.engine = none
  done : t.done = true
  subPixels : ∀ k j, i ≤ k → k < pixelCount s.x → j < 2 * f →
    t.mem.holds (subAddr s.x bpp f k j) ((blockOf kernel px s.x k).getD j [])
  frame : ∀ a, (∀ k j, i ≤ k → k < pixelCount s.x → j < 2 * f →
    a < subAddr s.x bpp f k j ∨ subAddr s.x bpp f k j + bpp ≤ a) → t.mem.read a = s.mem.read a

section Run

variable {kernel : Platform → Nbhd → List Pixel} {bpp : BitVec 3} {f : Nat} {next : Word → Operation} {s : State}
  {k : Word} {px : Nat → Nat → Pixel}

/-- A scaler left alone writes its remaining blocks, one a step, and completes (R142, R224). -/
theorem scaler_runs (hs : Scaler kernel bpp f next) {r : Nat} (h : Alone s (next k))
    (hleft : k.toNat + r = pixelCount s.x) (himg : SourceImage s bpp.toNat px) :
    ∃ t, Runs (r + 1) s t ∧ Scaled (kernel s.platform) bpp.toNat f k.toNat px s t := by
  induction r generalizing s k with
  | zero =>
    refine ⟨_, h.completes (by rw [hs.done, beq_iff_eq]; exact hleft), rfl, rfl, fun i j hlo hhi => ?_, fun _ _ => rfl⟩
    omega
  | succ r ih =>
    have hr := hs.room h.inv h.engine
    have hk : k.toNat < pixelCount s.x := by omega
    have hnotDone : doneTest s (next k) = false := by
      rw [hs.done, beq_eq_false_iff_ne]
      exact hk.ne
    have hto := h.work hnotDone (hs.workStep_eq hr himg hk) rfl rfl
    have hnext : (k + 1).toNat = k.toNat + 1 := by
      rw [← toNat_nextPixel hk, ofNat_toNat_add]
      rfl
    obtain ⟨t, hruns, hscaled⟩ :=
      ih hto.alone (by rw [hnext, Nat.succ_add_eq_add_succ]; exact hleft) (himg.congr hr rfl hto.source)
    have hlen : (blockOf (kernel s.platform) px s.x k.toNat).length = 2 * f := (hs.kernel _ _).1
    have hbytes := hs.length_subPixel hr himg s.platform hk
    refine ⟨t, .step hto.step hruns, hscaled.idle, hscaled.done, fun i j hlo hhi hj => ?_, fun a ha => ?_⟩
    · rcases Nat.eq_or_lt_of_le hlo with rfl | hlt
      · intro n hn
        rw [hscaled.frame _ fun i' j' hlo' hhi' hj' => ?_]
        · exact Memory.holds_storeBlock hr.width hr.pitch hlen hbytes hj n hn
        · have hdisj := subAddr_disjoint hr.width hr.pitch hj hj' (.inl (show k.toNat ≠ i' by omega))
          rw [List.getD_eq_getElem _ _ (hlen ▸ hj), hbytes _ (List.getElem_mem _)] at hn
          show subAddr s.x bpp.toNat f k.toNat j + n < subAddr s.x bpp.toNat f i' j' ∨
            subAddr s.x bpp.toNat f i' j' + bpp.toNat ≤ subAddr s.x bpp.toNat f k.toNat j + n
          omega
      · exact hscaled.subPixels i j (by omega) hhi hj
    · rw [hscaled.frame a fun i j hlo hhi hj => ha i j (by omega) hhi hj]
      exact Memory.read_storeBlock_outside hlen hbytes fun j hj => ha k.toNat j (Nat.le_refl _) hk hj

/-- A whole picture: at the end the scaled picture is there (R222 to R224). -/
theorem scaled_picture (hs : Scaler kernel bpp f next) (h : Alone s (next 0)) (himg : SourceImage s bpp.toNat px) :
    ∃ t, Runs (pixelCount s.x + 1) s t ∧ t.engine = none ∧ t.done = true ∧
      HoldsImage t.mem s.x.dstBase.toNat s.x.dstStride.toNat bpp.toNat (2 * s.x.width.toNat) (f * s.x.height.toNat)
        (scaledPixel (kernel s.platform) f s.x.width.toNat s.x.height.toNat px) := by
  obtain ⟨t, hruns, hscaled⟩ := scaler_runs hs h (Nat.zero_add _) himg
  refine ⟨t, hruns, hscaled.idle, hscaled.done, fun y hy x hx => ?_⟩
  have hr := hs.room h.inv h.engine
  have hf : 0 < f := Nat.pos_of_mul_pos_right (Nat.zero_lt_of_lt hy)
  have hcol : x / 2 < s.x.width.toNat := Nat.div_lt_of_lt_mul hx
  have hk : sourceIndex f s.x.width.toNat x y < pixelCount s.x :=
    (cursor_lt (Nat.div_lt_of_lt_mul hy) hcol).trans_eq (Nat.mul_comm _ _)
  have hj := subIndex_lt x y hf
  have hlen : (blockOf (kernel s.platform) px s.x (sourceIndex f s.x.width.toNat x y)).length = 2 * f :=
    (hs.kernel _ _).1
  rw [scaledPixel_eq _ f px y hcol, Nat.add_assoc, ← subAddr_place bpp.toNat f y hcol]
  refine ⟨?_, hscaled.subPixels _ _ (Nat.zero_le _) hk hj⟩
  rw [List.getD_eq_getElem _ _ (hlen ▸ hj)]
  exact hs.length_subPixel hr himg _ hk _ (List.getElem_mem _)

/-- Every pixel of a scaled picture of one colour has that colour (R225). -/
theorem Scaler.scaledPixel_flat (hs : Scaler kernel bpp f next) (p : Platform) (c : Pixel) {w h x y : Nat}
    (hf : 0 < f) : scaledPixel (kernel p) f w h (fun _ _ => c) x y = c := by
  obtain ⟨hlen, hpicks⟩ := hs.kernel p (neighbourhood (fun _ _ => c) w h (x / 2) (y / f))
  rw [scaledPixel, List.getD_eq_getElem _ _ (hlen ▸ subIndex_lt x y hf)]
  exact eq_of_mem_picks (hpicks _ (List.getElem_mem _)) rfl rfl rfl rfl

/-- A scaler turns a picture of one colour into a picture of that colour (R230). -/
theorem flat_picture (hs : Scaler kernel bpp f next) (hf : 0 < f) (h : Alone s (next 0)) {c : Pixel}
    (himg : SourceImage s bpp.toNat fun _ _ => c) :
    ∃ t, Runs (pixelCount s.x + 1) s t ∧ t.engine = none ∧ t.done = true ∧
      HoldsImage t.mem s.x.dstBase.toNat s.x.dstStride.toNat bpp.toNat (2 * s.x.width.toNat) (f * s.x.height.toNat)
        fun _ _ => c := by
  obtain ⟨t, hruns, hidle, hdone, hpicture⟩ := scaled_picture hs h himg
  refine ⟨t, hruns, hidle, hdone, fun y hy x hx => ?_⟩
  have hpixel := hpicture y hy x hx
  rwa [hs.scaledPixel_flat _ c hf] at hpixel

end Run

end Sys2Proof.Machine

namespace Sys2Proof.Proofs

open Sys2Proof.Machine

/-- Settles O59: both commands are a `Scaler`, whatever the kernel. -/
theorem flatPictureScales : Obligations.FlatPictureScales := by
  rintro s bpp c f w h hi hin rfl rfl himg (⟨he, rfl⟩ | ⟨he, rfl⟩)
  · exact flat_picture (scaler_2x bpp) (by decide) ⟨hi, hin, he⟩ himg
  · exact flat_picture (scaler_2x3 bpp) (by decide) ⟨hi, hin, he⟩ himg

end Sys2Proof.Proofs
end

section
/-! Settles O38: the byte swap undoes itself, so no two pixels have the same swap. -/

namespace Sys2Proof.Machine

/-- Bytes 0 and 2 that change places twice are back where they were; a shorter pixel never changes (R251). -/
theorem swapPixel_involutive : Function.Involutive swapPixel
  | _ :: _ :: _ :: _ => rfl
  | [] | [_] | [_, _] => rfl

end Sys2Proof.Machine

namespace Sys2Proof.Proofs

open Sys2Proof.Machine

/-- Settles O38: the three formats are equations of the swap, and an involution is injective, whatever the lengths. -/
theorem pixelSwap : Obligations.PixelSwap := by
  refine ⟨fun b => ?oneByte, fun b0 b1 b2 => ?threeBytes, fun b0 b1 b2 b3 => ?fourBytes, fun p q _ hswap => ?injective⟩
  case oneByte | threeBytes | fourBytes => rfl
  case injective => exact swapPixel_involutive.injective hswap

end Sys2Proof.Proofs
end

section
/-! Settles O41: an engine step raises FAULT only by the fault entry of its work step, from the state it began in. -/

namespace Sys2Proof.Machine

/-- An engine step that raises FAULT is the fault entry of a work step that raised: the completing step and a work step
that updates the state leave FAULT (R140, R304). -/
theorem exec_fault {s t : State} {op : Operation} (ht : s.hostTurn = false) (he : s.engine = some op)
    (hf : s.fault = false) (h : exec op.instr s = .next t) (htf : t.fault = true) :
    ∃ c info, workStep s.pop op = .ok (.raise c info) ∧ t = takeFault c info s.pop := by
  have hraised : t.fault ≠ s.fault := by simp [htf, hf]
  rw [exec_engine ht he] at h
  rcases engineStep_next h with ⟨-, rfl⟩ | ⟨-, hwork⟩ | ⟨-, c, info, hraise, hentry⟩
  · exact absurd rfl hraised
  · exact absurd (workFrame_workStep hwork).fault hraised
  · exact ⟨c, info, hraise, hentry⟩

end Sys2Proof.Machine

namespace Sys2Proof.Proofs

open Sys2Proof.Machine

/-- Settles O41: the faulting step is fault entry (`exec_fault`), which writes BUSY, FAULT, CAUSE and FINFO only. -/
theorem faultsArePrecise : Obligations.FaultsArePrecise := by
  intro s t op ht he hf h htf
  obtain ⟨c, info, -, rfl⟩ := exec_fault ht he hf h htf
  rfl

end Sys2Proof.Proofs
end
